-- ==== Sys2Proof/Word.lean ====
section
/-! DEFINITION. The word types of the QRC block (`00_scope.md` R13): what the spec treats as bits. -/

namespace Sys2Proof

/-- An input, output or payload byte, a device register address, an 8-bit REQ operand (R13). -/
abbrev Byte := BitVec 8

/-- A device register or a raw fixed-point word (R13). -/
abbrev Word := BitVec 16

/-- A raw measurement word or the `rdata` field of a result record (R13, `30_encoding.md` R97). -/
abbrev Long := BitVec 32

/-- The bits of an IEEE 754 binary64 value, the source's `f64` (R13, R16). -/
abbrev F64 := BitVec 64

/-- A tick value. P_TICK_W is 8..64 (R12), so 64 bits hold every tick; the bits from P_TICK_W up
are 0 in every tick the model samples (log entry 7). -/
abbrev Tick := BitVec 64

/-- A 7-bit bus address (R12, P_DEV_ADDR). -/
abbrev DevAddr := BitVec 7

end Sys2Proof
end

