-- ==== Sys2Proof/Config.lean ====
section
/-! DEFINITION. What an implementation fixes: the constants of `00_scope.md` R11, the parameters of
R12 as one record, and the free values (opaque constants without a body). -/

namespace Sys2Proof

/-- The notice kinds of `30_encoding.md` R113. -/
inductive Notice
  /-- N_OK: a command that changes device state succeeded. -/
  | ok
  /-- N_TOO_FEW: latch byte mismatch. -/
  | tooFew
  /-- N_TIMEOUT: a multi-byte command timed out. -/
  | timeout
  /-- N_CONFIG: a called REG operation returned ConfigError. -/
  | config
  /-- N_COMM: a called REG operation returned CommError. -/
  | comm
  /-- N_RESET_TIMEOUT: RESET returned Timeout. -/
  | resetTimeout
deriving DecidableEq, Repr, Inhabited

/-- The parameters of `00_scope.md` R12 (with `30_encoding.md` R101 and R110): "Each is an argument
of the model". P_NOTICE_TEXT is `Config.noticeText`. -/
structure Params where
  /-- P_TICK_W. -/
  tickW : Nat
  /-- P_LATCH. -/
  latch : Byte
  /-- P_CMD_RESET. -/
  cmdReset : Byte
  /-- P_CMD_MFR_ID. -/
  cmdMfrId : Byte
  /-- P_CMD_DEV_ID. -/
  cmdDevId : Byte
  /-- P_CMD_RD_RATE. -/
  cmdRdRate : Byte
  /-- P_CMD_SENSOR. -/
  cmdSensor : Byte
  /-- P_CMD_RD_CH0. -/
  cmdRdCh0 : Byte
  /-- P_CMD_RD_CH1. -/
  cmdRdCh1 : Byte
  /-- P_CMD_RD_CH2. -/
  cmdRdCh2 : Byte
  /-- P_CMD_RD_CH3. -/
  cmdRdCh3 : Byte
  /-- P_CMD_START0. -/
  cmdStart0 : Byte
  /-- P_CMD_START1. -/
  cmdStart1 : Byte
  /-- P_CMD_START2. -/
  cmdStart2 : Byte
  /-- P_CMD_START3. -/
  cmdStart3 : Byte
  /-- P_CMD_ENTER_RATE. -/
  cmdEnterRate : Byte
  /-- P_CMD_ENTER_CHSET. -/
  cmdEnterChset : Byte
  /-- P_PKT_SENSOR. -/
  pktSensor : Byte
  /-- P_PKT_RATE. -/
  pktRate : Byte
  /-- P_PKT_MFR_ID. -/
  pktMfrId : Byte
  /-- P_PKT_DEV_ID. -/
  pktDevId : Byte
  /-- P_PKT_CHSET. -/
  pktChset : Byte
  /-- P_PKT_DATA. -/
  pktData : Byte
  /-- P_DEV_ADDR. -/
  devAddr : DevAddr
  /-- P_RESET_POLL_LIMIT. -/
  resetPollLimit : Nat
deriving DecidableEq, Repr, Inhabited

/-- The defaults of R12, R101 and R110. -/
def Params.default : Params where
  tickW := 32
  latch := 0x4C
  cmdReset := 0x76
  cmdMfrId := 0x6D
  cmdDevId := 0x69
  cmdRdRate := 0x66
  cmdSensor := 0x70
  cmdRdCh0 := 0x41
  cmdRdCh1 := 0x42
  cmdRdCh2 := 0x43
  cmdRdCh3 := 0x44
  cmdStart0 := 0x61
  cmdStart1 := 0x62
  cmdStart2 := 0x63
  cmdStart3 := 0x64
  cmdEnterRate := 0x72
  cmdEnterChset := 0x73
  pktSensor := 0x01
  pktRate := 0x02
  pktMfrId := 0x03
  pktDevId := 0x04
  pktChset := 0x05
  pktData := 0x06
  devAddr := 0x50
  resetPollLimit := 100

/-- What the device does in one BUS transaction (`20_memory.md` R61): the changes it makes to its
own registers before it answers, and whether it answers. Any answer to a Read is some such move,
since the device may change the register read to any word first (log entry 2). -/
structure DeviceTurn where
  /-- registers the device changes on its own before answering: (register address, new word) -/
  changes : List (Byte × Word)
  /-- whether the transaction succeeds (for a Probe: whether the device answers it) -/
  answers : Bool
deriving DecidableEq, Repr, Inhabited

namespace Config

/-- N_CH: measurement channels 0..3 (R11). -/
def nCh : Nat := 4

/-- FB_OFFSET: fractional bits of the offset calibration (R11). -/
def fbOffset : Byte := 11

/-- FB_GAIN: fractional bits of the gain calibration (R11). -/
def fbGain : Byte := 14

/-- FB_MEAS: fractional bits of the 24-bit measurement (R11). -/
def fbMeas : Nat := 19

/-- CAPDAC_MAX: the largest CAPDAC setting (R11). -/
def capdacMax : Byte := 31

/-- P_TIMEOUT_TICKS: the multi-byte timeout window (R11). -/
def timeoutTicks : Nat := 1000

/-- HDR_REPLY (R11). -/
def hdrReply : Byte := 0xA0

/-- HDR_DATA (R11, `90_conflicts.md` C5). -/
def hdrData : Byte := 0xA1

/-- TAIL (R11). -/
def tail : Byte := 0xC0

/-- REG_BYTES: bytes per device register (R11). -/
def regBytes : Nat := 2

/-- What a byte of the device's register space reads as while nothing has written it.
DESIGN CHOICE, unsafe (log entry 3): R51 leaves device registers arbitrary. -/
def unwrittenByte : Byte := 0

/-- FREE VALUE: the device's `k`-th move past those that `State.turns` fixes (R61, R51; log entry
2). It has no body: nothing can be proved of it. -/
opaque deviceTurn : Nat → DeviceTurn

/-- FREE VALUE: P_NOTICE_TEXT(code), "left OPEN" (`30_encoding.md` R113; log entry 14). -/
opaque noticeText : Notice → List Byte

end Config

end Sys2Proof
end

