-- ==== Sys2Proof/Syntax.lean ====
section
/-! DEFINITION. The instructions of the QRC block: one constructor per row of
`spec/opcode_table.json`, with the operands the row's rule reads; the REQ record; the session
position that stands in for a program counter; the two ports instructions arrive on. -/

namespace Sys2Proof

/-- The rows of `spec/opcode_table.json`. REQ operands are those `30_encoding.md` R92 names; the
SEQ rows carry the byte received. -/
inductive Instr
  -- REQ, FXP unit
  | fxpDecS (raw : Word) (a : Byte)
  | fxpEncS (val : F64) (a : Byte)
  | fxpDecU (raw : Word) (a : Byte)
  | fxpEncU (val : F64) (a : Byte)
  -- REQ, REG unit
  | rdOffset (ch : Byte)
  | wrOffset (ch : Byte) (val : F64)
  | rdGain (ch : Byte)
  | wrGain (ch : Byte) (val : F64)
  | cfgInput (ch a b c : Byte)
  | startMeas (ch : Byte)
  | stopMeas (ch : Byte)
  | isDone (ch : Byte)
  | newData
  | setRate (a : Byte)
  | rdRate
  | enRepeat (a : Byte)
  | disRepeat
  | rdRaw (ch : Byte)
  | rdMeas (ch : Byte)
  | reset
  | present
  | rdId (a : Byte)
  /-- op 0x16 or 0x17: `op = 0x16 | lo` -/
  | reservedLow (lo : BitVec 1)
  /-- op 0x18..0x1F: `op = 0x18 | lo` -/
  | reservedHigh (lo : BitVec 3)
  -- CMD8: one RX byte in Idle
  | cmdEnterRate
  | cmdEnterChset
  | cmdReset
  | cmdMfrId
  | cmdDevId
  | cmdRdRate
  | cmdSensor
  | cmdRdCh0
  | cmdRdCh1
  | cmdRdCh2
  | cmdRdCh3
  | cmdStart0
  | cmdStart1
  | cmdStart2
  | cmdStart3
  -- SEQ_RATE
  | seqRateDigit (b : Byte)
  | seqRateLatch (b : Byte)
  -- SEQ_CHSET
  | seqChsetPayload (b : Byte)
  | seqChsetLatch (b : Byte)
deriving DecidableEq, Repr

/-- Where the parser stands: the place that "plays the role of a program counter"
(`10_state.md` R37). -/
inductive Pos
  | idle
  | rate (progress : BitVec 3)
  | chset (progress : BitVec 3)
deriving DecidableEq, Repr

/-- A REQ request record (`30_encoding.md` R91). -/
structure ReqRecord where
  op  : BitVec 5
  ch  : Byte := 0
  a   : Byte := 0
  b   : Byte := 0
  c   : Byte := 0
  raw : Word := 0
  val : F64 := 0
deriving DecidableEq, Repr

/-- What an instruction is read from: a record on the REQ port or a byte on the RX port
(`30_encoding.md` R90). -/
inductive PortWord
  | req (r : ReqRecord)
  | rx (b : Byte)
deriving DecidableEq, Repr

/-- One step the host offers (`00_scope.md` R9): one control-loop iteration with at most one RX
byte and the TICK sample, or one REQ-port request. -/
inductive StepInput
  | iterate (rx : Option Byte) (now : Tick)
  | request (r : ReqRecord)
deriving DecidableEq, Repr

end Sys2Proof
end

