-- ==== Sys2Proof/WellFormed.lean ====
section
/-! DEFINITION. What may be refused before a step runs: a parameter assignment that breaks
`30_encoding.md` R102 or the ranges of `00_scope.md` R12; and at which session position an
instruction may stand (`30_encoding.md` R116). -/

namespace Sys2Proof

/-- The fifteen P_CMD_* values, in the order of R101's table. -/
def Params.cmdBytes (p : Params) : List Byte :=
  [p.cmdReset, p.cmdMfrId, p.cmdDevId, p.cmdRdRate, p.cmdSensor, p.cmdRdCh0, p.cmdRdCh1,
    p.cmdRdCh2, p.cmdRdCh3, p.cmdStart0, p.cmdStart1, p.cmdStart2, p.cmdStart3, p.cmdEnterRate,
    p.cmdEnterChset]

/-- The six P_PKT_* ids, in the order of R110's table. -/
def Params.pktIds (p : Params) : List Byte :=
  [p.pktSensor, p.pktRate, p.pktMfrId, p.pktDevId, p.pktChset, p.pktData]

/-- "The fifteen P_CMD_* values must be pairwise distinct" (R102). -/
def Params.cmdBytesDistinct (p : Params) : Bool := decide p.cmdBytes.Nodup

/-- "The six ids must be pairwise distinct" (R110). -/
def Params.pktIdsDistinct (p : Params) : Bool := decide p.pktIds.Nodup

/-- P_TICK_W is in 8..64 (R12). -/
def Params.tickWidthInRange (p : Params) : Bool := decide (8 ≤ p.tickW ∧ p.tickW ≤ 64)

/-- P_RESET_POLL_LIMIT is in 1..2^16 (R12). -/
def Params.pollLimitInRange (p : Params) : Bool :=
  decide (1 ≤ p.resetPollLimit ∧ p.resetPollLimit ≤ 65536)

/-- "A model takes an assignment that breaks this as ill-formed and refuses it" (R102), applied to
every constraint R12, R102 and R110 put on the parameters. P_LATCH may equal a command byte (R102;
log entry 16). -/
def Params.wf (p : Params) : Bool :=
  p.cmdBytesDistinct && p.pktIdsDistinct && p.tickWidthInRange && p.pollLimitInRange

/-- Whether instruction `i` may stand at session position `pos`: a REQ operation between any two
iterations (`00_scope.md` R9), a command only in Idle (`30_encoding.md` R100), a sequence byte only
at its place (R104, R106, R116). -/
def Instr.fits (i : Instr) (pos : Pos) : Bool :=
  match i with
  | .fxpDecS _ _ | .fxpEncS _ _ | .fxpDecU _ _ | .fxpEncU _ _ => true
  | .rdOffset _ | .wrOffset _ _ | .rdGain _ | .wrGain _ _ | .cfgInput _ _ _ _ => true
  | .startMeas _ | .stopMeas _ | .isDone _ | .newData | .setRate _ | .rdRate => true
  | .enRepeat _ | .disRepeat | .rdRaw _ | .rdMeas _ | .reset | .present | .rdId _ => true
  | .reservedLow _ | .reservedHigh _ => true
  | .cmdEnterRate | .cmdEnterChset | .cmdReset | .cmdMfrId | .cmdDevId => pos == .idle
  | .cmdRdRate | .cmdSensor | .cmdRdCh0 | .cmdRdCh1 | .cmdRdCh2 | .cmdRdCh3 => pos == .idle
  | .cmdStart0 | .cmdStart1 | .cmdStart2 | .cmdStart3 => pos == .idle
  | .seqRateDigit _ => pos == .rate 1
  | .seqRateLatch _ => pos == .rate 2
  | .seqChsetPayload _ =>
    match pos with
    | .chset k => decide (1 ≤ k.toNat ∧ k.toNat ≤ 6)
    | _ => false
  | .seqChsetLatch _ => pos == .chset 7

end Sys2Proof
end

