-- ==== Sys2Proof/Decode.lean ====
section
/-! DEFINITION. The decoder (`30_encoding.md` R92, R100, R101, R104, R106), total, rejecting by
name; after it the encoder, written from the same tables; then the words of
`spec/opcode_table.json`. -/

namespace Sys2Proof

/-- Why a port word is no instruction. -/
inductive DecodeError
  /-- a byte in Idle that equals no P_CMD_* value (R103): the parser ignores it -/
  | unknownCommand (b : Byte)
  /-- a byte at a session position that no run reaches (`10_state.md` R34, R52) -/
  | noSuchPosition (pos : Pos)
deriving DecidableEq, Repr

/-- The `op` field of a REQ record selects the operation (R92, R94). -/
def decodeReq (r : ReqRecord) : Instr :=
  match r.op.toNat with
  | 0x00 => .fxpDecS r.raw r.a
  | 0x01 => .fxpEncS r.val r.a
  | 0x02 => .fxpDecU r.raw r.a
  | 0x03 => .fxpEncU r.val r.a
  | 0x04 => .rdOffset r.ch
  | 0x05 => .wrOffset r.ch r.val
  | 0x06 => .rdGain r.ch
  | 0x07 => .wrGain r.ch r.val
  | 0x08 => .cfgInput r.ch r.a r.b r.c
  | 0x09 => .startMeas r.ch
  | 0x0A => .stopMeas r.ch
  | 0x0B => .isDone r.ch
  | 0x0C => .newData
  | 0x0D => .setRate r.a
  | 0x0E => .rdRate
  | 0x0F => .enRepeat r.a
  | 0x10 => .disRepeat
  | 0x11 => .rdRaw r.ch
  | 0x12 => .rdMeas r.ch
  | 0x13 => .reset
  | 0x14 => .present
  | 0x15 => .rdId r.a
  | 0x16 => .reservedLow 0
  | 0x17 => .reservedLow 1
  | _    => .reservedHigh (r.op.setWidth 3)

/-- The immediate commands by their byte (R101, `42_command_protocol.md` R205). -/
def decodeCommand (p : Params) (b : Byte) : Option Instr :=
  if b = p.cmdReset then some .cmdReset
  else if b = p.cmdMfrId then some .cmdMfrId
  else if b = p.cmdDevId then some .cmdDevId
  else if b = p.cmdRdRate then some .cmdRdRate
  else if b = p.cmdSensor then some .cmdSensor
  else if b = p.cmdRdCh0 then some .cmdRdCh0
  else if b = p.cmdRdCh1 then some .cmdRdCh1
  else if b = p.cmdRdCh2 then some .cmdRdCh2
  else if b = p.cmdRdCh3 then some .cmdRdCh3
  else if b = p.cmdStart0 then some .cmdStart0
  else if b = p.cmdStart1 then some .cmdStart1
  else if b = p.cmdStart2 then some .cmdStart2
  else if b = p.cmdStart3 then some .cmdStart3
  else if b = p.cmdEnterRate then some .cmdEnterRate
  else if b = p.cmdEnterChset then some .cmdEnterChset
  else none

/-- An RX byte at a session position (R116): in Idle a command, in Awaiting the sequence byte of
that place, "never byte values other than the entry byte". -/
def decodeRx (p : Params) (pos : Pos) (b : Byte) : Except DecodeError Instr :=
  match pos with
  | .idle =>
    match decodeCommand p b with
    | some i => .ok i
    | none => .error (.unknownCommand b)
  | .rate k =>
    if k = 1 then .ok (.seqRateDigit b)
    else if k = 2 then .ok (.seqRateLatch b)
    else .error (.noSuchPosition pos)
  | .chset k =>
    if k = 7 then .ok (.seqChsetLatch b)
    else if k = 0 then .error (.noSuchPosition pos)
    else .ok (.seqChsetPayload b)

/-- The decoder of both ports. -/
def decode (p : Params) (pos : Pos) (w : PortWord) : Except DecodeError Instr :=
  match w with
  | .req r => .ok (decodeReq r)
  | .rx b => decodeRx p pos b

/-- The encoder: the record or byte that stands for an instruction, from the tables of R92, R101,
R104 and R106. Operand fields an operation does not use are 0 (R91 lets them be anything). -/
def encode (p : Params) (i : Instr) : PortWord :=
  match i with
  | .fxpDecS raw a => .req { op := 0x00, raw := raw, a := a }
  | .fxpEncS val a => .req { op := 0x01, val := val, a := a }
  | .fxpDecU raw a => .req { op := 0x02, raw := raw, a := a }
  | .fxpEncU val a => .req { op := 0x03, val := val, a := a }
  | .rdOffset ch => .req { op := 0x04, ch := ch }
  | .wrOffset ch val => .req { op := 0x05, ch := ch, val := val }
  | .rdGain ch => .req { op := 0x06, ch := ch }
  | .wrGain ch val => .req { op := 0x07, ch := ch, val := val }
  | .cfgInput ch a b c => .req { op := 0x08, ch := ch, a := a, b := b, c := c }
  | .startMeas ch => .req { op := 0x09, ch := ch }
  | .stopMeas ch => .req { op := 0x0A, ch := ch }
  | .isDone ch => .req { op := 0x0B, ch := ch }
  | .newData => .req { op := 0x0C }
  | .setRate a => .req { op := 0x0D, a := a }
  | .rdRate => .req { op := 0x0E }
  | .enRepeat a => .req { op := 0x0F, a := a }
  | .disRepeat => .req { op := 0x10 }
  | .rdRaw ch => .req { op := 0x11, ch := ch }
  | .rdMeas ch => .req { op := 0x12, ch := ch }
  | .reset => .req { op := 0x13 }
  | .present => .req { op := 0x14 }
  | .rdId a => .req { op := 0x15, a := a }
  | .reservedLow lo => .req { op := 0x16 ||| lo.setWidth 5 }
  | .reservedHigh lo => .req { op := 0x18 ||| lo.setWidth 5 }
  | .cmdEnterRate => .rx p.cmdEnterRate
  | .cmdEnterChset => .rx p.cmdEnterChset
  | .cmdReset => .rx p.cmdReset
  | .cmdMfrId => .rx p.cmdMfrId
  | .cmdDevId => .rx p.cmdDevId
  | .cmdRdRate => .rx p.cmdRdRate
  | .cmdSensor => .rx p.cmdSensor
  | .cmdRdCh0 => .rx p.cmdRdCh0
  | .cmdRdCh1 => .rx p.cmdRdCh1
  | .cmdRdCh2 => .rx p.cmdRdCh2
  | .cmdRdCh3 => .rx p.cmdRdCh3
  | .cmdStart0 => .rx p.cmdStart0
  | .cmdStart1 => .rx p.cmdStart1
  | .cmdStart2 => .rx p.cmdStart2
  | .cmdStart3 => .rx p.cmdStart3
  | .seqRateDigit b => .rx b
  | .seqRateLatch b => .rx b
  | .seqChsetPayload b => .rx b
  | .seqChsetLatch b => .rx b

/-- A REQ record read from one number. The spec gives the fields and widths (R91) and the `op` bits
4:0 (the opcode table); the places above are DESIGN CHOICE (log entry 13): ch 15:8, a 23:16,
b 31:24, c 39:32, raw 55:40, val 119:56. -/
def ReqRecord.ofBits (w : Nat) : ReqRecord where
  op := BitVec.ofNat 5 w
  ch := BitVec.ofNat 8 (w >>> 8)
  a := BitVec.ofNat 8 (w >>> 16)
  b := BitVec.ofNat 8 (w >>> 24)
  c := BitVec.ofNat 8 (w >>> 32)
  raw := BitVec.ofNat 16 (w >>> 40)
  val := BitVec.ofNat 64 (w >>> 56)

/-- The number a REQ record is laid out as: the inverse of `ReqRecord.ofBits`. -/
def ReqRecord.toBits (r : ReqRecord) : Nat :=
  r.op.toNat + r.ch.toNat <<< 8 + r.a.toNat <<< 16 + r.b.toNat <<< 24 + r.c.toNat <<< 32
    + r.raw.toNat <<< 40 + r.val.toNat <<< 56

/-- Which port a word of the opcode table stands for, and at which session position (log entry 13).
The table's REQ rows have bits 7:5 zero; every other row is one RX byte, read in Idle, but for the
default latch byte, which is read at the RATE latch; a word without bits is the row that fixes none, a
sequence's first byte. -/
def tableWordPort (nbits w : Nat) : Option (Pos × PortWord) :=
  let v := w % 2 ^ nbits
  if nbits = 0 then some (.rate 1, .rx 0)
  else if v % 256 < 32 then some (.idle, .req (ReqRecord.ofBits v))
  else if v < 256 then
    if BitVec.ofNat 8 v = Params.default.latch then some (.rate 2, .rx (BitVec.ofNat 8 v))
    else some (.idle, .rx (BitVec.ofNat 8 v))
  else none

/-- The instruction the decoder reads from a word of `spec/opcode_table.json`. -/
def decodeTableWord (nbits w : Nat) : Option Instr :=
  match tableWordPort nbits w with
  | some (pos, pw) =>
    match decode Params.default pos pw with
    | .ok i => some i
    | .error _ => none
  | none => none

end Sys2Proof
end

