-- ==== Sys2Proof/Machine/State.lean ====
section
/-! DEFINITION. The machine's state as plain data (`10_state.md`), the reasons a step can stop, and
the state after block reset (R50). -/

namespace Sys2Proof.Machine

/-- `s.mode` (R32): Idle is 0, Awaiting is 1. -/
inductive Mode
  | idle
  | awaiting
deriving DecidableEq, Repr

/-- `s.kind` (R33): RATE is 0, CHSET is 1. -/
inductive Kind
  | rate
  | chset
deriving DecidableEq, Repr

/-- The session registers (R31). -/
structure Session where
  /-- `s.mode` (R32) -/
  mode     : Mode
  /-- `s.kind` (R33) -/
  kind     : Kind
  /-- `s.progress` (R34) -/
  progress : BitVec 3
  /-- `s.deadline` (R35): the tick of the entry byte -/
  deadline : Tick
  /-- `s.scratch[0..5]` (R36) -/
  scratch  : Vector Byte 6
deriving DecidableEq, Repr

/-- An OUT event (R39, `00_scope.md` R8). -/
inductive OutEvent
  | packet (bytes : List Byte)
  | notice (n : Notice)
deriving DecidableEq, Repr

/-- A BUS transaction with its result (`00_scope.md` R8, R10, R17). -/
inductive BusEvent
  /-- `Read(dev, reg, n)`: the two bytes returned, or a failure -/
  | read (dev : DevAddr) (reg : Byte) (n : Nat) (result : Option (Byte × Byte))
  /-- `Write(dev, reg, [b0, b1])` and whether it succeeded -/
  | write (dev : DevAddr) (reg : Byte) (b0 b1 : Byte) (ok : Bool)
  /-- `Probe(dev)` and its Boolean -/
  | probe (dev : DevAddr) (answer : Bool)
deriving DecidableEq, Repr

/-- The status of an operation (`00_scope.md` R18, `30_encoding.md` R98). -/
inductive Status
  | ok
  | commError
  | configError
  | timeout
deriving DecidableEq, Repr

/-- What `raise E` may name (`00_scope.md` R17, R18): the statuses other than OK. -/
inductive Err
  | commError
  | configError
  | timeout
deriving DecidableEq, Repr

/-- A REQ result record (`30_encoding.md` R97). -/
structure ReqResult where
  status : Status
  rdata  : Long
  rval   : F64
  rbool  : Bool
deriving DecidableEq, Repr

/-- The device's register space, as bytes (`20_memory.md` R60, R64): register `r`'s bits 15:8 at
address `2·r`, its bits 7:0 at `2·r + 1` (log entry 4). Canonical form: `Memory.wf`. -/
abbrev Memory := List Host.Cell

/-- The whole state. -/
structure State where
  /-- the parameters (`00_scope.md` R12); no step writes them -/
  params    : Params
  /-- the session registers (R31) -/
  session   : Session
  /-- the OUT queue (R39), oldest first -/
  out       : List OutEvent
  /-- the device's registers (R41) -/
  regs      : Memory
  /-- MODEL: the device's coming moves, as far as the state fixes them (log entry 2) -/
  turns     : List DeviceTurn
  /-- MODEL: how many free device moves were taken (log entry 2) -/
  freeTurns : Nat
  /-- the BUS transactions so far (`00_scope.md` R10), oldest first -/
  bus       : List BusEvent
  /-- the REQ result records so far (`00_scope.md` R10), oldest first -/
  results   : List ReqResult
  /-- MODEL: the steps the host has offered and the block has not taken (log entry 1) -/
  pending   : List StepInput
  /-- MODEL: the TICK sample of the iteration in progress (log entry 8) -/
  tick      : Tick
deriving DecidableEq, Repr

/-- Why the machine is stuck. -/
inductive Fault
  /-- Raised when a byte arrives, or a payload byte is run, at a session position that no rule
  gives an effect: Awaiting with a progress outside `10_state.md` R34. No run reaches one (R52).
  Safe: the model stops where the spec gives no effect (log entry 10). -/
  | sessionPosition
deriving DecidableEq, Repr

/-- Why the model gives a step no meaning. -/
inductive Refusal
  /-- Raised by `exec` for an instruction without a meaning. No arm raises it. Safe. -/
  | notModelled (mnemonic : String)
  /-- Raised by `step` when the parameters are ill-formed: "A model takes an assignment that breaks
  this as ill-formed and refuses it" (`30_encoding.md` R102). Safe (log entry 6). -/
  | illFormedParameters
deriving DecidableEq, Repr

/-- The session registers after block reset (R50). -/
def Session.reset : Session where
  mode     := .idle
  kind     := .rate
  progress := 0
  deadline := 0
  scratch  := #v[0, 0, 0, 0, 0, 0]

/-- The machine right after block reset (R50, `70_reset_and_hazards.md` R290): Idle, OUT empty, no
transaction made; the parameters at their defaults (`00_scope.md` R12); device registers unwritten
(R51; log entry 3); nothing offered by the host (R292; log entry 1). -/
def State.reset : State where
  params    := Params.default
  session   := Session.reset
  out       := []
  regs      := []
  turns     := []
  freeTurns := 0
  bus       := []
  results   := []
  pending   := []
  tick      := 0

end Sys2Proof.Machine
end

