-- ==== Sys2Proof/Machine/Ops.lean ====
section
/-! DEFINITION. The shared operations: the device's register memory, one BUS transaction of each
kind, the REG operations' `raise`/`return` (`00_scope.md` R17), RMW, Emit and Frame, the session
position, and what the outside does between steps. -/

namespace Sys2Proof.Machine

/-! ### The device's register memory -/

/-- One byte of the register space. -/
def memRead : Memory → Nat → Byte
  | [], _ => Config.unwrittenByte
  | (b, v) :: m, a => if a = b then v else memRead m a

/-- Store one byte, keeping the canonical form. -/
def memWrite : Memory → Nat → Byte → Memory
  | [], a, v => if v = Config.unwrittenByte then [] else [(a, v)]
  | (b, w) :: m, a, v =>
    if a < b then
      if v = Config.unwrittenByte then (b, w) :: m else (a, v) :: (b, w) :: m
    else if a = b then
      if v = Config.unwrittenByte then m else (a, v) :: m
    else (b, w) :: memWrite m a v

/-- Every address of the list is above `lo`, strictly rising, inside the space, and no entry equals
what an unlisted address reads as. -/
def memWfFrom : Nat → Memory → Bool
  | _, [] => true
  | lo, (a, v) :: m =>
    decide (lo ≤ a) && decide (a < 512) && decide (v ≠ Config.unwrittenByte) && memWfFrom (a + 1) m

/-- The canonical form of the register space: 256 registers of 2 bytes (`20_memory.md` R60). -/
def Memory.wf (m : Memory) : Bool := memWfFrom 0 m

/-- Where the high byte (bits 15:8) of register `r` lies; its low byte lies one above (log entry
4). -/
def hiByteAddr (r : Byte) : Nat := 2 * r.toNat

/-- Where the low byte (bits 7:0) of register `r` lies. -/
def loByteAddr (r : Byte) : Nat := 2 * r.toNat + 1

/-- `w[15:8]`. -/
def hiByte (w : Word) : Byte := w.extractLsb' 8 8

/-- `w[7:0]`. -/
def loByte (w : Word) : Byte := w.extractLsb' 0 8

/-- `{b0, b1}`: the word of two bytes, the first more significant (`20_memory.md` R64). -/
def wordOfBytes (b0 b1 : Byte) : Word := b0 ++ b1

/-- The content of a device register. -/
def regRead (m : Memory) (r : Byte) : Word :=
  wordOfBytes (memRead m (hiByteAddr r)) (memRead m (loByteAddr r))

/-- Store a whole device register (`20_memory.md` R67: never part of one). -/
def regWrite (m : Memory) (r : Byte) (w : Word) : Memory :=
  memWrite (memWrite m (hiByteAddr r) (hiByte w)) (loByteAddr r) (loByte w)

/-- The device's own changes to its registers, in order (`10_state.md` R41). -/
def regsChanged (m : Memory) (changes : List (Byte × Word)) : Memory :=
  changes.foldl (fun m c => regWrite m c.1 c.2) m

/-! ### The device's turn -/

/-- The device's `k`-th coming move: the one the state fixes, or past those a free value. -/
def turnAt (s : State) (k : Nat) : DeviceTurn :=
  match s.turns[k]? with
  | some t => t
  | none => Config.deviceTurn (s.freeTurns + (k - s.turns.length))

/-- The device moves: it changes its own registers as it likes (`10_state.md` R41, `20_memory.md`
R61), and the move is used up. -/
def deviceMoves (s : State) : State :=
  match s.turns with
  | t :: ts => { s with turns := ts, regs := regsChanged s.regs t.changes }
  | [] =>
    { s with
      freeTurns := s.freeTurns + 1
      regs := regsChanged s.regs (Config.deviceTurn s.freeTurns).changes }

/-- Append a transaction to the BUS log (`00_scope.md` R10). -/
def logBus (e : BusEvent) (s : State) : State := { s with bus := s.bus ++ [e] }

/-- One transaction `Read(P_DEV_ADDR, reg, 2)`: two bytes, the first bits 15:8 (`20_memory.md` R64),
or a failure (R61). -/
def busRead (reg : Byte) (s : State) : Option (Byte × Byte) × State :=
  let s1 := deviceMoves s
  let ans : Option (Byte × Byte) :=
    if (turnAt s 0).answers then
      some (memRead s1.regs (hiByteAddr reg), memRead s1.regs (loByteAddr reg))
    else none
  (ans, logBus (.read s.params.devAddr reg Config.regBytes ans) s1)

/-- One transaction `Write(P_DEV_ADDR, reg, [b0, b1])`. A failed Write stores nothing (log entry
5). -/
def busWrite (reg : Byte) (b0 b1 : Byte) (s : State) : Bool × State :=
  let s1 := deviceMoves s
  let ok := (turnAt s 0).answers
  let s2 := if ok then { s1 with regs := regWrite s1.regs reg (wordOfBytes b0 b1) } else s1
  (ok, logBus (.write s.params.devAddr reg b0 b1 ok) s2)

/-- One transaction `Probe(P_DEV_ADDR)` (`20_memory.md` R68). -/
def busProbe (s : State) : Bool × State :=
  let s1 := deviceMoves s
  let ans := (turnAt s 0).answers
  (ans, logBus (.probe s.params.devAddr ans) s1)

/-! ### REG operations: `raise` and `return` (`00_scope.md` R17)

An operation takes the state and gives a value or a status, and the state its transactions left:
`raise E` ends the operation there, performs no further transaction, changes no block register and
undoes nothing (`20_memory.md` R72, `60_exceptions.md` R269). There is no other exception and no
return from one (R270). -/

/-- An operation of the REG unit. -/
abbrev RegOp (α : Type) := State → Except Err α × State

/-- `return v`. -/
def opReturn {α : Type} (v : α) : RegOp α := fun s => (.ok v, s)

/-- `raise E`: taking an error, the one operation every error goes through. -/
def opRaise {α : Type} (e : Err) : RegOp α := fun s => (.error e, s)

/-- Do `x`, then `f` with its value; an error of `x` ends the whole (`41_register_codec.md`
R170). -/
def opThen {α β : Type} (x : RegOp α) (f : α → RegOp β) : RegOp β := fun s =>
  match x s with
  | (.ok v, s1) => f v s1
  | (.error e, s1) => (.error e, s1)

/-- An operand check: ConfigError unless it holds (`41_register_codec.md` R150, R151). -/
def opRequire (check : Bool) : RegOp Unit :=
  if check then opReturn () else opRaise .configError

/-- `MemRead(reg, 2)` (`00_scope.md` R17). -/
def opMemRead (reg : Byte) : RegOp Word := fun s =>
  match busRead reg s with
  | (some (b0, b1), s1) => (.ok (wordOfBytes b0 b1), s1)
  | (none, s1) => opRaise .commError s1

/-- `MemWrite(reg, 2, w)` (`00_scope.md` R17). -/
def opMemWrite (reg : Byte) (w : Word) : RegOp Unit := fun s =>
  match busWrite reg (hiByte w) (loByte w) s with
  | (true, s1) => (.ok (), s1)
  | (false, s1) => opRaise .commError s1

/-- `Probe()` (`00_scope.md` R17): a Boolean, never an error (`41_register_codec.md` R168). -/
def opProbe : RegOp Bool := fun s =>
  match busProbe s with
  | (b, s1) => (.ok b, s1)

/-- `RMW(reg, f)` (`20_memory.md` R71). -/
def opRmw (reg : Byte) (f : Word → Word) : RegOp Unit :=
  opThen (opMemRead reg) fun w => opMemWrite reg (f w)

/-- The status of an operation's outcome (`00_scope.md` R18). -/
def statusOf {α : Type} (r : Except Err α) : Status :=
  match r with
  | .ok _ => .ok
  | .error .commError => .commError
  | .error .configError => .configError
  | .error .timeout => .timeout

/-- The status codes (`30_encoding.md` R98). -/
def statusCode (st : Status) : BitVec 2 :=
  match st with
  | .ok => 0
  | .commError => 1
  | .configError => 2
  | .timeout => 3

/-! ### REQ results (`30_encoding.md` R97) -/

/-- The record of an outcome, from its value's `rdata`, `rval` and `rbool`; all 0 on an error. -/
def resultOf {α : Type} (f : α → Long × F64 × Bool) (r : Except Err α) : ReqResult :=
  match r with
  | .ok v => { status := .ok, rdata := (f v).1, rval := (f v).2.1, rbool := (f v).2.2 }
  | .error e =>
    { status := statusOf (.error e : Except Err α), rdata := 0, rval := 0, rbool := false }

/-- The host receives the result record of its request. -/
def respond (r : ReqResult) (s : State) : State := { s with results := s.results ++ [r] }

/-- Run an operation for the REQ port: its result record goes to the host. -/
def runReq {α : Type} (f : α → Long × F64 × Bool) (op : RegOp α) (s : State) : State :=
  match op s with
  | (r, s1) => respond (resultOf f r) s1

/-- An operation without a result value. -/
def asNothing (_ : Unit) : Long × F64 × Bool := (0, 0, false)

/-- A result in `rdata`, zero-extended. -/
def asData {n : Nat} (v : BitVec n) : Long × F64 × Bool := (v.setWidth 32, 0, false)

/-- A result in `rval`. -/
def asReal (v : F64) : Long × F64 × Bool := (0, v, false)

/-- A result in `rbool`. -/
def asBool (v : Bool) : Long × F64 × Bool := (0, 0, v)

/-! ### OUT -/

/-- `Emit(e)` (`00_scope.md` R17, `10_state.md` R39). -/
def emit (e : OutEvent) (s : State) : State := { s with out := s.out ++ [e] }

/-- `Frame(hdr, id, pl)` (`42_command_protocol.md` R226). -/
def frame (hdr id : Byte) (pl : List Byte) : List Byte := [hdr, id] ++ pl ++ [Config.tail]

/-- Emit a command-reply packet. -/
def emitReply (id : Byte) (pl : List Byte) (s : State) : State :=
  emit (.packet (frame Config.hdrReply id pl)) s

/-- `noticeOf(st)` (`42_command_protocol.md` R227). -/
def noticeOf (st : Status) : Notice :=
  match st with
  | .ok => .ok
  | .commError => .comm
  | .configError => .config
  | .timeout => .resetTimeout

/-- The notice codes (`30_encoding.md` R113). -/
def noticeCode (n : Notice) : Nat :=
  match n with
  | .ok => 0
  | .tooFew => 1
  | .timeout => 2
  | .config => 3
  | .comm => 4
  | .resetTimeout => 5

/-- Run a state-changing command: one notice of its status (R227, `30_encoding.md` R113). -/
def runNotice {α : Type} (op : RegOp α) (s : State) : State :=
  match op s with
  | (r, s1) => emit (.notice (noticeOf (statusOf r))) s1

/-- Run a read command: one reply packet, the sentinel of `n` bytes 0xFF on an error
(`30_encoding.md` R112). -/
def runReply {α : Type} (id : Byte) (n : Nat) (payload : α → List Byte) (op : RegOp α)
    (s : State) : State :=
  match op s with
  | (.ok v, s1) => emitReply id (payload v) s1
  | (.error _, s1) => emitReply id (List.replicate n 0xFF) s1

/-- The bytes a serial transport sends for an event: a packet's own, or P_NOTICE_TEXT of a notice
(`30_encoding.md` R113; log entry 14). -/
def serialBytes (e : OutEvent) : List Byte :=
  match e with
  | .packet bytes => bytes
  | .notice n => Config.noticeText n

/-! ### The session -/

/-- The session position (`10_state.md` R37). -/
def State.pos (s : State) : Pos :=
  match s.session.mode, s.session.kind with
  | .idle, _ => .idle
  | .awaiting, .rate => .rate s.session.progress
  | .awaiting, .chset => .chset s.session.progress

/-- `s.mode <- 0`. -/
def toIdle (s : State) : State := { s with session := { s.session with mode := .idle } }

/-- Entry to Awaiting (`42_command_protocol.md` R206, R207): "a fresh deadline sampled from the tick
source and reset progress counter to 1". -/
def enterAwaiting (k : Kind) (s : State) : State :=
  { s with
    session := { s.session with mode := .awaiting, kind := k, progress := 1, deadline := s.tick } }

/-- `wrap_N(t)` of a tick, N = P_TICK_W (`00_scope.md` R15). -/
def wrapTick (p : Params) (t : Tick) : Tick := BitVec.ofNat 64 (t.toNat % 2 ^ p.tickW)

/-- `elapsed(now) = wrap_P_TICK_W(now - s.deadline)` (`42_command_protocol.md` R202). -/
def elapsed (p : Params) (now deadline : Tick) : Nat := (wrapTick p (now - deadline)).toNat

/-- `timedOut(now)` (R202): "exceeds" is strict. -/
def timedOut (s : State) : Bool :=
  decide (s.session.mode = .awaiting)
    && decide (Config.timeoutTicks < elapsed s.params s.tick s.session.deadline)

/-- The TICK port is sampled, once in an iteration (`42_command_protocol.md` R240). The port carries
P_TICK_W bits (`00_scope.md` R8; log entry 7). -/
def sampleTick (now : Tick) (s : State) : State := { s with tick := wrapTick s.params now }

/-! ### What the outside does between steps -/

/-- The host takes the `n` oldest OUT events (`10_state.md` R39; log entry 11). Not a step. -/
def State.consumeOut (n : Nat) (s : State) : State := { s with out := s.out.drop n }

/-- Block reset (`70_reset_and_hazards.md` R290, R291): the session registers take R50's values and
OUT empties; no transaction, nothing emitted; the device and the parameters stay. Not a step (log
entry 17). -/
def State.blockReset (s : State) : State := { s with session := Session.reset, out := [] }

end Sys2Proof.Machine
end

