-- ==== Sys2Proof/Machine/Flags.lean ====
section
/-! DEFINITION. The block has no status flags (`10_state.md` R38). The bits it computes are fields of
the device's configuration registers: the 16-bit field codec of `30_encoding.md` R120 to R125. -/

namespace Sys2Proof.Machine

/-! ### CONF_MEAS (R120) -/

/-- `packConf(w, pos, neg, capdac)`: bits 3:0 kept, bit 4 becomes 0. -/
def packConf (w : Word) (pos neg : BitVec 3) (capdac : BitVec 5) : Word :=
  (w &&& 0x000F) ||| (pos.setWidth 16 <<< 13) ||| (neg.setWidth 16 <<< 10)
    ||| (capdac.setWidth 16 <<< 5)

/-- `pos(w) = w[15:13]`. -/
def confPos (w : Word) : BitVec 3 := w.extractLsb' 13 3

/-- `neg(w) = w[12:10]`. -/
def confNeg (w : Word) : BitVec 3 := w.extractLsb' 10 3

/-- `capdac(w) = w[9:5]`. -/
def confCapdac (w : Word) : BitVec 5 := w.extractLsb' 5 5

/-! ### FDC_CONF -/

/-- `initMask(ch) = 1 << (7 - ch)` for ch = 0..3 (R121). -/
def initMask (ch : Byte) : Word := 1 <<< (7 - ch.toNat)

/-- `setInit(w, ch)` (R121). -/
def setInit (w : Word) (ch : Byte) : Word := w ||| initMask ch

/-- `clrInit(w, ch)` (R121). -/
def clrInit (w : Word) (ch : Byte) : Word := w &&& ~~~(initMask ch)

/-- `clrAllInit(w)` (R121). -/
def clrAllInit (w : Word) : Word := w &&& 0xFF0F

/-- `done(w, ch) = w[3 - ch]` for ch = 0..3 (R122, `90_conflicts.md` C4). -/
def done (w : Word) (ch : Byte) : Bool := w.getLsbD (3 - ch.toNat)

/-- `doneMask(w) = w[3:0]` (R122). -/
def doneMask (w : Word) : BitVec 4 := w.extractLsb' 0 4

/-- `setRate(w, r)` (R123). -/
def setRateField (w : Word) (r : BitVec 2) : Word := (w &&& 0xF3FF) ||| (r.setWidth 16 <<< 10)

/-- `rate(w) = w[11:10]` (R123). -/
def rateField (w : Word) : BitVec 2 := w.extractLsb' 10 2

/-- `setRepeat(w)` (R124). -/
def setRepeat (w : Word) : Word := w ||| 0x0100

/-- `clrRepeat(w)` (R124). -/
def clrRepeat (w : Word) : Word := w &&& 0xFEFF

/-- `setRst(w)` (R124). -/
def setRst (w : Word) : Word := w ||| 0x8000

/-- `rst(w) = w[15]` (R124). -/
def rstBit (w : Word) : Bool := w.getLsbD 15

/-- One channel's part of `maskToInit` (R125). -/
def maskBit (m : Byte) (i : Byte) : Word := if m.getLsbD i.toNat then initMask i else 0

/-- `maskToInit(m)`: bit i of the mask becomes FDC_CONF bit 7 - i (R125). -/
def maskToInit (m : Byte) : Word := maskBit m 0 ||| maskBit m 1 ||| maskBit m 2 ||| maskBit m 3

end Sys2Proof.Machine
end

