-- ==== Sys2Proof/Machine/Float.lean ====
section
/-! DEFINITION. The binary64 operations of `00_scope.md` R16, on bits: finiteness, comparison, the
exact value of a finite `f64`, truncation of a scaled value, and `toF64` of an exactly representable
rational. A finite value is held as an integer times a power of two (log entry 15). -/

namespace Sys2Proof.Machine

/-- The sign bit of a binary64. -/
def f64Neg (x : F64) : Bool := x.getLsbD 63

/-- The biased exponent field, bits 62:52. -/
def f64Exp (x : F64) : Nat := (x.extractLsb' 52 11).toNat

/-- The fraction field, bits 51:0. -/
def f64Frac (x : F64) : Nat := (x.extractLsb' 0 52).toNat

/-- `isFinite(x)`: false for NaN and the infinities (R16). -/
def f64IsFinite (x : F64) : Bool := f64Exp x != 2047

/-- Whether `x` is a NaN. -/
def f64IsNaN (x : F64) : Bool := f64Exp x == 2047 && f64Frac x != 0

/-- The integer significand of a finite `x`, with its sign. -/
def f64Sig (x : F64) : Int :=
  let m : Nat := if f64Exp x = 0 then f64Frac x else 2 ^ 52 + f64Frac x
  if f64Neg x then -(m : Int) else m

/-- The power of two that scales the significand of a finite `x`. -/
def f64Scale (x : F64) : Int := if f64Exp x = 0 then -1074 else (f64Exp x : Int) - 1075

/-- `real(x)`, the exact rational value of a finite `x` (R16). -/
def f64Real (x : F64) : ℚ := (f64Sig x : ℚ) * 2 ^ f64Scale x

/-- An order-preserving integer key of a binary64 that is no NaN: -0.0 and +0.0 have the same key,
and the infinities lie outside every finite value. -/
def f64Key (x : F64) : Int :=
  let m : Int := (x.extractLsb' 0 63).toNat
  if f64Neg x then -m else m

/-- IEEE `x <= y`: false with a NaN, -0.0 equal to +0.0 (R16). -/
def f64Le (x y : F64) : Bool := !f64IsNaN x && !f64IsNaN y && decide (f64Key x ≤ f64Key y)

/-- IEEE `x < y` (R16). -/
def f64Lt (x y : F64) : Bool := !f64IsNaN x && !f64IsNaN y && decide (f64Key x < f64Key y)

/-- `trunc(real(x) * 2^fb)` of a finite `x` (R16): exact, then toward zero. -/
def f64TruncScaled (x : F64) (fb : Nat) : Int :=
  let k := f64Scale x + fb
  if 0 ≤ k then f64Sig x * 2 ^ k.toNat else (f64Sig x).tdiv (2 ^ (-k).toNat)

/-- `toF64(m * 2^e)` (R16) for a value that is 0 or exactly a normal binary64, the only values the
rules apply it to: at most 53 significant bits and an exponent in range. Zero gives +0.0. -/
def f64OfScaled (m e : Int) : F64 :=
  if m = 0 then 0
  else
    let n := m.natAbs
    let l := Nat.log2 n
    let frac := if l ≤ 52 then n <<< (52 - l) else n >>> (l - 52)
    let sign : Nat := if m < 0 then 1 else 0
    BitVec.ofNat 64 (sign <<< 63 + (l + e + 1023).toNat <<< 52 + frac % 2 ^ 52)

/-- The binary64 constants the domain checks compare with: -16.0, 16.0, 0.0 and 4.0. -/
def f64Neg16 : F64 := 0xC030000000000000
/-- 16.0 -/
def f64Pos16 : F64 := 0x4030000000000000
/-- +0.0 -/
def f64Zero : F64 := 0x0000000000000000
/-- 4.0 -/
def f64Pos4 : F64 := 0x4010000000000000

end Sys2Proof.Machine
end

