-- ==== Sys2Proof/Machine/Fxp.lean ====
section
/-! DEFINITION. The FXP unit (`40_fixed_point.md`): its four transforms, the 24-bit measurement
decode, and the meanings of its four REQ operations. -/

namespace Sys2Proof.Machine

/-- `FXP_DEC_S`: `sint(raw) / 2^fb`, exact (R131). -/
def fxpDecS (raw : Word) (fb : Byte) : F64 := f64OfScaled raw.toInt (-(fb.toNat : Int))

/-- `FXP_ENC_S`: toward zero, wrapped to 16 bits; 0 for NaN and the infinities (R132). -/
def fxpEncS (val : F64) (fb : Byte) : Word :=
  let q : Int := if f64IsFinite val then f64TruncScaled val fb.toNat else 0
  BitVec.ofInt 16 q

/-- `FXP_DEC_U`: `uint(raw) / 2^fb`, exact (R133). -/
def fxpDecU (raw : Word) (fb : Byte) : F64 := f64OfScaled (raw.toNat : Int) (-(fb.toNat : Int))

/-- `FXP_ENC_U`: toward zero, wrapped to 16 bits; 0 for NaN and the infinities (R134). -/
def fxpEncU (val : F64) (fb : Byte) : Word :=
  let q : Int := if f64IsFinite val then f64TruncScaled val fb.toNat else 0
  BitVec.ofInt 16 q

/-- `m[31:8]` of a raw measurement word, two's complement. -/
def meas24 (m : Long) : Int := (m.extractLsb' 8 24).toInt

/-- `dec24(m)`: `sint(m[31:8]) / 2^19` pF, exact (R137). -/
def dec24 (m : Long) : F64 := f64OfScaled (meas24 m) (-(Config.fbMeas : Int))

/-- `cap(m, capdac)`: `dec24(m) + capdac * 25/8` pF, exact (R138). `25/8` is `25 * 2^16 / 2^19`. -/
def cap (m : Long) (capdac : BitVec 5) : F64 :=
  f64OfScaled (meas24 m + capdac.toNat * (25 * 2 ^ 16)) (-(Config.fbMeas : Int))

/-! ### REQ operations: status OK, nothing touched but the result (R130) -/

/-- FXP_DEC_S (R131). -/
def execFxpDecS (raw : Word) (a : Byte) (s : State) : Host.Outcome State Fault Refusal :=
  .next (runReq asReal (opReturn (fxpDecS raw a)) s)

/-- FXP_ENC_S (R132). -/
def execFxpEncS (val : F64) (a : Byte) (s : State) : Host.Outcome State Fault Refusal :=
  .next (runReq asData (opReturn (fxpEncS val a)) s)

/-- FXP_DEC_U (R133). -/
def execFxpDecU (raw : Word) (a : Byte) (s : State) : Host.Outcome State Fault Refusal :=
  .next (runReq asReal (opReturn (fxpDecU raw a)) s)

/-- FXP_ENC_U (R134). -/
def execFxpEncU (val : F64) (a : Byte) (s : State) : Host.Outcome State Fault Refusal :=
  .next (runReq asData (opReturn (fxpEncU val a)) s)

end Sys2Proof.Machine
end

