-- ==== Sys2Proof/Machine/Operands.lean ====
section
/-! DEFINITION. Every operand form: the channel and the register it selects (`20_memory.md` R62), the
MeasurementInput and SampleRate codes (`30_encoding.md` R114, R115), the rate digit (R105) and the
channel-settings payload fields (R107 to R109). -/

namespace Sys2Proof.Machine

/-- `ch <= 3` (`41_register_codec.md` R150). -/
def channelOk (ch : Byte) : Bool := decide (ch ≤ 3)

/-- The channel check every channel operation makes first (R150). -/
def opCheckChannel (ch : Byte) : RegOp Unit := opRequire (channelOk ch)

/-! ### Register addresses (`20_memory.md` R62) -/

/-- MEAS_MSB(ch). -/
def regMeasMsb (ch : Byte) : Byte := 0x00 + 2 * ch

/-- MEAS_LSB(ch). -/
def regMeasLsb (ch : Byte) : Byte := 0x01 + 2 * ch

/-- CONF_MEAS(ch). -/
def regConfMeas (ch : Byte) : Byte := 0x08 + ch

/-- FDC_CONF. -/
def regFdcConf : Byte := 0x0C

/-- OFFSET_CAL(ch). -/
def regOffsetCal (ch : Byte) : Byte := 0x0D + ch

/-- GAIN_CAL(ch). -/
def regGainCal (ch : Byte) : Byte := 0x11 + ch

/-- MFR_ID for 0, DEV_ID for 1 (`41_register_codec.md` R169). -/
def regId (sel : Byte) : Byte := 0xFE + sel

/-! ### Codes -/

/-- A MeasurementInput code: IN1..IN4, CAPDAC, DISABLED (`30_encoding.md` R114). -/
def isInput (x : Byte) : Bool := x == 0 || x == 1 || x == 2 || x == 3 || x == 4 || x == 7

/-- An input pin IN1..IN4, the only positive inputs (`41_register_codec.md` R156). -/
def isPin (x : Byte) : Bool := x == 0 || x == 1 || x == 2 || x == 3

/-- A SampleRate ordinal that may be set (`41_register_codec.md` R161). -/
def isRate (r : Byte) : Bool := r == 1 || r == 2 || r == 3

/-- `digit(d)` (`30_encoding.md` R105). -/
def digit (d : Byte) : Byte := if 0x30 ≤ d ∧ d ≤ 0x39 then d - 0x30 else 0

/-! ### Channel-settings payload fields -/

/-- `P0[7:6]` (R107). -/
def payloadChannel (p0 : Byte) : BitVec 2 := p0.extractLsb' 6 2

/-- `P0[4:0]` (R107). -/
def payloadCapdac (p0 : Byte) : BitVec 5 := p0.extractLsb' 0 5

/-- `P1[7:4]` (R108). -/
def payloadPos (p1 : Byte) : BitVec 4 := p1.extractLsb' 4 4

/-- `P1[3:0]` (R108). -/
def payloadNeg (p1 : Byte) : BitVec 4 := p1.extractLsb' 0 4

/-- `{ch[1:0], 0b0, capdac[4:0]}` (R111). -/
def packChannelCapdac (ch : BitVec 2) (capdac : BitVec 5) : Byte := ch ++ (0#1 ++ capdac)

/-- `{zext_4(pos), zext_4(neg)}` (R111). -/
def packInputs (pos neg : BitVec 3) : Byte := pos.setWidth 4 ++ neg.setWidth 4

end Sys2Proof.Machine
end

