-- ==== Sys2Proof/Machine/Reg.lean ====
section
/-! DEFINITION. The REG unit (`41_register_codec.md`): each operation as its sequence of checks and
BUS transactions, then the meanings of the REQ operations. -/

namespace Sys2Proof.Machine

/-! ### The operations -/

/-- RD_OFFSET (R152). -/
def opRdOffset (ch : Byte) : RegOp F64 :=
  opThen (opCheckChannel ch) fun _ =>
  opThen (opMemRead (regOffsetCal ch)) fun w =>
  opReturn (fxpDecS w Config.fbOffset)

/-- `-16.0 <= val and val < 16.0`, IEEE (R153). -/
def offsetInDomain (val : F64) : Bool := f64Le f64Neg16 val && f64Lt val f64Pos16

/-- WR_OFFSET (R153). -/
def opWrOffset (ch : Byte) (val : F64) : RegOp Unit :=
  opThen (opCheckChannel ch) fun _ =>
  opThen (opRequire (offsetInDomain val)) fun _ =>
  opMemWrite (regOffsetCal ch) (fxpEncS val Config.fbOffset)

/-- RD_GAIN (R154). -/
def opRdGain (ch : Byte) : RegOp F64 :=
  opThen (opCheckChannel ch) fun _ =>
  opThen (opMemRead (regGainCal ch)) fun w =>
  opReturn (fxpDecU w Config.fbGain)

/-- `0.0 <= val and val < 4.0`, IEEE (R155). -/
def gainInDomain (val : F64) : Bool := f64Le f64Zero val && f64Lt val f64Pos4

/-- WR_GAIN (R155). -/
def opWrGain (ch : Byte) (val : F64) : RegOp Unit :=
  opThen (opCheckChannel ch) fun _ =>
  opThen (opRequire (gainInDomain val)) fun _ =>
  opMemWrite (regGainCal ch) (fxpEncU val Config.fbGain)

/-- CFG_INPUT (R156). -/
def opCfgInput (ch pos neg capdac : Byte) : RegOp Unit :=
  opThen (opCheckChannel ch) fun _ =>
  opThen (opRequire (isPin pos)) fun _ =>
  opThen (opRequire (isInput neg)) fun _ =>
  opThen (opRequire (!decide (neg ≤ pos))) fun _ =>
  opThen (opRequire (!decide (capdac > Config.capdacMax))) fun _ =>
  opRmw (regConfMeas ch) fun w =>
    packConf w (pos.setWidth 3) (neg.setWidth 3) (capdac.setWidth 5)

/-- START_MEAS (R157). -/
def opStartMeas (ch : Byte) : RegOp Unit :=
  opThen (opCheckChannel ch) fun _ =>
  opRmw regFdcConf fun w => setInit w ch

/-- STOP_MEAS (R158). -/
def opStopMeas (ch : Byte) : RegOp Unit :=
  opThen (opCheckChannel ch) fun _ =>
  opRmw regFdcConf fun w => clrInit w ch

/-- IS_DONE (R159). -/
def opIsDone (ch : Byte) : RegOp Bool :=
  opThen (opCheckChannel ch) fun _ =>
  opThen (opMemRead regFdcConf) fun w =>
  opReturn (done w ch)

/-- NEW_DATA (R160). -/
def opNewData : RegOp (BitVec 4) :=
  opThen (opMemRead regFdcConf) fun w =>
  opReturn (doneMask w)

/-- SET_RATE (R161). -/
def opSetRate (r : Byte) : RegOp Unit :=
  opThen (opRequire (isRate r)) fun _ =>
  opRmw regFdcConf fun w => setRateField w (r.setWidth 2)

/-- RD_RATE (R162). -/
def opRdRate : RegOp (BitVec 2) :=
  opThen (opMemRead regFdcConf) fun w =>
  opReturn (rateField w)

/-- EN_REPEAT (R163). -/
def opEnRepeat (m : Byte) : RegOp Unit :=
  opThen (opRequire (!decide (m > 0x0F))) fun _ =>
  opThen (opMemRead regFdcConf) fun w =>
  opThen (opMemWrite regFdcConf (clrAllInit w)) fun _ =>
  opMemWrite regFdcConf (setRepeat (clrAllInit w) ||| maskToInit m)

/-- DIS_REPEAT (R164). -/
def opDisRepeat : RegOp Unit := opRmw regFdcConf clrRepeat

/-- RD_RAW (R165): `{hi, lo} & 0xFFFFFF00`. -/
def opRdRaw (ch : Byte) : RegOp Long :=
  opThen (opCheckChannel ch) fun _ =>
  opThen (opMemRead (regMeasMsb ch)) fun hi =>
  opThen (opMemRead (regMeasLsb ch)) fun lo =>
  opReturn ((hi ++ lo) &&& 0xFFFFFF00)

/-- RD_MEAS (R166). -/
def opRdMeas (ch : Byte) : RegOp F64 :=
  opThen (opCheckChannel ch) fun _ =>
  opThen (opRdRaw ch) fun m =>
  opThen (opMemRead (regConfMeas ch)) fun w =>
  opReturn (cap m (confCapdac w))

/-- RESET's poll: at most `n` reads of FDC_CONF, then Timeout (R167). -/
def opPollReset : Nat → RegOp Unit
  | 0 => opRaise .timeout
  | n + 1 =>
    opThen (opMemRead regFdcConf) fun w =>
    if rstBit w then opPollReset n else opReturn ()

/-- RESET (R167). -/
def opReset : RegOp Unit :=
  opThen (opRmw regFdcConf setRst) fun _ =>
  fun s => opPollReset s.params.resetPollLimit s

/-- PRESENT (R168). -/
def opPresent : RegOp Bool := opProbe

/-- RD_ID (R169). -/
def opRdId (sel : Byte) : RegOp Word :=
  opThen (opRequire (!decide (sel > 1))) fun _ =>
  opMemRead (regId sel)

/-- A reserved op value (`30_encoding.md` R94). -/
def opReserved : RegOp Unit := opRaise .configError

/-- `ChsetPayload(ch)`'s reads (`42_command_protocol.md` R225): CONF_MEAS, OFFSET_CAL, GAIN_CAL in
that order, a failed read ending the helper. -/
def opChsetFields (ch : Byte) : RegOp (Word × Word × Word) :=
  opThen (opMemRead (regConfMeas ch)) fun w =>
  opThen (opMemRead (regOffsetCal ch)) fun off =>
  opThen (opMemRead (regGainCal ch)) fun g =>
  opReturn (w, off, g)

/-- One channel of `DataPayload()` (R231): RD_RAW, then CONF_MEAS. -/
def opDataFields (ch : Byte) : RegOp (Long × Word) :=
  opThen (opRdRaw ch) fun m =>
  opThen (opMemRead (regConfMeas ch)) fun w =>
  opReturn (m, w)

/-! ### REQ operations (`30_encoding.md` R92, R97) -/

/-- RD_OFFSET (R152). -/
def execRdOffset (ch : Byte) (s : State) : Host.Outcome State Fault Refusal :=
  .next (runReq asReal (opRdOffset ch) s)

/-- WR_OFFSET (R153). -/
def execWrOffset (ch : Byte) (val : F64) (s : State) : Host.Outcome State Fault Refusal :=
  .next (runReq asNothing (opWrOffset ch val) s)

/-- RD_GAIN (R154). -/
def execRdGain (ch : Byte) (s : State) : Host.Outcome State Fault Refusal :=
  .next (runReq asReal (opRdGain ch) s)

/-- WR_GAIN (R155). -/
def execWrGain (ch : Byte) (val : F64) (s : State) : Host.Outcome State Fault Refusal :=
  .next (runReq asNothing (opWrGain ch val) s)

/-- CFG_INPUT (R156): `pos = a`, `neg = b`, `capdac = c`. -/
def execCfgInput (ch a b c : Byte) (s : State) : Host.Outcome State Fault Refusal :=
  .next (runReq asNothing (opCfgInput ch a b c) s)

/-- START_MEAS (R157). -/
def execStartMeas (ch : Byte) (s : State) : Host.Outcome State Fault Refusal :=
  .next (runReq asNothing (opStartMeas ch) s)

/-- STOP_MEAS (R158). -/
def execStopMeas (ch : Byte) (s : State) : Host.Outcome State Fault Refusal :=
  .next (runReq asNothing (opStopMeas ch) s)

/-- IS_DONE (R159). -/
def execIsDone (ch : Byte) (s : State) : Host.Outcome State Fault Refusal :=
  .next (runReq asBool (opIsDone ch) s)

/-- NEW_DATA (R160). -/
def execNewData (s : State) : Host.Outcome State Fault Refusal :=
  .next (runReq asData opNewData s)

/-- SET_RATE (R161). -/
def execSetRate (a : Byte) (s : State) : Host.Outcome State Fault Refusal :=
  .next (runReq asNothing (opSetRate a) s)

/-- RD_RATE (R162). -/
def execRdRate (s : State) : Host.Outcome State Fault Refusal :=
  .next (runReq asData opRdRate s)

/-- EN_REPEAT (R163). -/
def execEnRepeat (a : Byte) (s : State) : Host.Outcome State Fault Refusal :=
  .next (runReq asNothing (opEnRepeat a) s)

/-- DIS_REPEAT (R164). -/
def execDisRepeat (s : State) : Host.Outcome State Fault Refusal :=
  .next (runReq asNothing opDisRepeat s)

/-- RD_RAW (R165). -/
def execRdRaw (ch : Byte) (s : State) : Host.Outcome State Fault Refusal :=
  .next (runReq asData (opRdRaw ch) s)

/-- RD_MEAS (R166). -/
def execRdMeas (ch : Byte) (s : State) : Host.Outcome State Fault Refusal :=
  .next (runReq asReal (opRdMeas ch) s)

/-- RESET (R167). -/
def execReset (s : State) : Host.Outcome State Fault Refusal :=
  .next (runReq asNothing opReset s)

/-- PRESENT (R168). -/
def execPresent (s : State) : Host.Outcome State Fault Refusal :=
  .next (runReq asBool opPresent s)

/-- RD_ID (R169). -/
def execRdId (a : Byte) (s : State) : Host.Outcome State Fault Refusal :=
  .next (runReq asData (opRdId a) s)

/-- Reserved ops 0x16 and 0x17 (`30_encoding.md` R94): ConfigError, no effect. -/
def execReservedLow (_lo : BitVec 1) (s : State) : Host.Outcome State Fault Refusal :=
  .next (runReq asNothing opReserved s)

/-- Reserved ops 0x18..0x1F (`30_encoding.md` R94): ConfigError, no effect. -/
def execReservedHigh (_lo : BitVec 3) (s : State) : Host.Outcome State Fault Refusal :=
  .next (runReq asNothing opReserved s)

end Sys2Proof.Machine
end

