-- ==== Sys2Proof/Machine/Cmd.lean ====
section
/-! DEFINITION. The CMD unit's immediate commands (`42_command_protocol.md` R206, R207, R212 to
R224). -/

namespace Sys2Proof.Machine

/-- `[w[15:8], w[7:0]]`. -/
def wordBytes (w : Word) : List Byte := [hiByte w, loByte w]

/-- The 6-byte channel-settings payload from the three register words (R225, `30_encoding.md`
R111). -/
def chsetBytes (ch : BitVec 2) (f : Word × Word × Word) : List Byte :=
  [packChannelCapdac ch (confCapdac f.1), packInputs (confPos f.1) (confNeg f.1)]
    ++ wordBytes f.2.1 ++ wordBytes f.2.2

/-- Read-channel-settings for channel `ch` (R225): the packet of `ChsetPayload(ch)`. -/
def readChannelSettings (ch : BitVec 2) (s : State) : State :=
  runReply s.params.pktChset 6 (chsetBytes ch) (opChsetFields (ch.setWidth 8)) s

/-- CMD_ENTER_RATE (R206). -/
def execCmdEnterRate (s : State) : Host.Outcome State Fault Refusal :=
  .next (enterAwaiting .rate s)

/-- CMD_ENTER_CHSET (R207). -/
def execCmdEnterChset (s : State) : Host.Outcome State Fault Refusal :=
  .next (enterAwaiting .chset s)

/-- CMD_RESET (R212). -/
def execCmdReset (s : State) : Host.Outcome State Fault Refusal :=
  .next (runNotice opReset s)

/-- CMD_MFR_ID (R213). -/
def execCmdMfrId (s : State) : Host.Outcome State Fault Refusal :=
  .next (runReply s.params.pktMfrId 2 wordBytes (opRdId 0) s)

/-- CMD_DEV_ID (R214). -/
def execCmdDevId (s : State) : Host.Outcome State Fault Refusal :=
  .next (runReply s.params.pktDevId 2 wordBytes (opRdId 1) s)

/-- CMD_RD_RATE (R215). -/
def execCmdRdRate (s : State) : Host.Outcome State Fault Refusal :=
  .next (runReply s.params.pktRate 1 (fun r => [r.setWidth 8]) opRdRate s)

/-- CMD_SENSOR (R216): PRESENT never fails, so its one-byte sentinel is never sent. -/
def execCmdSensor (s : State) : Host.Outcome State Fault Refusal :=
  .next (runReply s.params.pktSensor 1 (fun p => [if p then 0x01 else 0x00]) opPresent s)

/-- CMD_RD_CH0 (R217). -/
def execCmdRdCh0 (s : State) : Host.Outcome State Fault Refusal :=
  .next (readChannelSettings 0 s)

/-- CMD_RD_CH1 (R218). -/
def execCmdRdCh1 (s : State) : Host.Outcome State Fault Refusal :=
  .next (readChannelSettings 1 s)

/-- CMD_RD_CH2 (R219). -/
def execCmdRdCh2 (s : State) : Host.Outcome State Fault Refusal :=
  .next (readChannelSettings 2 s)

/-- CMD_RD_CH3 (R220). -/
def execCmdRdCh3 (s : State) : Host.Outcome State Fault Refusal :=
  .next (readChannelSettings 3 s)

/-- CMD_START0 (R221). -/
def execCmdStart0 (s : State) : Host.Outcome State Fault Refusal :=
  .next (runNotice (opStartMeas 0) s)

/-- CMD_START1 (R222). -/
def execCmdStart1 (s : State) : Host.Outcome State Fault Refusal :=
  .next (runNotice (opStartMeas 1) s)

/-- CMD_START2 (R223). -/
def execCmdStart2 (s : State) : Host.Outcome State Fault Refusal :=
  .next (runNotice (opStartMeas 2) s)

/-- CMD_START3 (R224). -/
def execCmdStart3 (s : State) : Host.Outcome State Fault Refusal :=
  .next (runNotice (opStartMeas 3) s)

end Sys2Proof.Machine
end

