-- ==== Sys2Proof/Machine/Seq.lean ====
section
/-! DEFINITION. The CMD unit's two multi-byte commands, byte by byte (`42_command_protocol.md` R208
to R211). -/

namespace Sys2Proof.Machine

/-- `s.scratch[k] <- b`; `k` is 0..5. -/
def setScratch (k : Nat) (b : Byte) (s : State) : State :=
  { s with session := { s.session with scratch := s.session.scratch.setIfInBounds k b } }

/-- `s.progress <- k`. -/
def setProgress (k : BitVec 3) (s : State) : State :=
  { s with session := { s.session with progress := k } }

/-- SEQ_RATE_DIGIT (R208). -/
def execSeqRateDigit (b : Byte) (s : State) : Host.Outcome State Fault Refusal :=
  .next (setProgress 2 (setScratch 0 (digit b) s))

/-- The end of a multi-byte command (R209, R211): back to Idle; a byte other than the latch gives
the "too few chars" notice and nothing else, the latch runs the command and gives its notice. -/
def latchStep (b : Byte) (op : RegOp Unit) (s : State) : State :=
  if b = s.params.latch then runNotice op (toIdle s)
  else emit (.notice .tooFew) (toIdle s)

/-- SEQ_RATE_LATCH (R209). -/
def execSeqRateLatch (b : Byte) (s : State) : Host.Outcome State Fault Refusal :=
  .next (latchStep b (opSetRate s.session.scratch[0]) s)

/-- SEQ_CHSET_PAYLOAD (R210), "with `1 <= s.progress <= 6`": stuck at any other progress, which no
run reaches (log entry 10). -/
def execSeqChsetPayload (b : Byte) (s : State) : Host.Outcome State Fault Refusal :=
  if 1 ≤ s.session.progress.toNat ∧ s.session.progress.toNat ≤ 6 then
    .next (setProgress (s.session.progress + 1) (setScratch (s.session.progress.toNat - 1) b s))
  else .fault .sessionPosition

/-- What the channel-settings latch runs (R211): CFG_INPUT, then WR_OFFSET, then WR_GAIN, the first
failure skipping the rest. -/
def opChset (p : Vector Byte 6) : RegOp Unit :=
  let ch : Byte := (payloadChannel p[0]).setWidth 8
  opThen (opCfgInput ch ((payloadPos p[1]).setWidth 8) ((payloadNeg p[1]).setWidth 8)
    ((payloadCapdac p[0]).setWidth 8)) fun _ =>
  opThen (opWrOffset ch (fxpDecS (wordOfBytes p[2] p[3]) Config.fbOffset)) fun _ =>
  opWrGain ch (fxpDecU (wordOfBytes p[4] p[5]) Config.fbGain)

/-- SEQ_CHSET_LATCH (R211). -/
def execSeqChsetLatch (b : Byte) (s : State) : Host.Outcome State Fault Refusal :=
  .next (latchStep b (opChset s.session.scratch) s)

end Sys2Proof.Machine
end

