-- ==== Sys2Proof/Machine/Dispatch.lean ====
section
/-! DEFINITION. `exec`: one arm per constructor of `Instr`, each one call of that instruction's own
meaning. -/

namespace Sys2Proof.Machine

def exec (i : Instr) (s : State) : Host.Outcome State Fault Refusal :=
  match i with
  -- FXP unit
  | .fxpDecS raw a => Sys2Proof.Machine.execFxpDecS raw a s
  | .fxpEncS val a => Sys2Proof.Machine.execFxpEncS val a s
  | .fxpDecU raw a => Sys2Proof.Machine.execFxpDecU raw a s
  | .fxpEncU val a => Sys2Proof.Machine.execFxpEncU val a s
  -- REG unit
  | .rdOffset ch => Sys2Proof.Machine.execRdOffset ch s
  | .wrOffset ch val => Sys2Proof.Machine.execWrOffset ch val s
  | .rdGain ch => Sys2Proof.Machine.execRdGain ch s
  | .wrGain ch val => Sys2Proof.Machine.execWrGain ch val s
  | .cfgInput ch a b c => Sys2Proof.Machine.execCfgInput ch a b c s
  | .startMeas ch => Sys2Proof.Machine.execStartMeas ch s
  | .stopMeas ch => Sys2Proof.Machine.execStopMeas ch s
  | .isDone ch => Sys2Proof.Machine.execIsDone ch s
  | .newData => Sys2Proof.Machine.execNewData s
  | .setRate a => Sys2Proof.Machine.execSetRate a s
  | .rdRate => Sys2Proof.Machine.execRdRate s
  | .enRepeat a => Sys2Proof.Machine.execEnRepeat a s
  | .disRepeat => Sys2Proof.Machine.execDisRepeat s
  | .rdRaw ch => Sys2Proof.Machine.execRdRaw ch s
  | .rdMeas ch => Sys2Proof.Machine.execRdMeas ch s
  | .reset => Sys2Proof.Machine.execReset s
  | .present => Sys2Proof.Machine.execPresent s
  | .rdId a => Sys2Proof.Machine.execRdId a s
  | .reservedLow lo => Sys2Proof.Machine.execReservedLow lo s
  | .reservedHigh lo => Sys2Proof.Machine.execReservedHigh lo s
  -- CMD unit, immediate commands
  | .cmdEnterRate => Sys2Proof.Machine.execCmdEnterRate s
  | .cmdEnterChset => Sys2Proof.Machine.execCmdEnterChset s
  | .cmdReset => Sys2Proof.Machine.execCmdReset s
  | .cmdMfrId => Sys2Proof.Machine.execCmdMfrId s
  | .cmdDevId => Sys2Proof.Machine.execCmdDevId s
  | .cmdRdRate => Sys2Proof.Machine.execCmdRdRate s
  | .cmdSensor => Sys2Proof.Machine.execCmdSensor s
  | .cmdRdCh0 => Sys2Proof.Machine.execCmdRdCh0 s
  | .cmdRdCh1 => Sys2Proof.Machine.execCmdRdCh1 s
  | .cmdRdCh2 => Sys2Proof.Machine.execCmdRdCh2 s
  | .cmdRdCh3 => Sys2Proof.Machine.execCmdRdCh3 s
  | .cmdStart0 => Sys2Proof.Machine.execCmdStart0 s
  | .cmdStart1 => Sys2Proof.Machine.execCmdStart1 s
  | .cmdStart2 => Sys2Proof.Machine.execCmdStart2 s
  | .cmdStart3 => Sys2Proof.Machine.execCmdStart3 s
  -- CMD unit, sequence bytes
  | .seqRateDigit b => Sys2Proof.Machine.execSeqRateDigit b s
  | .seqRateLatch b => Sys2Proof.Machine.execSeqRateLatch b s
  | .seqChsetPayload b => Sys2Proof.Machine.execSeqChsetPayload b s
  | .seqChsetLatch b => Sys2Proof.Machine.execSeqChsetLatch b s

end Sys2Proof.Machine
end

