-- ==== Sys2Proof/Machine/Loop.lean ====
section
/-! DEFINITION. What a step adds around an instruction: the byte handling of
`42_command_protocol.md` R203, the timeout check (R235), the data check (R230, R231), the iteration
(R240) and the REQ port (`00_scope.md` R9); and how one instruction's word is offered to the next
step. -/

namespace Sys2Proof.Machine

/-- Abort on timeout: the one notice N_TIMEOUT, back to Idle (R204, R235). -/
def timeoutAbort (s : State) : State := toIdle (emit (.notice .timeout) s)

/-- The byte an iteration received, read at the session position: the decoded instruction runs; a
byte in Idle that names no command has no effect (`30_encoding.md` R103). -/
def runByte (b : Byte) (s : State) : Host.Outcome State Fault Refusal :=
  match decode s.params s.pos (.rx b) with
  | .ok i => exec i s
  | .error (.unknownCommand _) => .next s
  | .error (.noSuchPosition _) => .fault .sessionPosition

/-- `ParseByte(b, now)` (R203): a byte that finds a timeout is discarded (R204). -/
def parseByte (b : Byte) (s : State) : Host.Outcome State Fault Refusal :=
  if timedOut s then .next (timeoutAbort s) else runByte b s

/-- `TimeoutCheck(now)` (R235). -/
def timeoutCheck (s : State) : State := if timedOut s then timeoutAbort s else s

/-- One channel's four bytes of the data payload (R231): the 24 significant bits, most significant
first, and the CAPDAC field; the sentinel if a read failed. -/
def dataChannel (ch : Byte) (s : State) : List Byte × State :=
  match opDataFields ch s with
  | (.ok (m, w), s1) =>
    ([m.extractLsb' 24 8, m.extractLsb' 16 8, m.extractLsb' 8 8, (confCapdac w).setWidth 8], s1)
  | (.error _, s1) => ([0xFF, 0xFF, 0xFF, 0xFF], s1)

/-- `DataPayload()` over the channels listed, in order (R231). -/
def dataPayload : List Byte → State → List Byte × State
  | [], s => ([], s)
  | ch :: chs, s =>
    let (pl, s1) := dataChannel ch s
    let (rest, s2) := dataPayload chs s1
    (pl ++ rest, s2)

/-- `DataCheck()` (R230). -/
def dataCheck (s : State) : State :=
  match opNewData s with
  | (.ok mask, s1) =>
    if mask = 0b1111 then
      let (pl, s2) := dataPayload [0, 1, 2, 3] s1
      emit (.packet (frame Config.hdrData s.params.pktData pl)) s2
    else s1
  | (.error _, s1) => s1

/-- What an iteration does after the byte: the timeout check, then the data check (R240). -/
def afterByte (o : Host.Outcome State Fault Refusal) : Host.Outcome State Fault Refusal :=
  match o with
  | .next s => .next (dataCheck (timeoutCheck s))
  | .fault f => .fault f
  | .refused r => .refused r

/-- `ITERATE(rx, now)` (R240): byte, then timeout check, then data check; `now` sampled once. -/
def iterate (rx : Option Byte) (now : Tick) (s : State) : Host.Outcome State Fault Refusal :=
  match rx with
  | some b => afterByte (parseByte b (sampleTick now s))
  | none => afterByte (.next (sampleTick now s))

/-- `REQUEST(req)` (`00_scope.md` R9). -/
def request (r : ReqRecord) (s : State) : Host.Outcome State Fault Refusal := exec (decodeReq r) s

/-- One offered step. -/
def runInput (i : StepInput) (s : State) : Host.Outcome State Fault Refusal :=
  match i with
  | .iterate rx now => iterate rx now s
  | .request r => request r s

/-- One step: ill-formed parameters are refused (`30_encoding.md` R102); with nothing offered the
block waits (`70_reset_and_hazards.md` R292; log entry 1); else the oldest offered step is taken
and run (`00_scope.md` R9). -/
def stepOnce (s : State) : Host.Outcome State Fault Refusal :=
  match s.pending with
  | [] => if s.params.wf then .next s else .refused .illFormedParameters
  | i :: rest =>
    if s.params.wf then runInput i { s with pending := rest }
    else .refused .illFormedParameters

/-- Put the session at a position, with the sequence's window just opened. -/
def State.atPos (pos : Pos) (s : State) : State :=
  match pos with
  | .idle => toIdle s
  | .rate k =>
    { s with session := { s.session with
        mode := .awaiting, kind := .rate, progress := k, deadline := s.tick } }
  | .chset k =>
    { s with session := { s.session with
        mode := .awaiting, kind := .chset, progress := k, deadline := s.tick } }

/-- Offer an input as the very next step. -/
def State.offer (i : StepInput) (s : State) : State := { s with pending := i :: s.pending }

/-- Offer the instruction of an opcode-table word as the very next step (log entry 13): a REQ word
as a request, an RX word as an iteration at the word's session position. The table's command bytes
and latch are the defaults, so the parameters are the defaults. -/
def State.offerTableWord (nbits w : Nat) (s : State) : State :=
  match tableWordPort nbits w with
  | some (_, .req r) => { s with params := Params.default }.offer (.request r)
  | some (pos, .rx b) =>
    (State.atPos pos { s with params := Params.default }).offer (.iterate (some b) s.tick)
  | none => s

end Sys2Proof.Machine
end

