-- ==== Sys2Proof/Machine/Step.lean ====
section
/-! DEFINITION. One step of the machine, and the placing of one instruction where the next step
takes it. -/

namespace Sys2Proof.Machine

/-- One step of the block (`00_scope.md` R9): an offered ITERATE or REQUEST, or waiting. -/
def step (s : State) : Host.Outcome State Fault Refusal := stepOnce s

/-- `s` with the instruction of the opcode-table word `w` offered as the next step, at its session
position, under the table's (default) parameters (log entry 13). -/
def State.withFetchWord (s : State) (nbits w : Nat) : State := State.offerTableWord nbits w s

end Sys2Proof.Machine
end

