-- ==== Sys2Proof/Machine/Pseudo.lean ====
section
/-! DEFINITION. The assembler notation of `30_encoding.md` R127: its lines and its
pseudo-instructions, as the steps a host offers. -/

namespace Sys2Proof.Machine

/-- `IT <byte> @<t>`. -/
def lineByte (b : Byte) (t : Tick) : StepInput := .iterate (some b) t

/-- `IT - @<t>`. -/
def lineNoByte (t : Tick) : StepInput := .iterate none t

/-- `DEV <reg> := <word>`: the device changes one of its own registers between steps. Not a block
step. -/
def State.devSets (r : Byte) (w : Word) (s : State) : State := { s with regs := regWrite s.regs r w }

/-- `SETRATE d @t`. -/
def pseudoSetRate (p : Params) (d : Byte) (t : Tick) : List StepInput :=
  [p.cmdEnterRate, d, p.latch].map (lineByte · t)

/-- `CHSET ch, capdac, pos, neg, off, gain @t`. -/
def pseudoChset (p : Params) (ch : BitVec 2) (capdac : BitVec 5) (pos neg : BitVec 4)
    (off gain : Word) (t : Tick) : List StepInput :=
  [p.cmdEnterChset, packChannelCapdac ch capdac, pos ++ neg, hiByte off, loByte off, hiByte gain,
    loByte gain, p.latch].map (lineByte · t)

/-- `WAIT n @t`. -/
def pseudoWait (n : Nat) (t : Tick) : List StepInput := List.replicate n (lineNoByte t)

/-- The host offers the lines of a program after what it has offered already. -/
def State.offerLines (ls : List StepInput) (s : State) : State :=
  { s with pending := s.pending ++ ls }

end Sys2Proof.Machine
end

