-- ==== Sys2Proof/Safety.lean ====
section
/-! DEFINITION. What counts as a safe state (the invariants of `10_state.md` R52), and the words the
statements are written in: which bytes an instruction stores to, what the device leaves alone, the
shape of BUS traffic and of packets, and outcomes spelled transaction by transaction. -/

namespace Sys2Proof.Machine

/-! ### The invariant -/

/-- R52 (a) and (b): Awaiting RATE has progress 1 or 2, Awaiting CHSET has progress 1 to 7. -/
def sessionWf (x : Session) : Bool :=
  match x.mode, x.kind with
  | .idle, _ => true
  | .awaiting, .rate => x.progress == 1 || x.progress == 2
  | .awaiting, .chset => x.progress != 0

/-- At the RATE latch, `s.scratch[0]` holds an ordinal 0..9 (`30_encoding.md` R105). -/
def rateDigitWf (x : Session) : Bool :=
  match x.mode, x.kind with
  | .awaiting, .rate => x.progress != 2 || decide (x.scratch[0] ≤ 9)
  | _, _ => true

/-- A tick value of P_TICK_W bits (`10_state.md` R35). -/
def tickWf (p : Params) (t : Tick) : Bool := decide (t.toNat < 2 ^ p.tickW)

/-- What every step keeps: well-formed parameters (R102), R52's session, R105's ordinal, tick values
of P_TICK_W bits (R31, R35) and the canonical register memory. -/
abbrev BlockInv (s : State) : Prop :=
  s.params.wf = true ∧ sessionWf s.session = true ∧ rateDigitWf s.session = true
    ∧ tickWf s.params s.session.deadline = true ∧ tickWf s.params s.tick = true
    ∧ Memory.wf s.regs = true

/-! ### Classes of instructions -/

/-- The operations of the REQ port. -/
def isReq (i : Instr) : Bool :=
  match i with
  | .fxpDecS _ _ | .fxpEncS _ _ | .fxpDecU _ _ | .fxpEncU _ _ => true
  | .rdOffset _ | .wrOffset _ _ | .rdGain _ | .wrGain _ _ | .cfgInput _ _ _ _ => true
  | .startMeas _ | .stopMeas _ | .isDone _ | .newData | .setRate _ | .rdRate => true
  | .enRepeat _ | .disRepeat | .rdRaw _ | .rdMeas _ | .reset | .present | .rdId _ => true
  | .reservedLow _ | .reservedHigh _ => true
  | .cmdEnterRate | .cmdEnterChset | .cmdReset | .cmdMfrId | .cmdDevId | .cmdRdRate => false
  | .cmdSensor | .cmdRdCh0 | .cmdRdCh1 | .cmdRdCh2 | .cmdRdCh3 => false
  | .cmdStart0 | .cmdStart1 | .cmdStart2 | .cmdStart3 => false
  | .seqRateDigit _ | .seqRateLatch _ | .seqChsetPayload _ | .seqChsetLatch _ => false

/-- The immediate commands that read the device and reply with one packet (R213 to R220). -/
def isReadCommand (i : Instr) : Bool :=
  match i with
  | .cmdMfrId | .cmdDevId | .cmdRdRate | .cmdSensor => true
  | .cmdRdCh0 | .cmdRdCh1 | .cmdRdCh2 | .cmdRdCh3 => true
  | .cmdEnterRate | .cmdEnterChset | .cmdReset => false
  | .cmdStart0 | .cmdStart1 | .cmdStart2 | .cmdStart3 => false
  | .fxpDecS _ _ | .fxpEncS _ _ | .fxpDecU _ _ | .fxpEncU _ _ => false
  | .rdOffset _ | .wrOffset _ _ | .rdGain _ | .wrGain _ _ | .cfgInput _ _ _ _ => false
  | .startMeas _ | .stopMeas _ | .isDone _ | .newData | .setRate _ | .rdRate => false
  | .enRepeat _ | .disRepeat | .rdRaw _ | .rdMeas _ | .reset | .present | .rdId _ => false
  | .reservedLow _ | .reservedHigh _ => false
  | .seqRateDigit _ | .seqRateLatch _ | .seqChsetPayload _ | .seqChsetLatch _ => false

/-- The immediate commands that change device state and reply with one notice (R212, R221 to
R224). -/
def isChangeCommand (i : Instr) : Bool :=
  match i with
  | .cmdReset | .cmdStart0 | .cmdStart1 | .cmdStart2 | .cmdStart3 => true
  | .cmdMfrId | .cmdDevId | .cmdRdRate | .cmdSensor => false
  | .cmdRdCh0 | .cmdRdCh1 | .cmdRdCh2 | .cmdRdCh3 => false
  | .cmdEnterRate | .cmdEnterChset => false
  | .fxpDecS _ _ | .fxpEncS _ _ | .fxpDecU _ _ | .fxpEncU _ _ => false
  | .rdOffset _ | .wrOffset _ _ | .rdGain _ | .wrGain _ _ | .cfgInput _ _ _ _ => false
  | .startMeas _ | .stopMeas _ | .isDone _ | .newData | .setRate _ | .rdRate => false
  | .enRepeat _ | .disRepeat | .rdRaw _ | .rdMeas _ | .reset | .present | .rdId _ => false
  | .reservedLow _ | .reservedHigh _ => false
  | .seqRateDigit _ | .seqRateLatch _ | .seqChsetPayload _ | .seqChsetLatch _ => false

/-! ### Memory frames -/

/-- The device registers an instruction stores to, computed as its meaning computes them. -/
def storedRegs (i : Instr) (s : State) : List Byte :=
  match i with
  | .wrOffset ch _ => [regOffsetCal ch]
  | .wrGain ch _ => [regGainCal ch]
  | .cfgInput ch _ _ _ => [regConfMeas ch]
  | .startMeas _ | .stopMeas _ | .setRate _ | .enRepeat _ | .disRepeat | .reset => [regFdcConf]
  | .cmdReset | .cmdStart0 | .cmdStart1 | .cmdStart2 | .cmdStart3 => [regFdcConf]
  | .seqRateLatch _ => [regFdcConf]
  | .seqChsetLatch _ =>
    let ch : Byte := (payloadChannel s.session.scratch[0]).setWidth 8
    [regConfMeas ch, regOffsetCal ch, regGainCal ch]
  | .fxpDecS _ _ | .fxpEncS _ _ | .fxpDecU _ _ | .fxpEncU _ _ => []
  | .rdOffset _ | .rdGain _ | .isDone _ | .newData | .rdRate | .rdRaw _ | .rdMeas _ => []
  | .present | .rdId _ | .reservedLow _ | .reservedHigh _ => []
  | .cmdEnterRate | .cmdEnterChset | .cmdMfrId | .cmdDevId | .cmdRdRate | .cmdSensor => []
  | .cmdRdCh0 | .cmdRdCh1 | .cmdRdCh2 | .cmdRdCh3 => []
  | .seqRateDigit _ | .seqChsetPayload _ => []

/-- Address `a` is one of the two bytes of a listed register. -/
def byteOfRegs (rs : List Byte) (a : Nat) : Prop := ∃ r ∈ rs, a = hiByteAddr r ∨ a = loByteAddr r

/-- In its next `n` moves the device does not itself change the byte at `a`. -/
def deviceLeaves (s : State) (n : Nat) (a : Nat) : Prop :=
  ∀ k < n, ¬ byteOfRegs ((turnAt s k).changes.map Prod.fst) a

/-- How many BUS transactions were made from `s` to `t`. -/
def transactions (s t : State) : Nat := t.bus.length - s.bus.length

/-! ### Encodings, as the statements name them -/

/-- Every REQ record with this op is the instruction that `f` reads from its fields
(`30_encoding.md` R92). -/
def ReqOp (n : BitVec 5) (f : ReqRecord → Instr) : Prop :=
  ∀ r : ReqRecord, r.op = n → decodeReq r = f r

/-- In Idle, under any well-formed parameters, this parameter's byte is the command
(`30_encoding.md` R100, R101). -/
def CmdByte (c : Params → Byte) (i : Instr) : Prop :=
  ∀ p : Params, p.wf = true → decode p .idle (.rx (c p)) = .ok i

/-- At this session position every byte is the instruction that `f` makes of it (`30_encoding.md`
R104, R106, R116). -/
def SeqByte (pos : Pos) (f : Byte → Instr) : Prop :=
  ∀ (p : Params) (b : Byte), decode p pos (.rx b) = .ok (f b)

/-! ### BUS traffic -/

/-- The registers of `20_memory.md` R62's table. -/
def mappedRegs : List Byte :=
  [0x00, 0x01, 0x02, 0x03, 0x04, 0x05, 0x06, 0x07, 0x08, 0x09, 0x0A, 0x0B, 0x0C, 0x0D, 0x0E, 0x0F,
    0x10, 0x11, 0x12, 0x13, 0x14, 0xFE, 0xFF]

/-- The registers the block may write: CONF_MEAS, FDC_CONF, OFFSET_CAL, GAIN_CAL (`10_state.md`
R48). -/
def writableRegs : List Byte :=
  [0x08, 0x09, 0x0A, 0x0B, 0x0C, 0x0D, 0x0E, 0x0F, 0x10, 0x11, 0x12, 0x13, 0x14]

/-- A transaction the block may make: at P_DEV_ADDR (`20_memory.md` R63), whole 2-byte registers
(R67), of a mapped register (R62), writing only a writable one (`10_state.md` R48). -/
def trafficAllowed (p : Params) (e : BusEvent) : Bool :=
  match e with
  | .read dev reg n _ => dev == p.devAddr && n == 2 && mappedRegs.contains reg
  | .write dev reg _ _ _ => dev == p.devAddr && writableRegs.contains reg
  | .probe dev _ => dev == p.devAddr

/-- Whether a Read or Write succeeded; a Probe cannot fail (`41_register_codec.md` R168). -/
def trafficOk (e : BusEvent) : Bool :=
  match e with
  | .read _ _ _ r => r.isSome
  | .write _ _ _ _ ok => ok
  | .probe _ _ => true

/-- The kind of a transaction. -/
inductive TxKind
  | read
  | write
  | probe
deriving DecidableEq, Repr

/-- The kind of a transaction. -/
def txKind (e : BusEvent) : TxKind :=
  match e with
  | .read _ _ _ _ => .read
  | .write _ _ _ _ _ => .write
  | .probe _ _ => .probe

/-- The transactions of a REG operation that succeeds (`41_register_codec.md` R171); RESET adds
`polls` reads. FXP operations and non-REQ instructions are not its subject. -/
def okTraffic (polls : Nat) (i : Instr) : Option (List TxKind) :=
  match i with
  | .rdOffset _ | .rdGain _ | .isDone _ | .newData | .rdRate | .rdId _ => some [.read]
  | .wrOffset _ _ | .wrGain _ _ => some [.write]
  | .cfgInput _ _ _ _ | .startMeas _ | .stopMeas _ | .setRate _ | .disRepeat => some [.read, .write]
  | .enRepeat _ => some [.read, .write, .write]
  | .rdRaw _ => some [.read, .read]
  | .rdMeas _ => some [.read, .read, .read]
  | .reset => some ([.read, .write] ++ List.replicate polls .read)
  | .present => some [.probe]
  | .fxpDecS _ _ | .fxpEncS _ _ | .fxpDecU _ _ | .fxpEncU _ _ => none
  | .reservedLow _ | .reservedHigh _ => none
  | .cmdEnterRate | .cmdEnterChset | .cmdReset | .cmdMfrId | .cmdDevId | .cmdRdRate => none
  | .cmdSensor | .cmdRdCh0 | .cmdRdCh1 | .cmdRdCh2 | .cmdRdCh3 => none
  | .cmdStart0 | .cmdStart1 | .cmdStart2 | .cmdStart3 => none
  | .seqRateDigit _ | .seqRateLatch _ | .seqChsetPayload _ | .seqChsetLatch _ => none

/-! ### REQ results -/

/-- The field of a result record an operation's value is in (`30_encoding.md` R92). -/
inductive ResultField
  | nothing
  | rval
  | rbool
  /-- the low `bits` bits of rdata -/
  | rdata (bits : Nat)
deriving DecidableEq, Repr

/-- The result column of R92; non-REQ instructions have no result. -/
def resultField (i : Instr) : ResultField :=
  match i with
  | .fxpDecS _ _ | .fxpDecU _ _ | .rdOffset _ | .rdGain _ | .rdMeas _ => .rval
  | .fxpEncS _ _ | .fxpEncU _ _ | .rdId _ => .rdata 16
  | .isDone _ | .present => .rbool
  | .newData => .rdata 4
  | .rdRate => .rdata 2
  | .rdRaw _ => .rdata 32
  | .wrOffset _ _ | .wrGain _ _ | .cfgInput _ _ _ _ | .startMeas _ | .stopMeas _ => .nothing
  | .setRate _ | .enRepeat _ | .disRepeat | .reset => .nothing
  | .reservedLow _ | .reservedHigh _ => .nothing
  | .cmdEnterRate | .cmdEnterChset | .cmdReset | .cmdMfrId | .cmdDevId | .cmdRdRate => .nothing
  | .cmdSensor | .cmdRdCh0 | .cmdRdCh1 | .cmdRdCh2 | .cmdRdCh3 => .nothing
  | .cmdStart0 | .cmdStart1 | .cmdStart2 | .cmdStart3 => .nothing
  | .seqRateDigit _ | .seqRateLatch _ | .seqChsetPayload _ | .seqChsetLatch _ => .nothing

/-- A record whose fields other than the one that holds the result are 0 (`30_encoding.md` R97). -/
def othersZero (f : ResultField) (r : ReqResult) : Prop :=
  match f with
  | .nothing => r.rdata = 0 ∧ r.rval = 0 ∧ r.rbool = false
  | .rval => r.rdata = 0 ∧ r.rbool = false
  | .rbool => r.rdata = 0 ∧ r.rval = 0
  | .rdata bits => r.rdata.toNat < 2 ^ bits ∧ r.rval = 0 ∧ r.rbool = false

/-! ### Packets -/

/-- The packet types: id, header and payload length (`30_encoding.md` R110, R111). -/
def packetSchema (p : Params) : List (Byte × Byte × Nat) :=
  [(p.pktSensor, 0xA0, 1), (p.pktRate, 0xA0, 1), (p.pktMfrId, 0xA0, 2), (p.pktDevId, 0xA0, 2),
    (p.pktChset, 0xA0, 6), (p.pktData, 0xA1, 16)]

/-- A packet of one of the types, framed and of its fixed length. -/
def packetOk (p : Params) (bytes : List Byte) : Prop :=
  ∃ ty ∈ packetSchema p, ∃ pl : List Byte,
    pl.length = ty.2.2 ∧ bytes = [ty.2.1, ty.1] ++ pl ++ [0xC0]

/-- An OUT event the block may emit: a framed packet, or a notice. -/
def eventOk (p : Params) (e : OutEvent) : Prop :=
  match e with
  | .packet bytes => packetOk p bytes
  | .notice _ => True

/-! ### Outcomes, spelled transaction by transaction -/

/-- A result record with a status and no value (`30_encoding.md` R97). -/
def plainResult (st : Status) : ReqResult := { status := st, rdata := 0, rval := 0, rbool := false }

/-- Read the listed registers in order; `k` gets the words and the state after them, `f` the state
after the first read that fails, the later ones not being issued. -/
def AfterReads (rs : List Byte) (s : State) (k : List Word → State → Prop) (f : State → Prop) :
    Prop :=
  match rs with
  | [] => k [] s
  | r :: rs =>
    match busRead r s with
    | (some (b0, b1), s1) => AfterReads rs s1 (fun ws => k (wordOfBytes b0 b1 :: ws)) f
    | (none, s1) => f s1

/-- Write a word to a register; `k` gets OK or CommError and the state after it. -/
def AfterWrite (r : Byte) (w : Word) (s : State) (k : Status → State → Prop) : Prop :=
  match busWrite r (hiByte w) (loByte w) s with
  | (true, s1) => k .ok s1
  | (false, s1) => k .commError s1

/-- Read a register, then write it with a word that `f` relates to the one read (`20_memory.md`
R71); `k` gets OK or CommError and the state; a failed read issues no write. -/
def AfterRmw (r : Byte) (f : Word → Word → Prop) (s : State) (k : Status → State → Prop) : Prop :=
  AfterReads [r] s
    (fun ws s1 => ∃ w w', ws = [w] ∧ f w w' ∧ AfterWrite r w' s1 k)
    (fun s1 => k .commError s1)

/-- RESET's poll (`41_register_codec.md` R167): at most `n` reads of FDC_CONF, until one fails or
reads RST (bit 15) as 0. -/
inductive Polls : Nat → State → Status → State → Prop
  | exhausted (s : State) : Polls 0 s .timeout s
  | failed {n : Nat} {s s1 : State} :
      busRead 0x0C s = (none, s1) → Polls (n + 1) s .commError s1
  | cleared {n : Nat} {s s1 : State} {b0 b1 : Byte} :
      busRead 0x0C s = (some (b0, b1), s1) → (wordOfBytes b0 b1).getLsbD 15 = false →
      Polls (n + 1) s .ok s1
  | again {n : Nat} {s s1 t : State} {b0 b1 : Byte} {st : Status} :
      busRead 0x0C s = (some (b0, b1), s1) → (wordOfBytes b0 b1).getLsbD 15 = true →
      Polls n s1 st t → Polls (n + 1) s st t

/-- A word with one bit made `v` and every other bit as it was. -/
def bitBecomes (k : Nat) (v : Bool) (w w' : Word) : Prop :=
  ∀ j < 16, w'.getLsbD j = if j = k then v else w.getLsbD j

/-- RESET (R167): the RMW that sets RST (bit 15), then the poll; `k` gets the status and the
state. -/
def AfterReset (s : State) (k : Status → State → Prop) : Prop :=
  AfterRmw 0x0C (bitBecomes 15 true) s
    fun st s2 =>
      if st = .ok then ∃ r t, Polls s.params.resetPollLimit s2 r t ∧ k r t else k st s2

/-- The integer nearest `q` in the direction of zero (`00_scope.md` R16). -/
def truncQ (q : ℚ) : ℤ := if 0 ≤ q then ⌊q⌋ else ⌈q⌉

/-- The bits `hi..lo` of a word, as a number (`00_scope.md` R14). -/
def field (w : Word) (hi lo : Nat) : Nat := w.toNat / 2 ^ lo % 2 ^ (hi - lo + 1)

/-- Channel `ch`'s four bytes of the data payload and the state after reading them (R231): the two
bytes of MEAS_MSB, the high byte of MEAS_LSB, the CAPDAC field; four 0xFF if a read fails, the later
reads of the channel not being issued. -/
def ChannelData (ch : Byte) (s : State) (pl : List Byte) (t : State) : Prop :=
  AfterReads [0x00 + 2 * ch, 0x01 + 2 * ch, 0x08 + ch] s
    (fun ws t' => ∃ hi lo w, ws = [hi, lo, w] ∧ t' = t ∧
      pl = [BitVec.ofNat 8 (field hi 15 8), BitVec.ofNat 8 (field hi 7 0),
        BitVec.ofNat 8 (field lo 15 8), BitVec.ofNat 8 (field w 9 5)])
    (fun t' => t' = t ∧ pl = [0xFF, 0xFF, 0xFF, 0xFF])

/-- The codes CFG_INPUT accepts (`41_register_codec.md` R156): positive IN1..IN4, negative an input
code above it, CAPDAC 0..31. -/
def inputsLegal (pos neg capdac : Nat) : Prop :=
  pos ≤ 3 ∧ (neg ≤ 4 ∨ neg = 7) ∧ pos < neg ∧ capdac ≤ 31

/-- What CFG_INPUT makes of a CONF_MEAS word (`10_state.md` R43, `30_encoding.md` R120). -/
def confBecomes (pos neg capdac : Nat) (w w' : Word) : Prop :=
  field w' 15 13 = pos ∧ field w' 12 10 = neg ∧ field w' 9 5 = capdac
    ∧ w'.getLsbD 4 = false ∧ field w' 3 0 = field w 3 0

/-- What SET_RATE makes of an FDC_CONF word (`10_state.md` R42, `30_encoding.md` R123). -/
def rateBecomes (r : Nat) (w w' : Word) : Prop :=
  field w' 11 10 = r ∧ ∀ j < 16, j ≠ 10 → j ≠ 11 → w'.getLsbD j = w.getLsbD j

/-! ### What a run may show of the session -/

/-- How many scratch bytes the current command has stored (`10_state.md` R36). -/
def storedBytes (x : Session) : Nat := x.progress.toNat - 1

/-- Two sessions that agree on all that a rule reads (R33 to R36): the mode; while Awaiting also the
kind, the progress, the deadline and the scratch bytes the current command has stored. -/
def sameLive (x y : Session) : Prop :=
  x.mode = y.mode ∧ (x.mode = .awaiting →
    x.kind = y.kind ∧ x.progress = y.progress ∧ x.deadline = y.deadline
      ∧ ∀ k < storedBytes x, x.scratch[k]? = y.scratch[k]?)

/-- Two states that differ at most in session values no rule reads. -/
def sameShown (s t : State) : Prop :=
  sameLive s.session t.session ∧ t = { s with session := t.session }

/-- Two outcomes that show the same. -/
def outcomesSame (a b : Host.Outcome State Fault Refusal) : Prop :=
  match a, b with
  | .next s, .next t => sameShown s t
  | .fault f, .fault g => f = g
  | .refused r, .refused q => r = q
  | _, _ => False

/-- An outcome with OUT events put before what is in its OUT queue. -/
def withOutBefore (pre : List OutEvent) (o : Host.Outcome State Fault Refusal) :
    Host.Outcome State Fault Refusal :=
  match o with
  | .next s => .next { s with out := pre ++ s.out }
  | .fault f => .fault f
  | .refused r => .refused r

end Sys2Proof.Machine
end

