-- ==== Sys2Proof/Certificates/Slice0/Obligations.lean ====
section
/-! DEFINITION. The statements about the QRC block, for the provers. Each is `Obligations.<Name>`, listed
in OBLIGATIONS.json with the rules it comes from. Outcomes are spelled over single BUS transactions
(`busRead`, `busWrite`, `busProbe`), so that each holds for every answer the device gives
(`20_memory.md` R61); what one transaction does is stated first. -/

open Sys2Proof Sys2Proof.Machine

/-! ### Encoding -/

/-- Every instruction, at every position where it may stand, is what the decoder reads from its
encoding (`30_encoding.md` R92, R101, R104, R106, R116): no operand bit is dropped and no two
instructions share a word. -/
def Obligations.DecodeOfEncodeIsTheInstruction : Prop :=
  ∀ (p : Params) (i : Instr) (pos : Pos), p.wf = true → i.fits pos = true →
    decode p pos (encode p i) = .ok i

/-- A byte that decodes at a position decodes to an instruction that may stand there and whose
encoding is that byte (R100, R116); every REQ record decodes, to a REQ operation with the same op
(R92, R94). -/
def Obligations.EncodeOfDecodeIsTheWord : Prop :=
  (∀ (p : Params) (pos : Pos) (b : Byte) (i : Instr),
      decode p pos (.rx b) = .ok i → i.fits pos = true ∧ encode p i = .rx b)
  ∧ (∀ (p : Params) (pos : Pos) (r : ReqRecord),
      ∃ (i : Instr) (q : ReqRecord),
        decode p pos (.req r) = .ok i ∧ isReq i = true ∧ encode p i = .req q ∧ q.op = r.op)

/-- A few words of `spec/opcode_table.json`, one or more of each family, decode to their rows. -/
def Obligations.TableWordsDecodeToTheirRows : Prop :=
  decodeTableWord 8 0b00000 = some (.fxpDecS 0 0)
  ∧ decodeTableWord 8 0b00101 = some (.wrOffset 0 0)
  ∧ decodeTableWord 8 0b01111 = some (.enRepeat 0)
  ∧ decodeTableWord 8 0b10110 = some (.reservedLow 0)
  ∧ decodeTableWord 8 0b11000 = some (.reservedHigh 0)
  ∧ decodeTableWord 8 0b01110010 = some .cmdEnterRate
  ∧ decodeTableWord 8 0b01000011 = some .cmdRdCh2
  ∧ decodeTableWord 8 0b01001100 = some (.seqRateLatch 0x4C)
  ∧ decode Params.default (.chset 7) (.rx 0b01001100) = .ok (.seqChsetLatch 0x4C)

/-- While Awaiting every byte goes to the handler of its place, whatever its value
(`42_command_protocol.md` R203, `30_encoding.md` R116; the spec marks the same sentence of R243 as
derived from R203); a position outside `10_state.md` R34 has
no handler (the model's choice, log entry 10). -/
def Obligations.AwaitingByteGoesToItsHandler : Prop :=
  ∀ (p : Params) (b : Byte) (k : BitVec 3),
    decode p (.rate k) (.rx b) =
      (if k.toNat = 1 then .ok (.seqRateDigit b)
        else if k.toNat = 2 then .ok (.seqRateLatch b)
        else .error (.noSuchPosition (.rate k)))
    ∧ decode p (.chset k) (.rx b) =
      (if 1 ≤ k.toNat ∧ k.toNat ≤ 6 then .ok (.seqChsetPayload b)
        else if k.toNat = 7 then .ok (.seqChsetLatch b)
        else .error (.noSuchPosition (.chset k)))

/-- `30_encoding.md` R102: an assignment whose command bytes are not distinct is refused; P_LATCH may
equal a command byte; the latch plays no part in Idle; the defaults keep it distinct. -/
def Obligations.EqualCommandBytesAreRefused : Prop :=
  (∀ s : State, ¬ s.params.cmdBytes.Nodup → step s = .refused .illFormedParameters)
  ∧ (∀ (p : Params) (c : Byte), p.wf = true → c ∈ p.cmdBytes →
      Params.wf { p with latch := c } = true)
  ∧ (∀ (p : Params) (c : Byte) (w : PortWord),
      decode { p with latch := c } .idle w = decode p .idle w)
  ∧ Params.default.latch ∉ Params.default.cmdBytes ∧ Params.default.wf = true

/-! ### The step -/

/-- A step that takes a request is `exec` of the decoded operation (`00_scope.md` R9). -/
def Obligations.StepRunsTheRequest : Prop :=
  ∀ (s : State) (r : ReqRecord) (rest : List StepInput),
    s.params.wf = true → s.pending = .request r :: rest →
    step s = exec (decodeReq r) { s with pending := rest }

/-- A step that takes an iteration with a byte runs, when the byte finds no timeout and decodes, the
decoded instruction, which completes, then the timeout check and the data check
(`42_command_protocol.md` R203, R240); `now` is sampled first, once. -/
def Obligations.StepRunsTheReceivedByte : Prop :=
  ∀ (s s0 : State) (b : Byte) (now : Tick) (rest : List StepInput) (i : Instr),
    s.params.wf = true → s.pending = .iterate (some b) now :: rest →
    s0 = sampleTick now { s with pending := rest } →
    timedOut s0 = false → decode s.params s0.pos (.rx b) = .ok i →
    ∃ t, exec i s0 = .next t ∧ step s = .next (dataCheck (timeoutCheck t))

/-- `42_command_protocol.md` R204: a byte that finds the timeout gives one N_TIMEOUT, the session goes
back to Idle, and the byte is discarded whatever it is; the data check follows (R240). -/
def Obligations.LateByteIsDiscarded : Prop :=
  ∀ (s s0 : State) (b : Byte) (now : Tick) (rest : List StepInput),
    s.params.wf = true → s.pending = .iterate (some b) now :: rest →
    s0 = sampleTick now { s with pending := rest } → timedOut s0 = true →
    step s = .next (dataCheck { s0 with
      session := { s0.session with mode := .idle }
      out := s0.out ++ [.notice .timeout] })

/-- An iteration without a byte makes the timeout check, then the data check (R235, R240). -/
def Obligations.IterationWithoutByte : Prop :=
  ∀ (s s0 : State) (now : Tick) (rest : List StepInput),
    s.params.wf = true → s.pending = .iterate none now :: rest →
    s0 = sampleTick now { s with pending := rest } →
    (timedOut s0 = false → step s = .next (dataCheck s0))
    ∧ (timedOut s0 = true → step s = .next (dataCheck { s0 with
        session := { s0.session with mode := .idle }
        out := s0.out ++ [.notice .timeout] }))

/-- `30_encoding.md` R103: in Idle a byte that equals no P_CMD_* value has no effect; the iteration
goes on with its data check. -/
def Obligations.UnknownIdleByteHasNoEffect : Prop :=
  ∀ (s s0 : State) (b : Byte) (now : Tick) (rest : List StepInput),
    s.params.wf = true → s.pending = .iterate (some b) now :: rest →
    s0 = sampleTick now { s with pending := rest } →
    s.session.mode = .idle → b ∉ s.params.cmdBytes →
    parseByte b s0 = .next s0 ∧ step s = .next (dataCheck s0)

/-- `42_command_protocol.md` R202: timed out is Awaiting with an elapsed count, modulo 2^P_TICK_W,
strictly above 1000. -/
def Obligations.TimedOutIsElapsedAboveWindow : Prop :=
  ∀ s : State, s.params.tickW ≤ 64 →
    (timedOut s = true ↔ s.session.mode = .awaiting ∧
      1000 < ((s.tick.toNat : Int) - (s.session.deadline.toNat : Int)) % (2 ^ s.params.tickW : Int))

/-- `70_reset_and_hazards.md` R290: block reset leaves Idle, every other session field 0 and OUT
empty, makes no transaction; and that is the session and OUT of the state after reset. -/
def Obligations.BlockResetGivesTheResetSession : Prop :=
  ∀ s : State,
    (State.blockReset s).session.mode = .idle ∧ (State.blockReset s).session.kind = .rate
    ∧ (State.blockReset s).session.progress = 0 ∧ (State.blockReset s).session.deadline = 0
    ∧ (∀ k : Fin 6, (State.blockReset s).session.scratch[k] = 0)
    ∧ (State.blockReset s).out = [] ∧ (State.blockReset s).bus = s.bus
    ∧ State.reset.session = (State.blockReset s).session ∧ State.reset.out = []
    ∧ State.reset.bus = []

/-- `70_reset_and_hazards.md` R291: block reset leaves the device alone, and RESET (the operation and
the command) leaves the session registers alone, addresses only FDC_CONF, and stores only there. -/
def Obligations.BlockResetAndDeviceResetAreApart : Prop :=
  (∀ s : State, (State.blockReset s).regs = s.regs ∧ (State.blockReset s).turns = s.turns
    ∧ (State.blockReset s).freeTurns = s.freeTurns ∧ (State.blockReset s).params = s.params)
  ∧ (∀ (i : Instr) (s t : State), i = .reset ∨ i = .cmdReset → exec i s = .next t →
      t.session = s.session ∧ ∃ evs, t.bus = s.bus ++ evs
        ∧ ∀ e ∈ evs, (∃ r, e = .read s.params.devAddr 0x0C 2 r)
          ∨ ∃ b0 b1 ok, e = .write s.params.devAddr 0x0C b0 b1 ok)

/-! ### Invariants and whole-machine rules -/

/-- Every step keeps the invariant: well-formed parameters, the session of `10_state.md` R52 ("Invariants
that every step preserves", which the spec marks as derived from R32 to R36 and R204 to R211), R105's
ordinal at the RATE latch, ticks of P_TICK_W bits, the canonical register memory. -/
def Obligations.StepKeepsTheInvariant : Prop :=
  ∀ s t : State, BlockInv s → step s = .next t → BlockInv t

/-- The state after reset meets the invariant. -/
def Obligations.ResetMeetsTheInvariant : Prop := BlockInv State.reset

/-- From every state that meets the invariant the step completes: every step ends
(`70_reset_and_hazards.md` R303), and no error is fatal to the control loop (`60_exceptions.md` R270,
which the spec marks as derived). With nothing offered the block waits for its first step (R292);
that a step then changes nothing is the model's choice (log entry 1). -/
def Obligations.StepCompletesUnderTheInvariant : Prop :=
  ∀ s : State, BlockInv s →
    (∃ t, step s = .next t) ∧ (s.pending = [] → step s = .next s)

/-- Whatever the step, the block makes only transactions at P_DEV_ADDR, of whole 2-byte registers of
R62's map, and writes only FDC_CONF, CONF_MEAS, OFFSET_CAL and GAIN_CAL (`10_state.md` R48,
`20_memory.md` R62, R63, R67). -/
def Obligations.BusTrafficStaysOnTheMap : Prop :=
  ∀ s t : State, step s = .next t →
    ∃ evs, t.bus = s.bus ++ evs ∧ ∀ e ∈ evs, trafficAllowed s.params e = true

/-- `10_state.md` R39: a step never reads the OUT queue back, never reorders it and never drops from
it: with other events in the queue it does the same and appends the same. -/
def Obligations.OutQueueIsOnlyAppendedTo : Prop :=
  (∀ s t : State, step s = .next t → ∃ evs, t.out = s.out ++ evs)
  ∧ (∀ (s : State) (pre : List OutEvent),
      step { s with out := pre ++ s.out } = withOutBefore pre (step s))

/-- Session values no rule reads are never observable (`10_state.md` R33, R36 and R52 (c), in part marked
as derived by the spec): two states that
differ only in them step to states that differ only in them, with the same OUT events,
transactions and results. -/
def Obligations.DeadSessionValuesAreNeverShown : Prop :=
  ∀ s t : State, sameShown s t → outcomesSame (step s) (step t)

/-- Every packet a step emits has the frame, header and fixed payload length of its type
(`30_encoding.md` R110, R111; `42_command_protocol.md` R226). -/
def Obligations.EmittedPacketsFollowTheSchema : Prop :=
  ∀ s t : State, step s = .next t →
    ∃ evs, t.out = s.out ++ evs ∧ ∀ e ∈ evs, eventOk s.params e

/-- "Exactly one timeout notice per timed-out command" (`42_command_protocol.md` R241, which the spec
marks as derived from R204, R235 and R240): an iteration
that finds the timeout emits one N_TIMEOUT, any other emits none, and no iteration leaves a
session that is timed out at its own `now`. -/
def Obligations.OneTimeoutNoticePerTimeout : Prop :=
  ∀ (s t s0 : State) (rx : Option Byte) (now : Tick) (rest : List StepInput),
    s.pending = .iterate rx now :: rest → s0 = sampleTick now { s with pending := rest } →
    step s = .next t →
    (∃ evs, t.out = s.out ++ evs
      ∧ evs.count (.notice .timeout) = if timedOut s0 then 1 else 0)
    ∧ timedOut t = false

/-! ### Frames -/

/-- A REQ operation leaves the session registers, OUT, the parameters and the host's steps alone
(`10_state.md` R31: "The REQ port cannot reach them"), and gives exactly one result record; its
transactions are added to the log. -/
def Obligations.RequestFrame : Prop :=
  ∀ (i : Instr) (s t : State), isReq i = true → exec i s = .next t →
    t.session = s.session ∧ t.out = s.out ∧ t.params = s.params ∧ t.pending = s.pending
    ∧ t.tick = s.tick ∧ (∃ r, t.results = s.results ++ [r]) ∧ ∃ evs, t.bus = s.bus ++ evs

/-- An immediate command that reads or changes the device gives exactly one reply
(`42_command_protocol.md` R242, which the spec marks as derived from R212 to R224): one packet,
sentinel or not, or one notice; and leaves the session, the parameters, the results and the host's
steps alone. -/
def Obligations.ImmediateCommandFrame : Prop :=
  ∀ (i : Instr) (s t : State), isReadCommand i = true ∨ isChangeCommand i = true →
    exec i s = .next t →
    t.session = s.session ∧ t.params = s.params ∧ t.results = s.results ∧ t.pending = s.pending
    ∧ t.tick = s.tick ∧ (∃ evs, t.bus = s.bus ++ evs)
    ∧ (isReadCommand i = true → ∃ bytes, t.out = s.out ++ [.packet bytes])
    ∧ (isChangeCommand i = true → ∃ n, t.out = s.out ++ [.notice n])

/-- The two latch bytes end the command: Idle, one notice, every other session register, the
parameters, the results and the host's steps as they were (`42_command_protocol.md` R209, R211). -/
def Obligations.LatchFrame : Prop :=
  ∀ (b : Byte) (i : Instr) (s t : State), i = .seqRateLatch b ∨ i = .seqChsetLatch b →
    exec i s = .next t →
    t.session = { s.session with mode := .idle } ∧ t.params = s.params ∧ t.results = s.results
    ∧ t.pending = s.pending ∧ t.tick = s.tick ∧ (∃ n, t.out = s.out ++ [.notice n])
    ∧ ∃ evs, t.bus = s.bus ++ evs

/-- The memory frame of every instruction: a byte of the device's register space that is not one of
the registers the instruction stores to, and that the device itself leaves alone in the
transactions the instruction makes, reads as before (`10_state.md` R41, R48; `20_memory.md` R72). -/
def Obligations.MemoryFrame : Prop :=
  ∀ (i : Instr) (s t : State) (a : Nat), exec i s = .next t →
    ¬ byteOfRegs (storedRegs i s) a → deviceLeaves s (transactions s t) a →
    memRead t.regs a = memRead s.regs a

/-- `41_register_codec.md` R151: an operation that returns ConfigError has made no transaction and
changed no device register, nor anything but its result. -/
def Obligations.ConfigErrorTouchesNothing : Prop :=
  ∀ (i : Instr) (s t : State) (r : ReqResult), isReq i = true → exec i s = .next t →
    t.results = s.results ++ [r] → r.status = .configError →
    t = { s with results := s.results ++ [r] }

/-- `30_encoding.md` R97: on OK only the field that R92 names holds a result, on any other status
every field is 0. -/
def Obligations.ResultFieldsNotNamedAreZero : Prop :=
  ∀ (i : Instr) (s t : State) (r : ReqResult), isReq i = true → exec i s = .next t →
    t.results = s.results ++ [r] →
    (r.status = .ok → othersZero (resultField i) r)
    ∧ (r.status ≠ .ok → othersZero .nothing r)

/-- The transactions of each REG operation that succeeds, RESET's with 1 to P_RESET_POLL_LIMIT polls;
none when it fails with ConfigError (`41_register_codec.md` R171, which the spec marks as derived from
R152 to R169). -/
def Obligations.TransactionsPerOperation : Prop :=
  ∀ (i : Instr) (s t : State) (r : ReqResult), exec i s = .next t →
    t.results = s.results ++ [r] →
    ∃ evs, t.bus = s.bus ++ evs
      ∧ (r.status = .ok → (okTraffic 0 i).isSome = true →
          ∃ polls, okTraffic polls i = some (evs.map txKind)
            ∧ 1 ≤ polls ∧ polls ≤ max 1 s.params.resetPollLimit)
      ∧ (r.status = .configError → evs = [])

/-- `41_register_codec.md` R170: a failed Read or Write ends its operation with CommError, as its last
transaction; and CommError has no other cause. -/
def Obligations.FailedTransactionEndsTheOperation : Prop :=
  ∀ (i : Instr) (s t : State) (r : ReqResult), isReq i = true → exec i s = .next t →
    t.results = s.results ++ [r] →
    ∃ evs, t.bus = s.bus ++ evs
      ∧ (∀ pre e post, evs = pre ++ e :: post → trafficOk e = false →
          post = [] ∧ r.status = .commError)
      ∧ (r.status = .commError → ∃ pre e, evs = pre ++ [e] ∧ trafficOk e = false)

/-! ### One transaction -/

/-- One Read, Write or Probe (`20_memory.md` R61, R64, R67, R69): the device may change its registers
as it likes; a Read returns the register's two bytes, the high one first, or fails; a Write stores
both bytes if it succeeds and none otherwise (log entry 5); the transaction is logged; no block
register, OUT event, parameter or result changes. -/
def Obligations.SingleTransactions : Prop :=
  ∀ (s : State) (r b0 b1 : Byte), Memory.wf s.regs = true →
    let m := regsChanged s.regs (turnAt s 0).changes
    let ok := (turnAt s 0).answers
    ((busRead r s).1
        = (if ok then some (memRead m (2 * r.toNat), memRead m (2 * r.toNat + 1)) else none)
      ∧ (busRead r s).2.regs = m
      ∧ (busRead r s).2.bus = s.bus ++ [.read s.params.devAddr r 2 (busRead r s).1])
    ∧ ((busWrite r b0 b1 s).1 = ok
      ∧ (busWrite r b0 b1 s).2.bus = s.bus ++ [.write s.params.devAddr r b0 b1 ok]
      ∧ (∀ a, memRead (busWrite r b0 b1 s).2.regs a
          = if ok = true ∧ a = 2 * r.toNat then b0
            else if ok = true ∧ a = 2 * r.toNat + 1 then b1 else memRead m a))
    ∧ ((busProbe s).1 = ok ∧ (busProbe s).2.regs = m
      ∧ (busProbe s).2.bus = s.bus ++ [.probe s.params.devAddr ok])
    ∧ ∀ t ∈ [(busRead r s).2, (busWrite r b0 b1 s).2, (busProbe s).2],
        t.session = s.session ∧ t.out = s.out ∧ t.params = s.params ∧ t.results = s.results
        ∧ t.pending = s.pending ∧ t.tick = s.tick ∧ Memory.wf t.regs = true
        ∧ ∀ k, turnAt t k = turnAt s (k + 1)

/-- `20_memory.md` R73: a read sees the earlier successful write, unless the device itself changed
the register in between. -/
def Obligations.ReadSeesTheEarlierWrite : Prop :=
  ∀ (s : State) (r b0 b1 : Byte), Memory.wf s.regs = true →
    (turnAt s 0).answers = true → (turnAt s 1).answers = true →
    r ∉ (turnAt s 1).changes.map Prod.fst →
    (busRead r (busWrite r b0 b1 s).2).1 = some (b0, b1)

/-! ### FXP unit -/

/-- `40_fixed_point.md` R131: FXP_DEC_S (op 0x00) gives exactly `sint(raw) / 2^fb`, +0.0 for 0,
status OK, nothing else touched. -/
def Obligations.DecodeSignedIsExact : Prop :=
  ReqOp 0x00 (fun r => .fxpDecS r.raw r.a)
  ∧ ∀ (raw : Word) (a : Byte) (s : State), ∃ x : F64,
      f64IsFinite x = true ∧ f64Real x = (raw.toInt : ℚ) / 2 ^ a.toNat
      ∧ (raw = 0 → x = 0)
      ∧ exec (.fxpDecS raw a) s = .next { s with
          results := s.results ++ [{ status := .ok, rdata := 0, rval := x, rbool := false }] }

/-- `40_fixed_point.md` R133: FXP_DEC_U (op 0x02) gives exactly `uint(raw) / 2^fb`, never negative. -/
def Obligations.DecodeUnsignedIsExact : Prop :=
  ReqOp 0x02 (fun r => .fxpDecU r.raw r.a)
  ∧ ∀ (raw : Word) (a : Byte) (s : State), ∃ x : F64,
      f64IsFinite x = true ∧ f64Real x = (raw.toNat : ℚ) / 2 ^ a.toNat ∧ f64Neg x = false
      ∧ exec (.fxpDecU raw a) s = .next { s with
          results := s.results ++ [{ status := .ok, rdata := 0, rval := x, rbool := false }] }

/-- `40_fixed_point.md` R132, R134: FXP_ENC_S (op 0x01) and FXP_ENC_U (op 0x03) give
`trunc(real(val) * 2^fb)` modulo 2^16, and 0 for NaN and the infinities. -/
def Obligations.EncodeTruncatesAndWraps : Prop :=
  ReqOp 0x01 (fun r => .fxpEncS r.val r.a) ∧ ReqOp 0x03 (fun r => .fxpEncU r.val r.a)
  ∧ ∀ (val : F64) (a : Byte) (s : State) (i : Instr), i = .fxpEncS val a ∨ i = .fxpEncU val a →
      exec i s = .next { s with
        results := s.results ++ [{
          status := .ok
          rdata := BitVec.ofNat 32 ((if f64IsFinite val
            then truncQ (f64Real val * 2 ^ a.toNat) else 0) % 2 ^ 16).toNat
          rval := 0
          rbool := false }] }

/-- `40_fixed_point.md` R135: encoding a decoded word gives the word, for every fractional_bits,
signed and unsigned (the spec marks all but the signed pair at 11 and 14 bits as derived from R131 to
R134). -/
def Obligations.FixedPointRoundTrip : Prop :=
  ∀ (v : Word) (fb : Byte), fxpEncS (fxpDecS v fb) fb = v ∧ fxpEncU (fxpDecU v fb) fb = v

/-- `40_fixed_point.md` R137, R138: dec24 is exactly `sint(m[31:8]) / 2^19`, in [-16, 16 - 2^-19];
cap is exactly that plus `capdac * 25/8`. -/
def Obligations.MeasurementDecodeIsExact : Prop :=
  ∀ (m : Long) (c : BitVec 5),
    f64IsFinite (dec24 m) = true
    ∧ f64Real (dec24 m) = ((m.extractLsb' 8 24).toInt : ℚ) / 2 ^ 19
    ∧ -16 ≤ f64Real (dec24 m) ∧ f64Real (dec24 m) ≤ 16 - 1 / 2 ^ 19
    ∧ f64IsFinite (cap m c) = true
    ∧ f64Real (cap m c) = f64Real (dec24 m) + c.toNat * (25 / 8)

/-- `00_scope.md` R16: the comparisons are those of the exact values; false with a NaN; the
infinities lie outside every finite value. -/
def Obligations.ComparisonsAreIeee : Prop :=
  ∀ x y : F64,
    (f64IsFinite x = true → f64IsFinite y = true →
      (f64Le x y = true ↔ f64Real x ≤ f64Real y) ∧ (f64Lt x y = true ↔ f64Real x < f64Real y))
    ∧ (f64IsNaN x = true ∨ f64IsNaN y = true → f64Le x y = false ∧ f64Lt x y = false)
    ∧ (f64IsFinite x = false → f64IsNaN x = false → f64IsFinite y = true →
        f64Lt x y = f64Neg x ∧ f64Lt y x = !f64Neg x ∧ f64Le x y = f64Neg x
        ∧ f64Le y x = !f64Neg x)

/-! ### REG unit -/

/-- `41_register_codec.md` R152, R154: RD_OFFSET reads OFFSET_CAL(ch), signed over 2^11; RD_GAIN reads
GAIN_CAL(ch), unsigned over 2^14; a failed read gives CommError, a channel above 3 ConfigError with no
transaction. -/
def Obligations.CalibrationReadsResult : Prop :=
  ReqOp 0x04 (fun r => .rdOffset r.ch) ∧ ReqOp 0x06 (fun r => .rdGain r.ch)
  ∧ ∀ (ch : Byte) (s : State),
    (ch ≤ 3 →
      AfterReads [0x0D + ch] s
        (fun ws t => ∃ w x, ws = [w] ∧ f64IsFinite x = true
          ∧ f64Real x = (w.toInt : ℚ) / 2 ^ 11 ∧ -16 ≤ f64Real x ∧ f64Real x < 16
          ∧ exec (.rdOffset ch) s
            = .next (respond { status := .ok, rdata := 0, rval := x, rbool := false } t))
        (fun t => exec (.rdOffset ch) s = .next (respond (plainResult .commError) t))
      ∧ AfterReads [0x11 + ch] s
        (fun ws t => ∃ w x, ws = [w] ∧ f64IsFinite x = true
          ∧ f64Real x = (w.toNat : ℚ) / 2 ^ 14 ∧ 0 ≤ f64Real x ∧ f64Real x < 4
          ∧ exec (.rdGain ch) s
            = .next (respond { status := .ok, rdata := 0, rval := x, rbool := false } t))
        (fun t => exec (.rdGain ch) s = .next (respond (plainResult .commError) t)))
    ∧ (3 < ch →
      exec (.rdOffset ch) s = .next (respond (plainResult .configError) s)
      ∧ exec (.rdGain ch) s = .next (respond (plainResult .configError) s))

/-- `41_register_codec.md` R153: WR_OFFSET accepts exactly the finite values of [-16, 16) and writes
`trunc(val * 2^11)`; anything else, NaN and the infinities among it, gives ConfigError with no
transaction. -/
def Obligations.WriteOffsetResult : Prop :=
  ReqOp 0x05 (fun r => .wrOffset r.ch r.val)
  ∧ ∀ (ch : Byte) (val : F64) (s : State),
    (ch ≤ 3 ∧ f64IsFinite val = true ∧ -16 ≤ f64Real val ∧ f64Real val < 16 →
      ∃ w : Word, w.toInt = truncQ (f64Real val * 2 ^ 11)
        ∧ AfterWrite (0x0D + ch) w s
          (fun st t => exec (.wrOffset ch val) s = .next (respond (plainResult st) t)))
    ∧ (¬ (ch ≤ 3 ∧ f64IsFinite val = true ∧ -16 ≤ f64Real val ∧ f64Real val < 16) →
      exec (.wrOffset ch val) s = .next (respond (plainResult .configError) s))

/-- `41_register_codec.md` R155: WR_GAIN accepts exactly the finite values of [0, 4), -0.0 among them,
and writes `trunc(val * 2^14)`; anything else gives ConfigError with no transaction. -/
def Obligations.WriteGainResult : Prop :=
  ReqOp 0x07 (fun r => .wrGain r.ch r.val)
  ∧ ∀ (ch : Byte) (val : F64) (s : State),
    (ch ≤ 3 ∧ f64IsFinite val = true ∧ 0 ≤ f64Real val ∧ f64Real val < 4 →
      ∃ w : Word, (w.toNat : ℤ) = truncQ (f64Real val * 2 ^ 14)
        ∧ AfterWrite (0x11 + ch) w s
          (fun st t => exec (.wrGain ch val) s = .next (respond (plainResult st) t)))
    ∧ (¬ (ch ≤ 3 ∧ f64IsFinite val = true ∧ 0 ≤ f64Real val ∧ f64Real val < 4) →
      exec (.wrGain ch val) s = .next (respond (plainResult .configError) s))

/-- `41_register_codec.md` R156: CFG_INPUT takes channel 0..3, a positive code IN1..IN4, a negative code
that names an input and is above the positive one, and a CAPDAC of at most 31, else ConfigError with
no transaction; then by RMW of CONF_MEAS(ch) it sets POS, NEG and CAPDAC, clears the reserved bit 4
and keeps bits 3:0. -/
def Obligations.ConfigureInputResult : Prop :=
  ReqOp 0x08 (fun r => .cfgInput r.ch r.a r.b r.c)
  ∧ ∀ (ch a b c : Byte) (s : State),
    (ch ≤ 3 ∧ inputsLegal a.toNat b.toNat c.toNat →
      AfterRmw (0x08 + ch) (confBecomes a.toNat b.toNat c.toNat) s
        (fun st t => exec (.cfgInput ch a b c) s = .next (respond (plainResult st) t)))
    ∧ (¬ (ch ≤ 3 ∧ inputsLegal a.toNat b.toNat c.toNat) →
      exec (.cfgInput ch a b c) s = .next (respond (plainResult .configError) s))

/-- `41_register_codec.md` R157, R158: START_MEAS sets bit `7 - ch` of FDC_CONF, STOP_MEAS clears it,
by RMW, every other bit as read; a channel above 3 gives ConfigError with no transaction. -/
def Obligations.StartAndStopResult : Prop :=
  ReqOp 0x09 (fun r => .startMeas r.ch) ∧ ReqOp 0x0A (fun r => .stopMeas r.ch)
  ∧ ∀ (ch : Byte) (s : State),
    (ch ≤ 3 →
      AfterRmw 0x0C (bitBecomes (7 - ch.toNat) true) s
        (fun st t => exec (.startMeas ch) s = .next (respond (plainResult st) t))
      ∧ AfterRmw 0x0C (bitBecomes (7 - ch.toNat) false) s
        (fun st t => exec (.stopMeas ch) s = .next (respond (plainResult st) t)))
    ∧ (3 < ch →
      exec (.startMeas ch) s = .next (respond (plainResult .configError) s)
      ∧ exec (.stopMeas ch) s = .next (respond (plainResult .configError) s))

/-- `41_register_codec.md` R159, R160, R162: IS_DONE tests bit `3 - ch` of FDC_CONF, NEW_DATA gives
bits 3:0, RD_RATE bits 11:10; a failed read gives CommError, a channel above 3 ConfigError. -/
def Obligations.FdcConfReadsResult : Prop :=
  ReqOp 0x0B (fun r => .isDone r.ch)
    ∧ ReqOp 0x0C (fun _ => .newData)
    ∧ ReqOp 0x0E (fun _ => .rdRate)
  ∧ ∀ (ch : Byte) (s : State),
    (ch ≤ 3 → AfterReads [0x0C] s
      (fun ws t => ∃ w, ws = [w] ∧ exec (.isDone ch) s = .next (respond
        { status := .ok, rdata := 0, rval := 0, rbool := w.getLsbD (3 - ch.toNat) } t))
      (fun t => exec (.isDone ch) s = .next (respond (plainResult .commError) t)))
    ∧ (3 < ch → exec (.isDone ch) s = .next (respond (plainResult .configError) s))
    ∧ AfterReads [0x0C] s
      (fun ws t => ∃ w, ws = [w]
        ∧ exec .newData s = .next (respond
          { status := .ok, rdata := BitVec.ofNat 32 (field w 3 0), rval := 0, rbool := false } t)
        ∧ exec .rdRate s = .next (respond
          { status := .ok, rdata := BitVec.ofNat 32 (field w 11 10), rval := 0,
            rbool := false } t))
      (fun t => exec .newData s = .next (respond (plainResult .commError) t)
        ∧ exec .rdRate s = .next (respond (plainResult .commError) t))

/-- `41_register_codec.md` R161: SET_RATE accepts 1, 2 and 3 only, and writes FDC_CONF bits 11:10 by
RMW, every other bit as read. -/
def Obligations.SetRateResult : Prop :=
  ReqOp 0x0D (fun r => .setRate r.a)
  ∧ ∀ (a : Byte) (s : State),
    (1 ≤ a ∧ a ≤ 3 → AfterRmw 0x0C (rateBecomes a.toNat) s
      (fun st t => exec (.setRate a) s = .next (respond (plainResult st) t)))
    ∧ (¬ (1 ≤ a ∧ a ≤ 3) → exec (.setRate a) s = .next (respond (plainResult .configError) s))

/-- `41_register_codec.md` R163, `30_encoding.md` R125: EN_REPEAT reads FDC_CONF once, writes it with
the initiate bits 7:4 cleared, then with bit 8 set and bit `7 - i` as mask bit i; if the second
write fails the first stays. R164: DIS_REPEAT clears FDC_CONF bit 8 only. -/
def Obligations.RepeatModeResult : Prop :=
  ReqOp 0x0F (fun r => .enRepeat r.a) ∧ ReqOp 0x10 (fun _ => .disRepeat)
  ∧ ∀ (m : Byte) (s : State),
    (m ≤ 0x0F → AfterReads [0x0C] s
      (fun ws s1 => ∃ w w1 w2 : Word, ws = [w]
        ∧ (∀ j < 16, w1.getLsbD j = if 4 ≤ j ∧ j ≤ 7 then false else w.getLsbD j)
        ∧ (∀ j < 16, w2.getLsbD j =
            if 4 ≤ j ∧ j ≤ 7 then m.getLsbD (7 - j) else if j = 8 then true else w.getLsbD j)
        ∧ AfterWrite 0x0C w1 s1 (fun st s2 =>
            if st = .ok then AfterWrite 0x0C w2 s2
              (fun st t => exec (.enRepeat m) s = .next (respond (plainResult st) t))
            else exec (.enRepeat m) s = .next (respond (plainResult st) s2)))
      (fun t => exec (.enRepeat m) s = .next (respond (plainResult .commError) t)))
    ∧ (0x0F < m → exec (.enRepeat m) s = .next (respond (plainResult .configError) s))
    ∧ AfterRmw 0x0C (bitBecomes 8 false) s
      (fun st t => exec .disRepeat s = .next (respond (plainResult st) t))

/-- `41_register_codec.md` R165: RD_RAW reads MEAS_MSB then MEAS_LSB and gives `{hi, lo}` with the low
8 bits 0; the first failed read ends it with CommError, a channel above 3 gives ConfigError. -/
def Obligations.ReadRawResult : Prop :=
  ReqOp 0x11 (fun r => .rdRaw r.ch)
  ∧ ∀ (ch : Byte) (s : State),
    (ch ≤ 3 → AfterReads [0x00 + 2 * ch, 0x01 + 2 * ch] s
      (fun ws t => ∃ hi lo, ws = [hi, lo] ∧ exec (.rdRaw ch) s = .next (respond
        { status := .ok
          rdata := BitVec.ofNat 32 (hi.toNat * 2 ^ 16 + field lo 15 8 * 2 ^ 8)
          rval := 0
          rbool := false } t))
      (fun t => exec (.rdRaw ch) s = .next (respond (plainResult .commError) t)))
    ∧ (3 < ch → exec (.rdRaw ch) s = .next (respond (plainResult .configError) s))

/-- `41_register_codec.md` R166: RD_MEAS reads MEAS_MSB, MEAS_LSB, then CONF_MEAS, and gives the
24-bit value over 2^19 plus CAPDAC times 3.125, exactly; the first failed read ends it with CommError,
a channel above 3 gives ConfigError. -/
def Obligations.ReadMeasurementResult : Prop :=
  ReqOp 0x12 (fun r => .rdMeas r.ch)
  ∧ ∀ (ch : Byte) (s : State),
    (ch ≤ 3 → AfterReads [0x00 + 2 * ch, 0x01 + 2 * ch, 0x08 + ch] s
      (fun ws t => ∃ hi lo w x, ws = [hi, lo, w] ∧ f64IsFinite x = true
        ∧ f64Real x = ((BitVec.ofNat 24 (hi.toNat * 2 ^ 8 + field lo 15 8)).toInt : ℚ) / 2 ^ 19
            + field w 9 5 * (25 / 8)
        ∧ exec (.rdMeas ch) s
          = .next (respond { status := .ok, rdata := 0, rval := x, rbool := false } t))
      (fun t => exec (.rdMeas ch) s = .next (respond (plainResult .commError) t)))
    ∧ (3 < ch → exec (.rdMeas ch) s = .next (respond (plainResult .configError) s))

/-- `41_register_codec.md` R167, `70_reset_and_hazards.md` R303: RESET sets bit 15 of FDC_CONF by RMW,
then polls it at most P_RESET_POLL_LIMIT times; CMD_RESET (`42_command_protocol.md` R212) does the
same and replies with the notice of the status. -/
def Obligations.ResetPollsUntilCleared : Prop :=
  ReqOp 0x13 (fun _ => .reset) ∧ CmdByte Params.cmdReset .cmdReset
  ∧ ∀ s : State,
    AfterReset s (fun st t => exec .reset s = .next (respond (plainResult st) t))
    ∧ AfterReset s (fun st t => exec .cmdReset s = .next (emit (.notice (noticeOf st)) t))

/-- `41_register_codec.md` R168, R169: PRESENT gives the probe's Boolean and never fails; RD_ID reads
0xFE or 0xFF. -/
def Obligations.PresenceAndIdentityResult : Prop :=
  ReqOp 0x14 (fun _ => .present) ∧ ReqOp 0x15 (fun r => .rdId r.a)
  ∧ ∀ (a : Byte) (s : State),
    exec .present s = .next (respond
      { status := .ok, rdata := 0, rval := 0, rbool := (busProbe s).1 } (busProbe s).2)
    ∧ (a ≤ 1 → AfterReads [0xFE + a] s
        (fun ws t => ∃ w, ws = [w] ∧ exec (.rdId a) s = .next (respond
          { status := .ok, rdata := BitVec.ofNat 32 w.toNat, rval := 0, rbool := false } t))
        (fun t => exec (.rdId a) s = .next (respond (plainResult .commError) t)))
    ∧ (1 < a → exec (.rdId a) s = .next (respond (plainResult .configError) s))

/-- `30_encoding.md` R94: a reserved op value 0x16 to 0x1F makes no transaction, emits nothing, changes
no state, and returns ConfigError with the error result. -/
def Obligations.ReservedOpsReturnConfigError : Prop :=
  ∀ (r : ReqRecord) (s : State), 0x16 ≤ r.op →
    exec (decodeReq r) s = .next { s with
      results := s.results ++ [{ status := .configError, rdata := 0, rval := 0, rbool := false }] }

/-! ### CMD unit -/

/-- `30_encoding.md` R98, R113 (its codes) and `42_command_protocol.md` R227: the status codes, the
notice codes, and the notice of a status. -/
def Obligations.StatusAndNoticeCodes : Prop :=
  statusCode .ok = 0 ∧ statusCode .commError = 1 ∧ statusCode .configError = 2
  ∧ statusCode .timeout = 3
  ∧ noticeCode (noticeOf .ok) = 0 ∧ noticeCode (noticeOf .commError) = 4
  ∧ noticeCode (noticeOf .configError) = 3 ∧ noticeCode (noticeOf .timeout) = 5
  ∧ noticeCode .tooFew = 1 ∧ noticeCode .timeout = 2

/-- `42_command_protocol.md` R206, R207: an entry byte in Idle opens its command with progress 1 and
the sampled tick as deadline; nothing is emitted, no transaction is made, the scratch bytes stay. -/
def Obligations.EntryBytesOpenTheirCommand : Prop :=
  CmdByte Params.cmdEnterRate .cmdEnterRate ∧ CmdByte Params.cmdEnterChset .cmdEnterChset
  ∧ ∀ s : State,
    exec .cmdEnterRate s = .next { s with session :=
        { mode := .awaiting, kind := .rate, progress := 1, deadline := s.tick,
          scratch := s.session.scratch } }
    ∧ exec .cmdEnterChset s = .next { s with session :=
        { mode := .awaiting, kind := .chset, progress := 1, deadline := s.tick,
          scratch := s.session.scratch } }

/-- `42_command_protocol.md` R213, R214, R215, R216: the replies of the id, rate and presence
commands, with the sentinel 0xFF on a failed read. -/
def Obligations.ReadCommandReplies : Prop :=
  CmdByte Params.cmdMfrId .cmdMfrId
    ∧ CmdByte Params.cmdDevId .cmdDevId
    ∧ CmdByte Params.cmdRdRate .cmdRdRate
    ∧ CmdByte Params.cmdSensor .cmdSensor
  ∧ ∀ s : State,
    AfterReads [0xFE] s
      (fun ws t => ∃ w, ws = [w] ∧ exec .cmdMfrId s = .next (emit (.packet
        [0xA0, s.params.pktMfrId, BitVec.ofNat 8 (field w 15 8), BitVec.ofNat 8 (field w 7 0),
          0xC0]) t))
      (fun t => exec .cmdMfrId s
        = .next (emit (.packet [0xA0, s.params.pktMfrId, 0xFF, 0xFF, 0xC0]) t))
    ∧ AfterReads [0xFF] s
      (fun ws t => ∃ w, ws = [w] ∧ exec .cmdDevId s = .next (emit (.packet
        [0xA0, s.params.pktDevId, BitVec.ofNat 8 (field w 15 8), BitVec.ofNat 8 (field w 7 0),
          0xC0]) t))
      (fun t => exec .cmdDevId s
        = .next (emit (.packet [0xA0, s.params.pktDevId, 0xFF, 0xFF, 0xC0]) t))
    ∧ AfterReads [0x0C] s
      (fun ws t => ∃ w, ws = [w] ∧ exec .cmdRdRate s = .next (emit (.packet
        [0xA0, s.params.pktRate, BitVec.ofNat 8 (field w 11 10), 0xC0]) t))
      (fun t => exec .cmdRdRate s = .next (emit (.packet [0xA0, s.params.pktRate, 0xFF, 0xC0]) t))
    ∧ exec .cmdSensor s = .next (emit (.packet
        [0xA0, s.params.pktSensor, if (busProbe s).1 then 0x01 else 0x00, 0xC0]) (busProbe s).2)

/-- `42_command_protocol.md` R217 to R220, with the payload of R225: read-channel-settings reads
CONF_MEAS, OFFSET_CAL and GAIN_CAL of its channel in that order and replies with one packet of the
channel and CAPDAC, the two inputs, and the two words, the high byte first; a failed read ends the
reads and gives six 0xFF bytes. -/
def Obligations.ChannelSettingsReply : Prop :=
  CmdByte Params.cmdRdCh0 .cmdRdCh0
    ∧ CmdByte Params.cmdRdCh1 .cmdRdCh1
    ∧ CmdByte Params.cmdRdCh2 .cmdRdCh2
    ∧ CmdByte Params.cmdRdCh3 .cmdRdCh3
  ∧ ∀ (s : State), ∀ ic ∈ [(Instr.cmdRdCh0, 0), (.cmdRdCh1, 1), (.cmdRdCh2, 2), (.cmdRdCh3, 3)],
    AfterReads [BitVec.ofNat 8 (0x08 + ic.2), BitVec.ofNat 8 (0x0D + ic.2),
        BitVec.ofNat 8 (0x11 + ic.2)] s
      (fun ws t => ∃ w off g, ws = [w, off, g] ∧ exec ic.1 s = .next (emit (.packet
        [0xA0, s.params.pktChset, BitVec.ofNat 8 (ic.2 * 64 + field w 9 5),
          BitVec.ofNat 8 (field w 15 13 * 16 + field w 12 10),
          BitVec.ofNat 8 (field off 15 8), BitVec.ofNat 8 (field off 7 0),
          BitVec.ofNat 8 (field g 15 8), BitVec.ofNat 8 (field g 7 0), 0xC0]) t))
      (fun t => exec ic.1 s = .next (emit (.packet
        [0xA0, s.params.pktChset, 0xFF, 0xFF, 0xFF, 0xFF, 0xFF, 0xFF, 0xC0]) t))

/-- `42_command_protocol.md` R221 to R224: the start command of each channel sets its initiate bit
and replies with the notice of the status. -/
def Obligations.StartCommandReply : Prop :=
  CmdByte Params.cmdStart0 .cmdStart0
    ∧ CmdByte Params.cmdStart1 .cmdStart1
    ∧ CmdByte Params.cmdStart2 .cmdStart2
    ∧ CmdByte Params.cmdStart3 .cmdStart3
  ∧ ∀ (s : State),
    ∀ ic ∈ [(Instr.cmdStart0, 0), (.cmdStart1, 1), (.cmdStart2, 2), (.cmdStart3, 3)],
      AfterRmw 0x0C (bitBecomes (7 - ic.2) true) s
        (fun st t => exec ic.1 s = .next (emit (.notice (noticeOf st)) t))

/-- `42_command_protocol.md` R208, `30_encoding.md` R105: the digit byte stores its ordinal, 0 for a
non-digit, and moves to progress 2; any byte is accepted and nothing else changes. That it has
this effect at a position other than RATE at progress 1 too, which no run reaches, is the model's choice (log entry 10). -/
def Obligations.RateDigitStoresOrdinal : Prop :=
  SeqByte (.rate 1) .seqRateDigit
  ∧ ∀ (b : Byte) (s : State), ∃ v : Vector Byte 6,
    v[0].toNat = (if 0x30 ≤ b.toNat ∧ b.toNat ≤ 0x39 then b.toNat - 0x30 else 0)
    ∧ (∀ k : Fin 6, k ≠ 0 → v[k] = s.session.scratch[k])
    ∧ exec (.seqRateDigit b) s
      = .next { s with session := { s.session with scratch := v, progress := 2 } }

/-- `42_command_protocol.md` R209: the RATE latch goes back to Idle; a byte other than P_LATCH gives
N_TOO_FEW and nothing else; P_LATCH runs SET_RATE with the stored ordinal and gives the notice of its
status, N_CONFIG without a transaction for an ordinal outside 1..3. That it has this effect at a
position other than RATE at progress 2 too, which no run reaches, is the model's choice (log entry
10). -/
def Obligations.RateLatchResult : Prop :=
  SeqByte (.rate 2) .seqRateLatch
  ∧ ∀ (b : Byte) (s s0 : State), s0 = { s with session := { s.session with mode := .idle } } →
    (b ≠ s.params.latch → exec (.seqRateLatch b) s = .next (emit (.notice .tooFew) s0))
    ∧ (b = s.params.latch → 1 ≤ s.session.scratch[0] → s.session.scratch[0] ≤ 3 →
        AfterRmw 0x0C (rateBecomes s.session.scratch[0].toNat) s0
          (fun st t => exec (.seqRateLatch b) s = .next (emit (.notice (noticeOf st)) t)))
    ∧ (b = s.params.latch → ¬ (1 ≤ s.session.scratch[0] ∧ s.session.scratch[0] ≤ 3) →
        exec (.seqRateLatch b) s = .next (emit (.notice .config) s0))

/-- `42_command_protocol.md` R210: a payload byte at progress 1 to 6 is stored at its place whatever
its value, and progress advances; at another progress, which no run reaches, the model stops by
name (log entry 10). -/
def Obligations.PayloadByteIsStored : Prop :=
  (∀ k : BitVec 3, 1 ≤ k.toNat → k.toNat ≤ 6 → SeqByte (.chset k) .seqChsetPayload)
  ∧ ∀ (b : Byte) (s : State),
    (1 ≤ s.session.progress.toNat → s.session.progress.toNat ≤ 6 → ∃ v : Vector Byte 6,
      (∀ k : Fin 6, v[k]
        = if k.val = s.session.progress.toNat - 1 then b else s.session.scratch[k])
      ∧ exec (.seqChsetPayload b) s = .next { s with session :=
          { s.session with
            scratch := v
            progress := BitVec.ofNat 3 (s.session.progress.toNat + 1) } })
    ∧ (s.session.progress.toNat = 0 ∨ s.session.progress.toNat = 7 →
      exec (.seqChsetPayload b) s = .fault .sessionPosition)

/-- `42_command_protocol.md` R211: the CHSET latch. With legal inputs it configures the channel by
RMW, then writes exactly the received offset word, then exactly the received gain word; the first
failure skips the rest, earlier writes stay, one notice tells the status. That the domain checks always
pass and exactly the received words are written is R211's sentence "The FXP round trip then writes
exactly `off` and `gain`", which the spec marks as derived from `40_fixed_point.md` R135 and R136. That
the latch has this effect at a progress other than 7 too, which no run reaches, is the model's choice
(log entry 10). -/
def Obligations.ChannelSettingsLatchResult : Prop :=
  SeqByte (.chset 7) .seqChsetLatch
  ∧ ∀ (b : Byte) (s s0 : State) (p : Vector Byte 6),
    s0 = { s with session := { s.session with mode := .idle } } → p = s.session.scratch →
    (b ≠ s.params.latch → exec (.seqChsetLatch b) s = .next (emit (.notice .tooFew) s0))
    ∧ (b = s.params.latch →
        inputsLegal (p[1].toNat / 16) (p[1].toNat % 16) (p[0].toNat % 32) →
        AfterRmw (BitVec.ofNat 8 (0x08 + p[0].toNat / 64))
          (confBecomes (p[1].toNat / 16) (p[1].toNat % 16) (p[0].toNat % 32)) s0
          (fun st s1 =>
            if st = .ok then
              AfterWrite (BitVec.ofNat 8 (0x0D + p[0].toNat / 64)) (wordOfBytes p[2] p[3]) s1
                (fun st s2 =>
                  if st = .ok then
                    AfterWrite (BitVec.ofNat 8 (0x11 + p[0].toNat / 64)) (wordOfBytes p[4] p[5]) s2
                      (fun st t =>
                        exec (.seqChsetLatch b) s = .next (emit (.notice (noticeOf st)) t))
                  else exec (.seqChsetLatch b) s = .next (emit (.notice (noticeOf st)) s2))
            else exec (.seqChsetLatch b) s = .next (emit (.notice (noticeOf st)) s1)))
    ∧ (b = s.params.latch →
        ¬ inputsLegal (p[1].toNat / 16) (p[1].toNat % 16) (p[0].toNat % 32) →
        exec (.seqChsetLatch b) s = .next (emit (.notice .config) s0))

/-- `42_command_protocol.md` R230, R231: the data check reads FDC_CONF; unless all four done bits are
set it does nothing more; else it emits one 0xA1 packet of the four channels' data, channel 0 first,
each channel read whether or not an earlier one failed. -/
def Obligations.DataCheckEmitsTheDataPacket : Prop :=
  ∀ s : State, AfterReads [0x0C] s
    (fun ws s0 => ∃ w, ws = [w]
      ∧ (field w 3 0 ≠ 15 → dataCheck s = s0)
      ∧ (field w 3 0 = 15 → ∃ (pl0 pl1 pl2 pl3 : List Byte) (s1 s2 s3 s4 : State),
          ChannelData 0 s0 pl0 s1 ∧ ChannelData 1 s1 pl1 s2 ∧ ChannelData 2 s2 pl2 s3
          ∧ ChannelData 3 s3 pl3 s4
          ∧ dataCheck s = emit (.packet
              ([0xA1, s.params.pktData] ++ pl0 ++ pl1 ++ pl2 ++ pl3 ++ [0xC0])) s4))
    (fun s0 => dataCheck s = s0)
end

