-- ==== Sys2Proof/Laws/State.lean ====
section
/-! SUPPORT. For every update of the state, one lemma per field: what it holds afterwards. -/

namespace Sys2Proof.Machine

/-! ### `logBus` -/

@[simp] theorem logBus_params (e : BusEvent) (s : State) : (logBus e s).params = s.params := rfl
@[simp] theorem logBus_session (e : BusEvent) (s : State) : (logBus e s).session = s.session := rfl
@[simp] theorem logBus_out (e : BusEvent) (s : State) : (logBus e s).out = s.out := rfl
@[simp] theorem logBus_regs (e : BusEvent) (s : State) : (logBus e s).regs = s.regs := rfl
@[simp] theorem logBus_turns (e : BusEvent) (s : State) : (logBus e s).turns = s.turns := rfl
@[simp] theorem logBus_freeTurns (e : BusEvent) (s : State) : (logBus e s).freeTurns = s.freeTurns := rfl
@[simp] theorem logBus_bus (e : BusEvent) (s : State) : (logBus e s).bus = s.bus ++ [e] := rfl
@[simp] theorem logBus_results (e : BusEvent) (s : State) : (logBus e s).results = s.results := rfl
@[simp] theorem logBus_pending (e : BusEvent) (s : State) : (logBus e s).pending = s.pending := rfl
@[simp] theorem logBus_tick (e : BusEvent) (s : State) : (logBus e s).tick = s.tick := rfl

/-! ### `respond` -/

@[simp] theorem respond_params (r : ReqResult) (s : State) : (respond r s).params = s.params := rfl
@[simp] theorem respond_session (r : ReqResult) (s : State) : (respond r s).session = s.session := rfl
@[simp] theorem respond_out (r : ReqResult) (s : State) : (respond r s).out = s.out := rfl
@[simp] theorem respond_regs (r : ReqResult) (s : State) : (respond r s).regs = s.regs := rfl
@[simp] theorem respond_turns (r : ReqResult) (s : State) : (respond r s).turns = s.turns := rfl
@[simp] theorem respond_freeTurns (r : ReqResult) (s : State) : (respond r s).freeTurns = s.freeTurns := rfl
@[simp] theorem respond_bus (r : ReqResult) (s : State) : (respond r s).bus = s.bus := rfl
@[simp] theorem respond_results (r : ReqResult) (s : State) : (respond r s).results = s.results ++ [r] := rfl
@[simp] theorem respond_pending (r : ReqResult) (s : State) : (respond r s).pending = s.pending := rfl
@[simp] theorem respond_tick (r : ReqResult) (s : State) : (respond r s).tick = s.tick := rfl

/-! ### `emit` -/

@[simp] theorem emit_params (e : OutEvent) (s : State) : (emit e s).params = s.params := rfl
@[simp] theorem emit_session (e : OutEvent) (s : State) : (emit e s).session = s.session := rfl
@[simp] theorem emit_out (e : OutEvent) (s : State) : (emit e s).out = s.out ++ [e] := rfl
@[simp] theorem emit_regs (e : OutEvent) (s : State) : (emit e s).regs = s.regs := rfl
@[simp] theorem emit_turns (e : OutEvent) (s : State) : (emit e s).turns = s.turns := rfl
@[simp] theorem emit_freeTurns (e : OutEvent) (s : State) : (emit e s).freeTurns = s.freeTurns := rfl
@[simp] theorem emit_bus (e : OutEvent) (s : State) : (emit e s).bus = s.bus := rfl
@[simp] theorem emit_results (e : OutEvent) (s : State) : (emit e s).results = s.results := rfl
@[simp] theorem emit_pending (e : OutEvent) (s : State) : (emit e s).pending = s.pending := rfl
@[simp] theorem emit_tick (e : OutEvent) (s : State) : (emit e s).tick = s.tick := rfl

/-! ### `emitReply` -/

@[simp] theorem emitReply_params (id : Byte) (pl : List Byte) (s : State) : (emitReply id pl s).params = s.params := rfl
@[simp] theorem emitReply_session (id : Byte) (pl : List Byte) (s : State) : (emitReply id pl s).session = s.session := rfl
@[simp] theorem emitReply_out (id : Byte) (pl : List Byte) (s : State) : (emitReply id pl s).out = s.out ++ [.packet (frame Config.hdrReply id pl)] := rfl
@[simp] theorem emitReply_regs (id : Byte) (pl : List Byte) (s : State) : (emitReply id pl s).regs = s.regs := rfl
@[simp] theorem emitReply_turns (id : Byte) (pl : List Byte) (s : State) : (emitReply id pl s).turns = s.turns := rfl
@[simp] theorem emitReply_freeTurns (id : Byte) (pl : List Byte) (s : State) : (emitReply id pl s).freeTurns = s.freeTurns := rfl
@[simp] theorem emitReply_bus (id : Byte) (pl : List Byte) (s : State) : (emitReply id pl s).bus = s.bus := rfl
@[simp] theorem emitReply_results (id : Byte) (pl : List Byte) (s : State) : (emitReply id pl s).results = s.results := rfl
@[simp] theorem emitReply_pending (id : Byte) (pl : List Byte) (s : State) : (emitReply id pl s).pending = s.pending := rfl
@[simp] theorem emitReply_tick (id : Byte) (pl : List Byte) (s : State) : (emitReply id pl s).tick = s.tick := rfl

/-! ### `toIdle` -/

@[simp] theorem toIdle_params (s : State) : (toIdle s).params = s.params := rfl
@[simp] theorem toIdle_session (s : State) : (toIdle s).session = { s.session with mode := .idle } := rfl
@[simp] theorem toIdle_out (s : State) : (toIdle s).out = s.out := rfl
@[simp] theorem toIdle_regs (s : State) : (toIdle s).regs = s.regs := rfl
@[simp] theorem toIdle_turns (s : State) : (toIdle s).turns = s.turns := rfl
@[simp] theorem toIdle_freeTurns (s : State) : (toIdle s).freeTurns = s.freeTurns := rfl
@[simp] theorem toIdle_bus (s : State) : (toIdle s).bus = s.bus := rfl
@[simp] theorem toIdle_results (s : State) : (toIdle s).results = s.results := rfl
@[simp] theorem toIdle_pending (s : State) : (toIdle s).pending = s.pending := rfl
@[simp] theorem toIdle_tick (s : State) : (toIdle s).tick = s.tick := rfl

/-! ### `enterAwaiting` -/

@[simp] theorem enterAwaiting_params (k : Kind) (s : State) : (enterAwaiting k s).params = s.params := rfl
@[simp] theorem enterAwaiting_session (k : Kind) (s : State) : (enterAwaiting k s).session = 
      { s.session with mode := .awaiting, kind := k, progress := 1, deadline := s.tick } := rfl
@[simp] theorem enterAwaiting_out (k : Kind) (s : State) : (enterAwaiting k s).out = s.out := rfl
@[simp] theorem enterAwaiting_regs (k : Kind) (s : State) : (enterAwaiting k s).regs = s.regs := rfl
@[simp] theorem enterAwaiting_turns (k : Kind) (s : State) : (enterAwaiting k s).turns = s.turns := rfl
@[simp] theorem enterAwaiting_freeTurns (k : Kind) (s : State) : (enterAwaiting k s).freeTurns = s.freeTurns := rfl
@[simp] theorem enterAwaiting_bus (k : Kind) (s : State) : (enterAwaiting k s).bus = s.bus := rfl
@[simp] theorem enterAwaiting_results (k : Kind) (s : State) : (enterAwaiting k s).results = s.results := rfl
@[simp] theorem enterAwaiting_pending (k : Kind) (s : State) : (enterAwaiting k s).pending = s.pending := rfl
@[simp] theorem enterAwaiting_tick (k : Kind) (s : State) : (enterAwaiting k s).tick = s.tick := rfl

/-! ### `sampleTick` -/

@[simp] theorem sampleTick_params (now : Tick) (s : State) : (sampleTick now s).params = s.params := rfl
@[simp] theorem sampleTick_session (now : Tick) (s : State) : (sampleTick now s).session = s.session := rfl
@[simp] theorem sampleTick_out (now : Tick) (s : State) : (sampleTick now s).out = s.out := rfl
@[simp] theorem sampleTick_regs (now : Tick) (s : State) : (sampleTick now s).regs = s.regs := rfl
@[simp] theorem sampleTick_turns (now : Tick) (s : State) : (sampleTick now s).turns = s.turns := rfl
@[simp] theorem sampleTick_freeTurns (now : Tick) (s : State) : (sampleTick now s).freeTurns = s.freeTurns := rfl
@[simp] theorem sampleTick_bus (now : Tick) (s : State) : (sampleTick now s).bus = s.bus := rfl
@[simp] theorem sampleTick_results (now : Tick) (s : State) : (sampleTick now s).results = s.results := rfl
@[simp] theorem sampleTick_pending (now : Tick) (s : State) : (sampleTick now s).pending = s.pending := rfl
@[simp] theorem sampleTick_tick (now : Tick) (s : State) : (sampleTick now s).tick = wrapTick s.params now := rfl

/-! ### `setScratch` -/

@[simp] theorem setScratch_params (k : Nat) (b : Byte) (s : State) : (setScratch k b s).params = s.params := rfl
@[simp] theorem setScratch_session (k : Nat) (b : Byte) (s : State) : (setScratch k b s).session = 
      { s.session with scratch := s.session.scratch.setIfInBounds k b } := rfl
@[simp] theorem setScratch_out (k : Nat) (b : Byte) (s : State) : (setScratch k b s).out = s.out := rfl
@[simp] theorem setScratch_regs (k : Nat) (b : Byte) (s : State) : (setScratch k b s).regs = s.regs := rfl
@[simp] theorem setScratch_turns (k : Nat) (b : Byte) (s : State) : (setScratch k b s).turns = s.turns := rfl
@[simp] theorem setScratch_freeTurns (k : Nat) (b : Byte) (s : State) : (setScratch k b s).freeTurns = s.freeTurns := rfl
@[simp] theorem setScratch_bus (k : Nat) (b : Byte) (s : State) : (setScratch k b s).bus = s.bus := rfl
@[simp] theorem setScratch_results (k : Nat) (b : Byte) (s : State) : (setScratch k b s).results = s.results := rfl
@[simp] theorem setScratch_pending (k : Nat) (b : Byte) (s : State) : (setScratch k b s).pending = s.pending := rfl
@[simp] theorem setScratch_tick (k : Nat) (b : Byte) (s : State) : (setScratch k b s).tick = s.tick := rfl

/-! ### `setProgress` -/

@[simp] theorem setProgress_params (k : BitVec 3) (s : State) : (setProgress k s).params = s.params := rfl
@[simp] theorem setProgress_session (k : BitVec 3) (s : State) : (setProgress k s).session = { s.session with progress := k } := rfl
@[simp] theorem setProgress_out (k : BitVec 3) (s : State) : (setProgress k s).out = s.out := rfl
@[simp] theorem setProgress_regs (k : BitVec 3) (s : State) : (setProgress k s).regs = s.regs := rfl
@[simp] theorem setProgress_turns (k : BitVec 3) (s : State) : (setProgress k s).turns = s.turns := rfl
@[simp] theorem setProgress_freeTurns (k : BitVec 3) (s : State) : (setProgress k s).freeTurns = s.freeTurns := rfl
@[simp] theorem setProgress_bus (k : BitVec 3) (s : State) : (setProgress k s).bus = s.bus := rfl
@[simp] theorem setProgress_results (k : BitVec 3) (s : State) : (setProgress k s).results = s.results := rfl
@[simp] theorem setProgress_pending (k : BitVec 3) (s : State) : (setProgress k s).pending = s.pending := rfl
@[simp] theorem setProgress_tick (k : BitVec 3) (s : State) : (setProgress k s).tick = s.tick := rfl

/-! ### `timeoutAbort` -/

@[simp] theorem timeoutAbort_params (s : State) : (timeoutAbort s).params = s.params := rfl
@[simp] theorem timeoutAbort_session (s : State) : (timeoutAbort s).session = { s.session with mode := .idle } := rfl
@[simp] theorem timeoutAbort_out (s : State) : (timeoutAbort s).out = s.out ++ [.notice .timeout] := rfl
@[simp] theorem timeoutAbort_regs (s : State) : (timeoutAbort s).regs = s.regs := rfl
@[simp] theorem timeoutAbort_turns (s : State) : (timeoutAbort s).turns = s.turns := rfl
@[simp] theorem timeoutAbort_freeTurns (s : State) : (timeoutAbort s).freeTurns = s.freeTurns := rfl
@[simp] theorem timeoutAbort_bus (s : State) : (timeoutAbort s).bus = s.bus := rfl
@[simp] theorem timeoutAbort_results (s : State) : (timeoutAbort s).results = s.results := rfl
@[simp] theorem timeoutAbort_pending (s : State) : (timeoutAbort s).pending = s.pending := rfl
@[simp] theorem timeoutAbort_tick (s : State) : (timeoutAbort s).tick = s.tick := rfl

/-! ### `State.consumeOut` -/

@[simp] theorem consumeOut_params (n : Nat) (s : State) : (State.consumeOut n s).params = s.params := rfl
@[simp] theorem consumeOut_session (n : Nat) (s : State) : (State.consumeOut n s).session = s.session := rfl
@[simp] theorem consumeOut_out (n : Nat) (s : State) : (State.consumeOut n s).out = s.out.drop n := rfl
@[simp] theorem consumeOut_regs (n : Nat) (s : State) : (State.consumeOut n s).regs = s.regs := rfl
@[simp] theorem consumeOut_turns (n : Nat) (s : State) : (State.consumeOut n s).turns = s.turns := rfl
@[simp] theorem consumeOut_freeTurns (n : Nat) (s : State) : (State.consumeOut n s).freeTurns = s.freeTurns := rfl
@[simp] theorem consumeOut_bus (n : Nat) (s : State) : (State.consumeOut n s).bus = s.bus := rfl
@[simp] theorem consumeOut_results (n : Nat) (s : State) : (State.consumeOut n s).results = s.results := rfl
@[simp] theorem consumeOut_pending (n : Nat) (s : State) : (State.consumeOut n s).pending = s.pending := rfl
@[simp] theorem consumeOut_tick (n : Nat) (s : State) : (State.consumeOut n s).tick = s.tick := rfl

/-! ### `State.blockReset` -/

@[simp] theorem blockReset_params (s : State) : (State.blockReset s).params = s.params := rfl
@[simp] theorem blockReset_session (s : State) : (State.blockReset s).session = Session.reset := rfl
@[simp] theorem blockReset_out (s : State) : (State.blockReset s).out = [] := rfl
@[simp] theorem blockReset_regs (s : State) : (State.blockReset s).regs = s.regs := rfl
@[simp] theorem blockReset_turns (s : State) : (State.blockReset s).turns = s.turns := rfl
@[simp] theorem blockReset_freeTurns (s : State) : (State.blockReset s).freeTurns = s.freeTurns := rfl
@[simp] theorem blockReset_bus (s : State) : (State.blockReset s).bus = s.bus := rfl
@[simp] theorem blockReset_results (s : State) : (State.blockReset s).results = s.results := rfl
@[simp] theorem blockReset_pending (s : State) : (State.blockReset s).pending = s.pending := rfl
@[simp] theorem blockReset_tick (s : State) : (State.blockReset s).tick = s.tick := rfl

/-! ### `State.offer` -/

@[simp] theorem offer_params (i : StepInput) (s : State) : (State.offer i s).params = s.params := rfl
@[simp] theorem offer_session (i : StepInput) (s : State) : (State.offer i s).session = s.session := rfl
@[simp] theorem offer_out (i : StepInput) (s : State) : (State.offer i s).out = s.out := rfl
@[simp] theorem offer_regs (i : StepInput) (s : State) : (State.offer i s).regs = s.regs := rfl
@[simp] theorem offer_turns (i : StepInput) (s : State) : (State.offer i s).turns = s.turns := rfl
@[simp] theorem offer_freeTurns (i : StepInput) (s : State) : (State.offer i s).freeTurns = s.freeTurns := rfl
@[simp] theorem offer_bus (i : StepInput) (s : State) : (State.offer i s).bus = s.bus := rfl
@[simp] theorem offer_results (i : StepInput) (s : State) : (State.offer i s).results = s.results := rfl
@[simp] theorem offer_pending (i : StepInput) (s : State) : (State.offer i s).pending = i :: s.pending := rfl
@[simp] theorem offer_tick (i : StepInput) (s : State) : (State.offer i s).tick = s.tick := rfl

/-! ### `State.devSets` -/

@[simp] theorem devSets_params (r : Byte) (w : Word) (s : State) : (State.devSets r w s).params = s.params := rfl
@[simp] theorem devSets_session (r : Byte) (w : Word) (s : State) : (State.devSets r w s).session = s.session := rfl
@[simp] theorem devSets_out (r : Byte) (w : Word) (s : State) : (State.devSets r w s).out = s.out := rfl
@[simp] theorem devSets_regs (r : Byte) (w : Word) (s : State) : (State.devSets r w s).regs = regWrite s.regs r w := rfl
@[simp] theorem devSets_turns (r : Byte) (w : Word) (s : State) : (State.devSets r w s).turns = s.turns := rfl
@[simp] theorem devSets_freeTurns (r : Byte) (w : Word) (s : State) : (State.devSets r w s).freeTurns = s.freeTurns := rfl
@[simp] theorem devSets_bus (r : Byte) (w : Word) (s : State) : (State.devSets r w s).bus = s.bus := rfl
@[simp] theorem devSets_results (r : Byte) (w : Word) (s : State) : (State.devSets r w s).results = s.results := rfl
@[simp] theorem devSets_pending (r : Byte) (w : Word) (s : State) : (State.devSets r w s).pending = s.pending := rfl
@[simp] theorem devSets_tick (r : Byte) (w : Word) (s : State) : (State.devSets r w s).tick = s.tick := rfl

/-! ### `State.offerLines` -/

@[simp] theorem offerLines_params (ls : List StepInput) (s : State) : (State.offerLines ls s).params = s.params := rfl
@[simp] theorem offerLines_session (ls : List StepInput) (s : State) : (State.offerLines ls s).session = s.session := rfl
@[simp] theorem offerLines_out (ls : List StepInput) (s : State) : (State.offerLines ls s).out = s.out := rfl
@[simp] theorem offerLines_regs (ls : List StepInput) (s : State) : (State.offerLines ls s).regs = s.regs := rfl
@[simp] theorem offerLines_turns (ls : List StepInput) (s : State) : (State.offerLines ls s).turns = s.turns := rfl
@[simp] theorem offerLines_freeTurns (ls : List StepInput) (s : State) : (State.offerLines ls s).freeTurns = s.freeTurns := rfl
@[simp] theorem offerLines_bus (ls : List StepInput) (s : State) : (State.offerLines ls s).bus = s.bus := rfl
@[simp] theorem offerLines_results (ls : List StepInput) (s : State) : (State.offerLines ls s).results = s.results := rfl
@[simp] theorem offerLines_pending (ls : List StepInput) (s : State) : (State.offerLines ls s).pending = s.pending ++ ls := rfl
@[simp] theorem offerLines_tick (ls : List StepInput) (s : State) : (State.offerLines ls s).tick = s.tick := rfl

/-! ### `deviceMoves` -/

@[simp] theorem deviceMoves_params (s : State) : (deviceMoves s).params = s.params := by
  unfold deviceMoves; split <;> rfl

@[simp] theorem deviceMoves_session (s : State) : (deviceMoves s).session = s.session := by
  unfold deviceMoves; split <;> rfl

@[simp] theorem deviceMoves_out (s : State) : (deviceMoves s).out = s.out := by
  unfold deviceMoves; split <;> rfl

@[simp] theorem deviceMoves_bus (s : State) : (deviceMoves s).bus = s.bus := by
  unfold deviceMoves; split <;> rfl

@[simp] theorem deviceMoves_results (s : State) : (deviceMoves s).results = s.results := by
  unfold deviceMoves; split <;> rfl

@[simp] theorem deviceMoves_pending (s : State) : (deviceMoves s).pending = s.pending := by
  unfold deviceMoves; split <;> rfl

@[simp] theorem deviceMoves_tick (s : State) : (deviceMoves s).tick = s.tick := by
  unfold deviceMoves; split <;> rfl

/-- The device's registers after its move: its changes of that move, and nothing else. -/
@[simp] theorem deviceMoves_regs (s : State) :
    (deviceMoves s).regs = regsChanged s.regs (turnAt s 0).changes := by
  unfold deviceMoves turnAt
  cases h : s.turns <;> simp

/-- The moves left after one move are the later ones. -/
theorem turnAt_deviceMoves (s : State) (k : Nat) : turnAt (deviceMoves s) k = turnAt s (k + 1) := by
  unfold deviceMoves turnAt
  cases h : s.turns with
  | nil => simp [Nat.add_assoc, Nat.add_comm 1 k]
  | cons t ts => simp

/-- The moves a state has left depend on `turns` and `freeTurns` only. -/
theorem turnAt_congr {s t : State} (h1 : t.turns = s.turns) (h2 : t.freeTurns = s.freeTurns)
    (k : Nat) : turnAt t k = turnAt s k := by
  unfold turnAt; rw [h1, h2]

@[simp] theorem turnAt_logBus (e : BusEvent) (s : State) (k : Nat) :
    turnAt (logBus e s) k = turnAt s k := rfl

@[simp] theorem turnAt_respond (r : ReqResult) (s : State) (k : Nat) :
    turnAt (respond r s) k = turnAt s k := rfl

@[simp] theorem turnAt_emit (e : OutEvent) (s : State) (k : Nat) :
    turnAt (emit e s) k = turnAt s k := rfl

@[simp] theorem turnAt_sampleTick (now : Tick) (s : State) (k : Nat) :
    turnAt (sampleTick now s) k = turnAt s k := rfl

@[simp] theorem turnAt_setProgress (p : BitVec 3) (s : State) (k : Nat) :
    turnAt (setProgress p s) k = turnAt s k := rfl

@[simp] theorem turnAt_toIdle (s : State) (k : Nat) : turnAt (toIdle s) k = turnAt s k := rfl

end Sys2Proof.Machine
end

