-- ==== Sys2Proof/Laws/Memory.lean ====
section
/-! SUPPORT. The register memory: every operation keeps the canonical form; a read gives what was
last written there; a write leaves every other byte alone. -/

namespace Sys2Proof.Machine

/-! ### The canonical form -/

theorem memWfFrom_cons {lo a : Nat} {v : Byte} {m : Memory} :
    memWfFrom lo ((a, v) :: m) = true ↔
      lo ≤ a ∧ a < 512 ∧ v ≠ Config.unwrittenByte ∧ memWfFrom (a + 1) m = true := by
  simp [memWfFrom, and_assoc]

/-- A list in form above a higher bound is in form above a lower one. -/
theorem memWfFrom_mono {lo lo' : Nat} {m : Memory} (h : memWfFrom lo m = true) (hl : lo' ≤ lo) :
    memWfFrom lo' m = true := by
  cases m with
  | nil => rfl
  | cons c m =>
    obtain ⟨a, v⟩ := c
    rw [memWfFrom_cons] at h ⊢
    exact ⟨by omega, h.2⟩

/-- Below the bound nothing is listed. -/
theorem memRead_below {lo : Nat} {m : Memory} (h : memWfFrom lo m = true) {a : Nat} (ha : a < lo) :
    memRead m a = Config.unwrittenByte := by
  induction m generalizing lo with
  | nil => rfl
  | cons c m ih =>
    obtain ⟨b, v⟩ := c
    rw [memWfFrom_cons] at h
    have hne : a ≠ b := by omega
    simp only [memRead, if_neg hne]
    exact ih h.2.2.2 (by omega)

theorem memWfFrom_memWrite {lo a : Nat} {m : Memory} (v : Byte) (h : memWfFrom lo m = true)
    (hl : lo ≤ a) (ha : a < 512) : memWfFrom lo (memWrite m a v) = true := by
  induction m generalizing lo with
  | nil =>
    by_cases hv : v = Config.unwrittenByte
    · simp [memWrite, hv, memWfFrom]
    · simp [memWrite, hv, memWfFrom, hl, ha]
  | cons c m ih =>
    obtain ⟨b, w⟩ := c
    have hc := memWfFrom_cons.1 h
    unfold memWrite
    split
    · split
      · exact h
      · rename_i hab hv
        rw [memWfFrom_cons, memWfFrom_cons]
        exact ⟨hl, ha, hv, by omega, hc.2⟩
    · split
      · rename_i hab
        subst hab
        split
        · exact memWfFrom_mono hc.2.2.2 (by omega)
        · rename_i hv
          rw [memWfFrom_cons]
          exact ⟨hl, ha, hv, hc.2.2.2⟩
      · rw [memWfFrom_cons]
        exact ⟨hc.1, hc.2.1, hc.2.2.1, ih hc.2.2.2 (by omega)⟩

/-- A byte write keeps the canonical form. -/
theorem memWrite_wf {m : Memory} (h : Memory.wf m = true) {a : Nat} (ha : a < 512) (v : Byte) :
    Memory.wf (memWrite m a v) = true :=
  memWfFrom_memWrite v h (Nat.zero_le a) ha

theorem hiByteAddr_lt (r : Byte) : hiByteAddr r < 512 := by
  have := r.isLt; unfold hiByteAddr; omega

theorem loByteAddr_lt (r : Byte) : loByteAddr r < 512 := by
  have := r.isLt; unfold loByteAddr; omega

/-- A register write keeps the canonical form. -/
theorem regWrite_wf {m : Memory} (h : Memory.wf m = true) (r : Byte) (w : Word) :
    Memory.wf (regWrite m r w) = true :=
  memWrite_wf (memWrite_wf h (hiByteAddr_lt r) _) (loByteAddr_lt r) _

/-- The device's own changes keep the canonical form. -/
theorem regsChanged_wf {m : Memory} (h : Memory.wf m = true) (cs : List (Byte × Word)) :
    Memory.wf (regsChanged m cs) = true := by
  unfold regsChanged
  induction cs generalizing m with
  | nil => exact h
  | cons c cs ih => exact ih (regWrite_wf h c.1 c.2)

/-- The memory at block reset is in form. -/
theorem reset_regs_wf : Memory.wf State.reset.regs = true := rfl

/-! ### Reading after writing -/

/-- A write leaves every other byte alone. -/
theorem memRead_memWrite_ne {m : Memory} {a b : Nat} (v : Byte) (hab : a ≠ b) :
    memRead (memWrite m b v) a = memRead m a := by
  induction m with
  | nil =>
    unfold memWrite
    split <;> simp [memRead, hab]
  | cons c m ih =>
    obtain ⟨x, w⟩ := c
    unfold memWrite
    split
    · split <;> simp [memRead, hab]
    · split
      · rename_i hx
        subst hx
        split <;> simp [memRead, hab]
      · simp only [memRead]
        split
        · rfl
        · exact ih

theorem memRead_memWriteFrom {lo : Nat} {m : Memory} (h : memWfFrom lo m = true) (a : Nat)
    (v : Byte) : memRead (memWrite m a v) a = v := by
  induction m generalizing lo with
  | nil =>
    unfold memWrite
    split
    · rename_i hv; simp [memRead, hv]
    · simp [memRead]
  | cons c m ih =>
    obtain ⟨x, w⟩ := c
    have hc := memWfFrom_cons.1 h
    unfold memWrite
    split
    · rename_i hax
      split
      · rename_i hv
        simp only [memRead, if_neg (Nat.ne_of_lt hax)]
        rw [memRead_below hc.2.2.2 (by omega), hv]
      · simp [memRead]
    · split
      · rename_i hax
        subst hax
        split
        · rename_i hv
          rw [memRead_below hc.2.2.2 (by omega), hv]
        · simp [memRead]
      · rename_i hax
        simp only [memRead, if_neg hax]
        exact ih hc.2.2.2

/-- A read gives what was last written there. -/
theorem memRead_memWrite_self {m : Memory} (h : Memory.wf m = true) (a : Nat) (v : Byte) :
    memRead (memWrite m a v) a = v :=
  memRead_memWriteFrom h a v

/-- A register write leaves alone every byte that is not one of the register's two. -/
theorem memRead_regWrite_ne {m : Memory} {r : Byte} {w : Word} {a : Nat}
    (h1 : a ≠ hiByteAddr r) (h2 : a ≠ loByteAddr r) : memRead (regWrite m r w) a = memRead m a := by
  unfold regWrite
  rw [memRead_memWrite_ne _ h2, memRead_memWrite_ne _ h1]

theorem hiByteAddr_ne_loByteAddr (r q : Byte) : hiByteAddr r ≠ loByteAddr q := by
  unfold hiByteAddr loByteAddr; omega

theorem memRead_regWrite_hi {m : Memory} (h : Memory.wf m = true) (r : Byte) (w : Word) :
    memRead (regWrite m r w) (hiByteAddr r) = hiByte w := by
  unfold regWrite
  rw [memRead_memWrite_ne _ (hiByteAddr_ne_loByteAddr r r), memRead_memWrite_self h]

theorem memRead_regWrite_lo {m : Memory} (h : Memory.wf m = true) (r : Byte) (w : Word) :
    memRead (regWrite m r w) (loByteAddr r) = loByte w := by
  unfold regWrite
  exact memRead_memWrite_self (memWrite_wf h (hiByteAddr_lt r) _) _ _

theorem wordOfBytes_hi_lo (w : Word) : wordOfBytes (hiByte w) (loByte w) = w := by
  apply BitVec.eq_of_getLsbD_eq
  intro i hi
  simp only [wordOfBytes, hiByte, loByte, BitVec.getLsbD_append, BitVec.getLsbD_extractLsb']
  by_cases h : i < 8
  · simp [h]
  · have : i - 8 < 8 := by omega
    simp [h, this, show 8 + (i - 8) = i by omega]

@[simp] theorem hiByte_wordOfBytes (b0 b1 : Byte) : hiByte (wordOfBytes b0 b1) = b0 := by
  apply BitVec.eq_of_getLsbD_eq
  intro i hi
  unfold hiByte wordOfBytes
  rw [BitVec.getLsbD_extractLsb', BitVec.getLsbD_append]
  simp [hi]

@[simp] theorem loByte_wordOfBytes (b0 b1 : Byte) : loByte (wordOfBytes b0 b1) = b1 := by
  apply BitVec.eq_of_getLsbD_eq
  intro i hi
  unfold loByte wordOfBytes
  rw [BitVec.getLsbD_extractLsb', BitVec.getLsbD_append]
  simp [hi]

/-- A register reads as the word last written to it. -/
theorem regRead_regWrite_self {m : Memory} (h : Memory.wf m = true) (r : Byte) (w : Word) :
    regRead (regWrite m r w) r = w := by
  unfold regRead
  rw [memRead_regWrite_hi h, memRead_regWrite_lo h, wordOfBytes_hi_lo]

/-- Changes of the device that leave a byte alone leave it alone. -/
theorem memRead_regsChanged {m : Memory} {cs : List (Byte × Word)} {a : Nat}
    (h : ¬ byteOfRegs (cs.map Prod.fst) a) : memRead (regsChanged m cs) a = memRead m a := by
  unfold regsChanged
  induction cs generalizing m with
  | nil => rfl
  | cons c cs ih =>
    have hc : a ≠ hiByteAddr c.1 ∧ a ≠ loByteAddr c.1 := by
      constructor <;> intro he <;> exact h ⟨c.1, by simp, by simp [he]⟩
    have ht : ¬ byteOfRegs (cs.map Prod.fst) a := by
      rintro ⟨r, hr, hb⟩
      exact h ⟨r, by simp only [List.map_cons, List.mem_cons]; exact .inr hr, hb⟩
    rw [List.foldl_cons, ih ht, memRead_regWrite_ne hc.1 hc.2]

end Sys2Proof.Machine
end

