-- ==== Sys2Proof/Laws/Ops.lean ====
section
/-! SUPPORT. For each shared operation, once, everything it can do: the three transactions, the REG
operations' plumbing, and `Reach`, the transactions an operation made from one state to another. -/

namespace Sys2Proof.Machine

/-! ### One transaction -/

@[simp] theorem busRead_params (reg : Byte) (s : State) : (busRead reg s).2.params = s.params := by
  simp [busRead]
@[simp] theorem busRead_session (reg : Byte) (s : State) :
    (busRead reg s).2.session = s.session := by simp [busRead]
@[simp] theorem busRead_out (reg : Byte) (s : State) : (busRead reg s).2.out = s.out := by
  simp [busRead]
@[simp] theorem busRead_results (reg : Byte) (s : State) :
    (busRead reg s).2.results = s.results := by simp [busRead]
@[simp] theorem busRead_pending (reg : Byte) (s : State) :
    (busRead reg s).2.pending = s.pending := by simp [busRead]
@[simp] theorem busRead_tick (reg : Byte) (s : State) : (busRead reg s).2.tick = s.tick := by
  simp [busRead]

/-- A Read's log entry carries what it returned. -/
@[simp] theorem busRead_bus (reg : Byte) (s : State) :
    (busRead reg s).2.bus = s.bus ++ [.read s.params.devAddr reg 2 (busRead reg s).1] := by
  simp [busRead, Config.regBytes]

/-- A Read changes the registers only as the device does. -/
@[simp] theorem busRead_regs (reg : Byte) (s : State) :
    (busRead reg s).2.regs = regsChanged s.regs (turnAt s 0).changes := by simp [busRead]

@[simp] theorem turnAt_busRead (reg : Byte) (s : State) (k : Nat) :
    turnAt (busRead reg s).2 k = turnAt s (k + 1) := by
  simp [busRead, turnAt_deviceMoves]

/-- What a Read returns. -/
theorem busRead_fst (reg : Byte) (s : State) :
    (busRead reg s).1 =
      if (turnAt s 0).answers then
        some (memRead (busRead reg s).2.regs (hiByteAddr reg),
          memRead (busRead reg s).2.regs (loByteAddr reg))
      else none := by
  simp [busRead]

@[simp] theorem busWrite_params (reg b0 b1 : Byte) (s : State) :
    (busWrite reg b0 b1 s).2.params = s.params := by
  simp only [busWrite]; split <;> simp
@[simp] theorem busWrite_session (reg b0 b1 : Byte) (s : State) :
    (busWrite reg b0 b1 s).2.session = s.session := by
  simp only [busWrite]; split <;> simp
@[simp] theorem busWrite_out (reg b0 b1 : Byte) (s : State) :
    (busWrite reg b0 b1 s).2.out = s.out := by
  simp only [busWrite]; split <;> simp
@[simp] theorem busWrite_results (reg b0 b1 : Byte) (s : State) :
    (busWrite reg b0 b1 s).2.results = s.results := by
  simp only [busWrite]; split <;> simp
@[simp] theorem busWrite_pending (reg b0 b1 : Byte) (s : State) :
    (busWrite reg b0 b1 s).2.pending = s.pending := by
  simp only [busWrite]; split <;> simp
@[simp] theorem busWrite_tick (reg b0 b1 : Byte) (s : State) :
    (busWrite reg b0 b1 s).2.tick = s.tick := by
  simp only [busWrite]; split <;> simp

@[simp] theorem busWrite_bus (reg b0 b1 : Byte) (s : State) :
    (busWrite reg b0 b1 s).2.bus
      = s.bus ++ [.write s.params.devAddr reg b0 b1 (busWrite reg b0 b1 s).1] := by
  simp only [busWrite]; split <;> simp

/-- A Write succeeds when the device answers. -/
@[simp] theorem busWrite_fst (reg b0 b1 : Byte) (s : State) :
    (busWrite reg b0 b1 s).1 = (turnAt s 0).answers := rfl

/-- A Write changes the registers as the device does, then stores its word if it succeeds. -/
theorem busWrite_regs (reg b0 b1 : Byte) (s : State) :
    (busWrite reg b0 b1 s).2.regs =
      if (turnAt s 0).answers then
        regWrite (regsChanged s.regs (turnAt s 0).changes) reg (wordOfBytes b0 b1)
      else regsChanged s.regs (turnAt s 0).changes := by
  simp only [busWrite]; split <;> simp_all

@[simp] theorem turnAt_busWrite (reg b0 b1 : Byte) (s : State) (k : Nat) :
    turnAt (busWrite reg b0 b1 s).2 k = turnAt s (k + 1) := by
  simp only [busWrite]
  split
  · rw [turnAt_logBus, ← turnAt_deviceMoves]; exact turnAt_congr rfl rfl k
  · simp [turnAt_deviceMoves]

@[simp] theorem busProbe_params (s : State) : (busProbe s).2.params = s.params := by
  simp [busProbe]
@[simp] theorem busProbe_session (s : State) : (busProbe s).2.session = s.session := by
  simp [busProbe]
@[simp] theorem busProbe_out (s : State) : (busProbe s).2.out = s.out := by simp [busProbe]
@[simp] theorem busProbe_results (s : State) : (busProbe s).2.results = s.results := by
  simp [busProbe]
@[simp] theorem busProbe_pending (s : State) : (busProbe s).2.pending = s.pending := by
  simp [busProbe]
@[simp] theorem busProbe_tick (s : State) : (busProbe s).2.tick = s.tick := by simp [busProbe]

@[simp] theorem busProbe_bus (s : State) :
    (busProbe s).2.bus = s.bus ++ [.probe s.params.devAddr (busProbe s).1] := by
  simp [busProbe]

@[simp] theorem busProbe_regs (s : State) :
    (busProbe s).2.regs = regsChanged s.regs (turnAt s 0).changes := by simp [busProbe]

@[simp] theorem turnAt_busProbe (s : State) (k : Nat) :
    turnAt (busProbe s).2 k = turnAt s (k + 1) := by
  simp [busProbe, turnAt_deviceMoves]

/-! ### Plumbing of REG operations -/

@[simp] theorem opReturn_run {α : Type} (v : α) (s : State) : opReturn v s = (.ok v, s) := rfl

@[simp] theorem opRaise_run {α : Type} (e : Err) (s : State) :
    (opRaise e : RegOp α) s = (.error e, s) := rfl

@[simp] theorem opRequire_true (s : State) : opRequire true s = (.ok (), s) := rfl

@[simp] theorem opRequire_false (s : State) : opRequire false s = (.error .configError, s) := rfl

theorem opThen_ok {α β : Type} {x : RegOp α} {f : α → RegOp β} {s s1 : State} {v : α}
    (h : x s = (.ok v, s1)) : opThen x f s = f v s1 := by simp [opThen, h]

theorem opThen_error {α β : Type} {x : RegOp α} {f : α → RegOp β} {s s1 : State} {e : Err}
    (h : x s = (.error e, s1)) : opThen x f s = (.error e, s1) := by simp [opThen, h]

@[simp] theorem opThen_return {α β : Type} (v : α) (f : α → RegOp β) (s : State) :
    opThen (opReturn v) f s = f v s := rfl

@[simp] theorem opThen_raise {α β : Type} (e : Err) (f : α → RegOp β) (s : State) :
    opThen (opRaise e) f s = (.error e, s) := rfl

@[simp] theorem opThen_require_true {β : Type} (f : Unit → RegOp β) (s : State) :
    opThen (opRequire true) f s = f () s := rfl

@[simp] theorem opThen_require_false {β : Type} (f : Unit → RegOp β) (s : State) :
    opThen (opRequire false) f s = (.error .configError, s) := rfl

theorem opMemRead_some {reg b0 b1 : Byte} {s s1 : State} (h : busRead reg s = (some (b0, b1), s1)) :
    opMemRead reg s = (.ok (wordOfBytes b0 b1), s1) := by simp [opMemRead, h]

theorem opMemRead_none {reg : Byte} {s s1 : State} (h : busRead reg s = (none, s1)) :
    opMemRead reg s = (.error .commError, s1) := by simp [opMemRead, h]

theorem opMemWrite_true {reg : Byte} {w : Word} {s s1 : State}
    (h : busWrite reg (hiByte w) (loByte w) s = (true, s1)) :
    opMemWrite reg w s = (.ok (), s1) := by simp [opMemWrite, h]

theorem opMemWrite_false {reg : Byte} {w : Word} {s s1 : State}
    (h : busWrite reg (hiByte w) (loByte w) s = (false, s1)) :
    opMemWrite reg w s = (.error .commError, s1) := by simp [opMemWrite, h]

@[simp] theorem opProbe_run (s : State) : opProbe s = (.ok (busProbe s).1, (busProbe s).2) := rfl

/-- A successful RMW: one read, then one write of the changed word. -/
theorem opRmw_some {reg b0 b1 : Byte} {g : Word → Word} {s s1 : State}
    (h : busRead reg s = (some (b0, b1), s1)) :
    opRmw reg g s = opMemWrite reg (g (wordOfBytes b0 b1)) s1 :=
  opThen_ok (opMemRead_some h)

/-- A failed read issues no write (R71). -/
theorem opRmw_none {reg : Byte} {g : Word → Word} {s s1 : State}
    (h : busRead reg s = (none, s1)) : opRmw reg g s = (.error .commError, s1) :=
  opThen_error (opMemRead_none h)

@[simp] theorem statusOf_ok {α : Type} (v : α) : statusOf (.ok v : Except Err α) = .ok := rfl
@[simp] theorem statusOf_commError {α : Type} :
    statusOf (.error .commError : Except Err α) = .commError := rfl
@[simp] theorem statusOf_configError {α : Type} :
    statusOf (.error .configError : Except Err α) = .configError := rfl
@[simp] theorem statusOf_timeout {α : Type} :
    statusOf (.error .timeout : Except Err α) = .timeout := rfl

/-- The record of an operation without a value. -/
theorem resultOf_nothing (r : Except Err Unit) :
    resultOf asNothing r = plainResult (statusOf r) := by
  cases r <;> rfl

/-! ### Running an operation for a caller -/

theorem runReq_eq {α : Type} {f : α → Long × F64 × Bool} {op : RegOp α} {s t : State}
    {r : Except Err α} (h : op s = (r, t)) : runReq f op s = respond (resultOf f r) t := by
  simp [runReq, h]

theorem runNotice_eq {α : Type} {op : RegOp α} {s t : State} {r : Except Err α}
    (h : op s = (r, t)) : runNotice op s = emit (.notice (noticeOf (statusOf r))) t := by
  simp [runNotice, h]

theorem runReply_ok {α : Type} {id : Byte} {n : Nat} {pl : α → List Byte} {op : RegOp α}
    {s t : State} {v : α} (h : op s = (.ok v, t)) :
    runReply id n pl op s = emitReply id (pl v) t := by simp [runReply, h]

theorem runReply_error {α : Type} {id : Byte} {n : Nat} {pl : α → List Byte} {op : RegOp α}
    {s t : State} {e : Err} (h : op s = (.error e, t)) :
    runReply id n pl op s = emitReply id (List.replicate n 0xFF) t := by simp [runReply, h]

/-! ### The transactions of an operation -/

/-- `Reach s evs t`: the transactions `evs`, made one after another from `s`, lead to `t`. -/
inductive Reach : State → List BusEvent → State → Prop
  | refl (s : State) : Reach s [] s
  | read {s t : State} {evs : List BusEvent} (reg : Byte) :
      Reach (busRead reg s).2 evs t →
      Reach s (.read s.params.devAddr reg 2 (busRead reg s).1 :: evs) t
  | write {s t : State} {evs : List BusEvent} (reg b0 b1 : Byte) :
      Reach (busWrite reg b0 b1 s).2 evs t →
      Reach s (.write s.params.devAddr reg b0 b1 (busWrite reg b0 b1 s).1 :: evs) t
  | probe {s t : State} {evs : List BusEvent} :
      Reach (busProbe s).2 evs t →
      Reach s (.probe s.params.devAddr (busProbe s).1 :: evs) t

theorem Reach.trans {s t u : State} {es fs : List BusEvent} (h : Reach s es t)
    (g : Reach t fs u) : Reach s (es ++ fs) u := by
  induction h with
  | refl => exact g
  | read reg _ ih => exact .read reg (ih g)
  | write reg b0 b1 _ ih => exact .write reg b0 b1 (ih g)
  | probe _ ih => exact .probe (ih g)

/-- Transactions change no block register, no OUT event, no parameter, no result. -/
theorem Reach.frame {s t : State} {evs : List BusEvent} (h : Reach s evs t) :
    t.params = s.params ∧ t.session = s.session ∧ t.out = s.out ∧ t.results = s.results
      ∧ t.pending = s.pending ∧ t.tick = s.tick := by
  induction h with
  | refl => simp
  | read reg _ ih => simpa using ih
  | write reg b0 b1 _ ih => simpa using ih
  | probe _ ih => simpa using ih

/-- They are what the BUS log gains. -/
theorem Reach.bus {s t : State} {evs : List BusEvent} (h : Reach s evs t) :
    t.bus = s.bus ++ evs := by
  induction h with
  | refl => simp
  | read reg _ ih => rw [ih, busRead_bus]; simp
  | write reg b0 b1 _ ih => rw [ih, busWrite_bus]; simp
  | probe _ ih => rw [ih, busProbe_bus]; simp

theorem Reach.transactions {s t : State} {evs : List BusEvent} (h : Reach s evs t) :
    transactions s t = evs.length := by
  simp [Machine.transactions, h.bus]

/-- They keep the canonical form of the register memory. -/
theorem Reach.regs_wf {s t : State} {evs : List BusEvent} (h : Reach s evs t)
    (hw : Memory.wf s.regs = true) : Memory.wf t.regs = true := by
  induction h with
  | refl => exact hw
  | read reg _ ih => exact ih (by simpa using regsChanged_wf hw _)
  | write reg b0 b1 _ ih =>
    refine ih ?_
    rw [busWrite_regs]
    split
    · exact regWrite_wf (regsChanged_wf hw _) _ _
    · exact regsChanged_wf hw _
  | probe _ ih => exact ih (by simpa using regsChanged_wf hw _)

/-- The register a Write stores to. -/
def writtenReg (e : BusEvent) : Option Byte :=
  match e with
  | .write _ reg _ _ _ => some reg
  | .read _ _ _ _ => none
  | .probe _ _ => none

theorem deviceLeaves_succ {s : State} {n a : Nat} (h : deviceLeaves s (n + 1) a) :
    ¬ byteOfRegs ((turnAt s 0).changes.map Prod.fst) a ∧
      ∀ t : State, (∀ k, turnAt t k = turnAt s (k + 1)) → deviceLeaves t n a := by
  refine ⟨h 0 (by omega), fun t ht k hk => ?_⟩
  rw [ht k]
  exact h (k + 1) (by omega)

/-- A byte that the device leaves alone and no transaction writes reads as before. -/
theorem Reach.readByte {s t : State} {evs : List BusEvent} (h : Reach s evs t) {a : Nat}
    (hd : deviceLeaves s evs.length a) (hw : ¬ byteOfRegs (evs.filterMap writtenReg) a) :
    memRead t.regs a = memRead s.regs a := by
  induction h with
  | refl => rfl
  | read reg _ ih =>
    have hs := deviceLeaves_succ hd
    rw [ih (hs.2 _ (turnAt_busRead reg _)) (by simpa [writtenReg, List.filterMap_cons] using hw), busRead_regs,
      memRead_regsChanged hs.1]
  | @write _ _ es reg b0 b1 _ ih =>
    have hs := deviceLeaves_succ hd
    have hne : a ≠ hiByteAddr reg ∧ a ≠ loByteAddr reg := by
      constructor <;> intro he <;> exact hw ⟨reg, by simp [writtenReg], by simp [he]⟩
    have hrest : ¬ byteOfRegs (es.filterMap writtenReg) a := by
      rintro ⟨r, hr, hb⟩
      refine hw ⟨r, ?_, hb⟩
      simp only [List.filterMap_cons, writtenReg, List.mem_cons]
      exact .inr hr
    rw [ih (hs.2 _ (turnAt_busWrite reg b0 b1 _)) hrest, busWrite_regs]
    split
    · rw [memRead_regWrite_ne hne.1 hne.2, memRead_regsChanged hs.1]
    · exact memRead_regsChanged hs.1
  | probe _ ih =>
    have hs := deviceLeaves_succ hd
    rw [ih (hs.2 _ (turnAt_busProbe _)) (by simpa [writtenReg, List.filterMap_cons] using hw), busProbe_regs,
      memRead_regsChanged hs.1]

/-- `OpOnly P op`: whatever the state, `op` does nothing but make transactions `P` allows. -/
def OpOnly {α : Type} (P : Params → BusEvent → Prop) (op : RegOp α) : Prop :=
  ∀ s, ∃ evs, Reach s evs (op s).2 ∧ ∀ e ∈ evs, P s.params e

theorem opOnly_return {α : Type} {P : Params → BusEvent → Prop} (v : α) :
    OpOnly P (opReturn v) := fun s => ⟨[], .refl s, by simp⟩

theorem opOnly_raise {α : Type} {P : Params → BusEvent → Prop} (e : Err) :
    OpOnly P (opRaise e : RegOp α) := fun s => ⟨[], .refl s, by simp⟩

theorem opOnly_require {P : Params → BusEvent → Prop} (c : Bool) : OpOnly P (opRequire c) := by
  cases c
  · exact opOnly_raise _
  · exact opOnly_return _

theorem opOnly_then {α β : Type} {P : Params → BusEvent → Prop} {x : RegOp α} {f : α → RegOp β}
    (hx : OpOnly P x) (hf : ∀ v, OpOnly P (f v)) : OpOnly P (opThen x f) := by
  intro s
  obtain ⟨es, hr, hp⟩ := hx s
  cases h : x s with
  | mk r s1 =>
    rw [h] at hr
    cases r with
    | error e => rw [opThen_error h]; exact ⟨es, hr, hp⟩
    | ok v =>
      rw [opThen_ok h]
      obtain ⟨fs, hr', hp'⟩ := hf v s1
      refine ⟨es ++ fs, hr.trans hr', fun e he => ?_⟩
      rcases List.mem_append.1 he with he | he
      · exact hp e he
      · have := hp' e he
        rwa [hr.frame.1] at this

theorem opMemRead_snd (reg : Byte) (s : State) : (opMemRead reg s).2 = (busRead reg s).2 := by
  unfold opMemRead
  split
  · rename_i h; rw [h]
  · rename_i h; rw [h]; rfl

theorem opMemWrite_snd (reg : Byte) (w : Word) (s : State) :
    (opMemWrite reg w s).2 = (busWrite reg (hiByte w) (loByte w) s).2 := by
  unfold opMemWrite
  split
  · rename_i h; rw [h]
  · rename_i h; rw [h]; rfl

theorem opOnly_memRead {P : Params → BusEvent → Prop} {reg : Byte}
    (h : ∀ p r, P p (.read p.devAddr reg 2 r)) : OpOnly P (opMemRead reg) := by
  intro s
  refine ⟨[.read s.params.devAddr reg 2 (busRead reg s).1], ?_, ?_⟩
  · rw [opMemRead_snd]; exact .read reg (.refl _)
  · simpa using h _ _

theorem opOnly_memWrite {P : Params → BusEvent → Prop} {reg : Byte} {w : Word}
    (h : ∀ p b0 b1 ok, P p (.write p.devAddr reg b0 b1 ok)) : OpOnly P (opMemWrite reg w) := by
  intro s
  refine ⟨[.write s.params.devAddr reg (hiByte w) (loByte w)
    (busWrite reg (hiByte w) (loByte w) s).1], ?_, ?_⟩
  · rw [opMemWrite_snd]; exact .write reg _ _ (.refl _)
  · simpa using h _ _ _ _

theorem opOnly_probe {P : Params → BusEvent → Prop} (h : ∀ p b, P p (.probe p.devAddr b)) :
    OpOnly P opProbe := by
  intro s
  exact ⟨[.probe s.params.devAddr (busProbe s).1], .probe (.refl _), by simpa using h _ _⟩

theorem opOnly_rmw {P : Params → BusEvent → Prop} {reg : Byte} {g : Word → Word}
    (hr : ∀ p r, P p (.read p.devAddr reg 2 r))
    (hw : ∀ p b0 b1 ok, P p (.write p.devAddr reg b0 b1 ok)) : OpOnly P (opRmw reg g) :=
  opOnly_then (opOnly_memRead hr) fun _ => opOnly_memWrite hw

theorem opOnly_pollReset {P : Params → BusEvent → Prop}
    (hr : ∀ p r, P p (.read p.devAddr regFdcConf 2 r)) (n : Nat) : OpOnly P (opPollReset n) := by
  induction n with
  | zero => exact opOnly_raise _
  | succ n ih =>
    refine opOnly_then (opOnly_memRead hr) fun w => ?_
    split
    · exact ih
    · exact opOnly_return _

theorem opOnly_reset {P : Params → BusEvent → Prop}
    (hr : ∀ p r, P p (.read p.devAddr regFdcConf 2 r))
    (hw : ∀ p b0 b1 ok, P p (.write p.devAddr regFdcConf b0 b1 ok)) : OpOnly P opReset :=
  opOnly_then (opOnly_rmw hr hw) fun _ s => opOnly_pollReset hr s.params.resetPollLimit s

/-! ### Outcomes spelled transaction by transaction -/

theorem afterWrite_intro {r : Byte} {w : Word} {s : State} {k : Status → State → Prop}
    (h : ∀ x t, opMemWrite r w s = (x, t) → k (statusOf x) t) : AfterWrite r w s k := by
  unfold AfterWrite
  split
  · rename_i s1 hw; exact h _ _ (opMemWrite_true hw)
  · rename_i s1 hw; exact h _ _ (opMemWrite_false hw)

theorem afterRmw_intro {r : Byte} {f : Word → Word → Prop} {g : Word → Word} {s : State}
    {k : Status → State → Prop} (hf : ∀ w, f w (g w))
    (h : ∀ x t, opRmw r g s = (x, t) → k (statusOf x) t) : AfterRmw r f s k := by
  unfold AfterRmw
  simp only [AfterReads]
  split
  · rename_i b0 b1 s1 hr
    exact ⟨_, _, rfl, hf _, afterWrite_intro fun x t hx => h x t (by rw [opRmw_some hr]; exact hx)⟩
  · rename_i s1 hr
    exact h _ _ (opRmw_none hr)

/-- The poll of RESET is `Polls`. -/
theorem polls_opPollReset (n : Nat) (s : State) :
    Polls n s (statusOf (opPollReset n s).1) (opPollReset n s).2 := by
  induction n generalizing s with
  | zero => exact .exhausted s
  | succ n ih =>
    rcases hr : busRead regFdcConf s with ⟨_ | ⟨b0, b1⟩, s1⟩
    · have : opPollReset (n + 1) s = (.error .commError, s1) := opThen_error (opMemRead_none hr)
      rw [this]
      exact .failed hr
    · have : opPollReset (n + 1) s =
          (if rstBit (wordOfBytes b0 b1) then opPollReset n else opReturn ()) s1 :=
        opThen_ok (opMemRead_some hr)
      rw [this]
      cases hb : rstBit (wordOfBytes b0 b1)
      · exact .cleared hr hb
      · exact .again hr hb (ih s1)

end Sys2Proof.Machine
end

