-- ==== Sys2Proof/Laws/Reg.lean ====
section
/-! SUPPORT. For each operation of the REG unit, once: it makes only transactions the block may make,
and stores only to its own registers. From that, what any REQ operation or command leaves alone. -/

namespace Sys2Proof.Machine

/-- A transaction the block may make that stores, if it stores, to a register of `rs`. -/
def Allowed (rs : List Byte) (p : Params) (e : BusEvent) : Prop :=
  trafficAllowed p e = true ∧ ∀ r, writtenReg e = some r → r ∈ rs

/-- A legal channel is 0, 1, 2 or 3 (R150). -/
theorem channel_cases {ch : Byte} (h : channelOk ch = true) :
    ch = 0 ∨ ch = 1 ∨ ch = 2 ∨ ch = 3 := by
  simp only [channelOk, decide_eq_true_eq] at h
  bv_omega

theorem allowed_read {rs : List Byte} {reg : Byte} (h : mappedRegs.contains reg = true)
    (p : Params) (r : Option (Byte × Byte)) : Allowed rs p (.read p.devAddr reg 2 r) := by
  refine ⟨?_, by simp [writtenReg]⟩
  simpa [trafficAllowed] using h

theorem allowed_write {rs : List Byte} {reg : Byte} (h : writableRegs.contains reg = true)
    (hr : reg ∈ rs) (p : Params) (b0 b1 : Byte) (ok : Bool) :
    Allowed rs p (.write p.devAddr reg b0 b1 ok) := by
  refine ⟨?_, by simpa [writtenReg] using hr⟩
  simpa [trafficAllowed] using h

theorem allowed_probe {rs : List Byte} (p : Params) (b : Bool) :
    Allowed rs p (.probe p.devAddr b) := by
  exact ⟨by simp [trafficAllowed], by simp [writtenReg]⟩

/-- After the channel check, only legal channels matter. -/
theorem opOnly_checkChannel {α : Type} {P : Params → BusEvent → Prop} {ch : Byte}
    {f : Unit → RegOp α} (h : channelOk ch = true → OpOnly P (f ())) :
    OpOnly P (opThen (opCheckChannel ch) f) := by
  unfold opCheckChannel
  cases hc : channelOk ch
  · exact fun s => opOnly_raise (α := α) (P := P) .configError s
  · exact fun s => h hc s

theorem regs_of_channel {ch : Byte} (h : channelOk ch = true) :
    mappedRegs.contains (regMeasMsb ch) = true ∧ mappedRegs.contains (regMeasLsb ch) = true
      ∧ mappedRegs.contains (regConfMeas ch) = true
      ∧ mappedRegs.contains (regOffsetCal ch) = true
      ∧ mappedRegs.contains (regGainCal ch) = true
      ∧ writableRegs.contains (regConfMeas ch) = true
      ∧ writableRegs.contains (regOffsetCal ch) = true
      ∧ writableRegs.contains (regGainCal ch) = true := by
  rcases channel_cases h with rfl | rfl | rfl | rfl <;> decide

theorem regFdcConf_mapped : mappedRegs.contains regFdcConf = true := by decide

theorem regFdcConf_writable : writableRegs.contains regFdcConf = true := by decide

theorem opOnly_rmwFdc {rs : List Byte} (hr : regFdcConf ∈ rs) (g : Word → Word) :
    OpOnly (Allowed rs) (opRmw regFdcConf g) :=
  opOnly_rmw (allowed_read regFdcConf_mapped) (allowed_write regFdcConf_writable hr)

theorem opOnly_readFdc {rs : List Byte} : OpOnly (Allowed rs) (opMemRead regFdcConf) :=
  opOnly_memRead (allowed_read regFdcConf_mapped)

theorem opOnly_rdOffset (ch : Byte) : OpOnly (Allowed []) (opRdOffset ch) :=
  opOnly_checkChannel fun h =>
    opOnly_then (opOnly_memRead (allowed_read (regs_of_channel h).2.2.2.1)) fun _ =>
      opOnly_return _

theorem opOnly_wrOffset (ch : Byte) (val : F64) :
    OpOnly (Allowed [regOffsetCal ch]) (opWrOffset ch val) :=
  opOnly_checkChannel fun h => opOnly_then (opOnly_require _) fun _ =>
    opOnly_memWrite (allowed_write (regs_of_channel h).2.2.2.2.2.2.1 (by simp))

theorem opOnly_rdGain (ch : Byte) : OpOnly (Allowed []) (opRdGain ch) :=
  opOnly_checkChannel fun h =>
    opOnly_then (opOnly_memRead (allowed_read (regs_of_channel h).2.2.2.2.1)) fun _ =>
      opOnly_return _

theorem opOnly_wrGain (ch : Byte) (val : F64) :
    OpOnly (Allowed [regGainCal ch]) (opWrGain ch val) :=
  opOnly_checkChannel fun h => opOnly_then (opOnly_require _) fun _ =>
    opOnly_memWrite (allowed_write (regs_of_channel h).2.2.2.2.2.2.2 (by simp))

theorem opOnly_cfgInput (ch pos neg capdac : Byte) :
    OpOnly (Allowed [regConfMeas ch]) (opCfgInput ch pos neg capdac) :=
  opOnly_checkChannel fun h => opOnly_then (opOnly_require _) fun _ =>
    opOnly_then (opOnly_require _) fun _ => opOnly_then (opOnly_require _) fun _ =>
      opOnly_then (opOnly_require _) fun _ =>
        opOnly_rmw (allowed_read (regs_of_channel h).2.2.1)
          (allowed_write (regs_of_channel h).2.2.2.2.2.1 (by simp))

theorem opOnly_startMeas (ch : Byte) : OpOnly (Allowed [regFdcConf]) (opStartMeas ch) :=
  opOnly_checkChannel fun _ => opOnly_rmwFdc (by simp) _

theorem opOnly_stopMeas (ch : Byte) : OpOnly (Allowed [regFdcConf]) (opStopMeas ch) :=
  opOnly_checkChannel fun _ => opOnly_rmwFdc (by simp) _

theorem opOnly_isDone (ch : Byte) : OpOnly (Allowed []) (opIsDone ch) :=
  opOnly_checkChannel fun _ => opOnly_then opOnly_readFdc fun _ => opOnly_return _

theorem opOnly_newData : OpOnly (Allowed []) opNewData :=
  opOnly_then opOnly_readFdc fun _ => opOnly_return _

theorem opOnly_setRate (r : Byte) : OpOnly (Allowed [regFdcConf]) (opSetRate r) :=
  opOnly_then (opOnly_require _) fun _ => opOnly_rmwFdc (by simp) _

theorem opOnly_rdRate : OpOnly (Allowed []) opRdRate :=
  opOnly_then opOnly_readFdc fun _ => opOnly_return _

theorem opOnly_enRepeat (m : Byte) : OpOnly (Allowed [regFdcConf]) (opEnRepeat m) :=
  opOnly_then (opOnly_require _) fun _ => opOnly_then opOnly_readFdc fun _ =>
    opOnly_then (opOnly_memWrite (allowed_write regFdcConf_writable (by simp))) fun _ =>
      opOnly_memWrite (allowed_write regFdcConf_writable (by simp))

theorem opOnly_disRepeat : OpOnly (Allowed [regFdcConf]) opDisRepeat := opOnly_rmwFdc (by simp) _

theorem opOnly_rdRaw {rs : List Byte} (ch : Byte) : OpOnly (Allowed rs) (opRdRaw ch) :=
  opOnly_checkChannel fun h =>
    opOnly_then (opOnly_memRead (allowed_read (regs_of_channel h).1)) fun _ =>
      opOnly_then (opOnly_memRead (allowed_read (regs_of_channel h).2.1)) fun _ =>
        opOnly_return _

theorem opOnly_rdMeas (ch : Byte) : OpOnly (Allowed []) (opRdMeas ch) :=
  opOnly_checkChannel fun h => opOnly_then (opOnly_rdRaw ch) fun _ =>
    opOnly_then (opOnly_memRead (allowed_read (regs_of_channel h).2.2.1)) fun _ =>
      opOnly_return _

theorem opOnly_resetOp : OpOnly (Allowed [regFdcConf]) opReset :=
  opOnly_reset (allowed_read regFdcConf_mapped) (allowed_write regFdcConf_writable (by simp))

theorem opOnly_present : OpOnly (Allowed []) opPresent := opOnly_probe allowed_probe

theorem opOnly_rdId (sel : Byte) : OpOnly (Allowed []) (opRdId sel) := by
  unfold opRdId
  by_cases h : sel > 1
  · simp only [h, decide_true, Bool.not_true]
    exact fun s => opOnly_raise (α := Word) (P := Allowed []) .configError s
  · have hs : sel = 0 ∨ sel = 1 := by bv_omega
    refine opOnly_then (opOnly_require _) fun _ => opOnly_memRead (allowed_read ?_)
    rcases hs with rfl | rfl <;> decide

theorem opOnly_reserved : OpOnly (Allowed []) opReserved := opOnly_raise _

theorem opOnly_chsetFields {ch : Byte} (h : channelOk ch = true) :
    OpOnly (Allowed []) (opChsetFields ch) :=
  opOnly_then (opOnly_memRead (allowed_read (regs_of_channel h).2.2.1)) fun _ =>
    opOnly_then (opOnly_memRead (allowed_read (regs_of_channel h).2.2.2.1)) fun _ =>
      opOnly_then (opOnly_memRead (allowed_read (regs_of_channel h).2.2.2.2.1)) fun _ =>
        opOnly_return _

theorem opOnly_dataFields {ch : Byte} (h : channelOk ch = true) :
    OpOnly (Allowed []) (opDataFields ch) :=
  opOnly_then (opOnly_rdRaw ch) fun _ =>
    opOnly_then (opOnly_memRead (allowed_read (regs_of_channel h).2.2.1)) fun _ =>
      opOnly_return _

theorem allowed_mono {rs qs : List Byte} (h : rs ⊆ qs) {p : Params} {e : BusEvent}
    (ha : Allowed rs p e) : Allowed qs p e :=
  ⟨ha.1, fun r hr => h (ha.2 r hr)⟩

theorem opOnly_mono {α : Type} {rs qs : List Byte} {op : RegOp α} (h : rs ⊆ qs)
    (ho : OpOnly (Allowed rs) op) : OpOnly (Allowed qs) op := fun s => by
  obtain ⟨es, hr, hp⟩ := ho s
  exact ⟨es, hr, fun e he => allowed_mono h (hp e he)⟩

theorem opOnly_chset (p : Vector Byte 6) :
    OpOnly (Allowed [regConfMeas ((payloadChannel p[0]).setWidth 8),
      regOffsetCal ((payloadChannel p[0]).setWidth 8),
      regGainCal ((payloadChannel p[0]).setWidth 8)]) (opChset p) :=
  opOnly_then (opOnly_mono (by simp) (opOnly_cfgInput _ _ _ _)) fun _ =>
    opOnly_then (opOnly_mono (by simp) (opOnly_wrOffset _ _)) fun _ =>
      opOnly_mono (by simp) (opOnly_wrGain _ _)

/-! ### Running an operation for a caller -/

/-- A REQ operation: transactions, then its result record. -/
theorem runReq_reach {α : Type} {P : Params → BusEvent → Prop} {f : α → Long × F64 × Bool}
    {op : RegOp α} (h : OpOnly P op) (s : State) :
    ∃ evs t, Reach s evs t ∧ (∀ e ∈ evs, P s.params e)
      ∧ runReq f op s = respond (resultOf f (op s).1) t := by
  obtain ⟨evs, hr, hp⟩ := h s
  exact ⟨evs, (op s).2, hr, hp, runReq_eq rfl⟩

/-- A state-changing command: transactions, then one notice. -/
theorem runNotice_reach {α : Type} {P : Params → BusEvent → Prop} {op : RegOp α}
    (h : OpOnly P op) (s : State) :
    ∃ evs t, Reach s evs t ∧ (∀ e ∈ evs, P s.params e)
      ∧ runNotice op s = emit (.notice (noticeOf (statusOf (op s).1))) t := by
  obtain ⟨evs, hr, hp⟩ := h s
  exact ⟨evs, (op s).2, hr, hp, runNotice_eq rfl⟩

/-- A read command: transactions, then one reply packet, of its payload or the sentinel. -/
theorem runReply_reach {α : Type} {P : Params → BusEvent → Prop} {id : Byte} {n : Nat}
    {pl : α → List Byte} {op : RegOp α} (h : OpOnly P op) (s : State) :
    ∃ evs t, Reach s evs t ∧ (∀ e ∈ evs, P s.params e)
      ∧ ((∃ v, runReply id n pl op s = emitReply id (pl v) t)
        ∨ runReply id n pl op s = emitReply id (List.replicate n 0xFF) t) := by
  obtain ⟨evs, hr, hp⟩ := h s
  refine ⟨evs, (op s).2, hr, hp, ?_⟩
  rcases hx : op s with ⟨_ | v, t⟩
  · exact .inr (runReply_error hx)
  · exact .inl ⟨v, runReply_ok hx⟩

end Sys2Proof.Machine
end

