-- ==== Sys2Proof/Laws/Loop.lean ====
section
/-! SUPPORT. Everything `exec` can do, in three shapes; what the data check does; and the cases of a
step. -/

namespace Sys2Proof.Machine

/-! ### `exec` -/

/-- A REQ operation: transactions from `s`, then one result record. -/
def ReqShape (i : Instr) (s t : State) : Prop :=
  isReq i = true ∧ ∃ evs u r, Reach s evs u ∧ (∀ e ∈ evs, Allowed (storedRegs i s) s.params e)
    ∧ t = respond r u

/-- A command that ends: perhaps back to Idle, then transactions, then one OUT event, which is no
timeout notice. -/
def ReplyShape (i : Instr) (s t : State) : Prop :=
  isReq i = false ∧ ∃ x evs u e, (x = s.session ∨ x = { s.session with mode := .idle })
    ∧ Reach { s with session := x } evs u
    ∧ (∀ e ∈ evs, Allowed (storedRegs i s) s.params e)
    ∧ eventOk s.params e ∧ e ≠ .notice .timeout ∧ t = emit e u

/-- A byte that only moves the session: an entry byte, the rate digit, or a payload byte at one of its
places. -/
def SessionShape (i : Instr) (s t : State) : Prop :=
  (∃ k, (i = .cmdEnterRate ∨ i = .cmdEnterChset) ∧ t = enterAwaiting k s)
    ∨ (∃ b, i = .seqRateDigit b ∧ t = setProgress 2 (setScratch 0 (digit b) s))
    ∨ ∃ b, i = .seqChsetPayload b ∧ 1 ≤ s.session.progress.toNat ∧ s.session.progress.toNat ≤ 6
        ∧ t = setProgress (s.session.progress + 1) (setScratch (s.session.progress.toNat - 1) b s)

/-- Such a byte is no REQ operation and changes nothing but the session. -/
theorem SessionShape.session_only {i : Instr} {s t : State} (h : SessionShape i s t) :
    isReq i = false ∧ ∃ x, t = { s with session := x } := by
  rcases h with ⟨k, rfl | rfl, rfl⟩ | ⟨b, rfl, rfl⟩ | ⟨b, rfl, -, -, rfl⟩ <;> exact ⟨rfl, _, rfl⟩

theorem reqShape_of {α : Type} {i : Instr} {s : State} {f : α → Long × F64 × Bool}
    {op : RegOp α} (hi : isReq i = true) (h : OpOnly (Allowed (storedRegs i s)) op) :
    ReqShape i s (runReq f op s) := by
  obtain ⟨evs, u, hr, hp, he⟩ := runReq_reach (f := f) h s
  exact ⟨hi, evs, u, _, hr, hp, he⟩

theorem replyShape_notice {α : Type} {i : Instr} {s : State} {op : RegOp α}
    (hi : isReq i = false) (h : OpOnly (Allowed (storedRegs i s)) op) :
    ReplyShape i s (runNotice op s) := by
  obtain ⟨evs, u, hr, hp, he⟩ := runNotice_reach h s
  refine ⟨hi, s.session, evs, u, .notice _, .inl rfl, hr, hp, trivial, ?_, he⟩
  cases statusOf (op s).1 <;> simp [noticeOf]

theorem packetOk_frame {p : Params} {hdr id : Byte} {n : Nat} {pl : List Byte}
    (h : (id, hdr, n) ∈ packetSchema p) (hl : pl.length = n) : packetOk p (frame hdr id pl) :=
  ⟨(id, hdr, n), h, pl, hl, rfl⟩

theorem replyShape_reply {α : Type} {i : Instr} {s : State} {id : Byte} {n : Nat}
    {pl : α → List Byte} {op : RegOp α} (hi : isReq i = false)
    (h : OpOnly (Allowed (storedRegs i s)) op)
    (hid : (id, Config.hdrReply, n) ∈ packetSchema s.params) (hl : ∀ v, (pl v).length = n) :
    ReplyShape i s (runReply id n pl op s) := by
  obtain ⟨evs, u, hr, hp, he⟩ := runReply_reach (id := id) (n := n) (pl := pl) h s
  rcases he with ⟨v, he⟩ | he
  · exact ⟨hi, s.session, evs, u, .packet _, .inl rfl, hr, hp, packetOk_frame hid (hl v), by simp,
      he⟩
  · exact ⟨hi, s.session, evs, u, .packet _, .inl rfl, hr, hp,
      packetOk_frame hid (List.length_replicate ..), by simp, he⟩

theorem replyShape_latch {i : Instr} {s : State} {b : Byte} {op : RegOp Unit}
    (hi : isReq i = false) (h : OpOnly (Allowed (storedRegs i s)) op) :
    ReplyShape i s (latchStep b op s) := by
  unfold latchStep
  split
  · obtain ⟨evs, u, hr, hp, he⟩ := runNotice_reach h (toIdle s)
    refine ⟨hi, _, evs, u, .notice _, .inr rfl, hr, hp, trivial, ?_, he⟩
    cases statusOf (op (toIdle s)).1 <;> simp [noticeOf]
  · exact ⟨hi, _, [], _, .notice _, .inr rfl, .refl _, by simp, trivial, by simp, rfl⟩

/-- Every next state of every instruction has one of the three shapes. -/
theorem exec_cases {i : Instr} {s t : State} (h : exec i s = .next t) :
    ReqShape i s t ∨ ReplyShape i s t ∨ SessionShape i s t := by
  cases i
  case fxpDecS raw a =>
    cases h; exact .inl (reqShape_of rfl (opOnly_return _))
  case fxpEncS raw a => cases h; exact .inl (reqShape_of rfl (opOnly_return _))
  case fxpDecU raw a => cases h; exact .inl (reqShape_of rfl (opOnly_return _))
  case fxpEncU raw a => cases h; exact .inl (reqShape_of rfl (opOnly_return _))
  case rdOffset ch => cases h; exact .inl (reqShape_of rfl (opOnly_rdOffset ch))
  case wrOffset ch v => cases h; exact .inl (reqShape_of rfl (opOnly_wrOffset ch v))
  case rdGain ch => cases h; exact .inl (reqShape_of rfl (opOnly_rdGain ch))
  case wrGain ch v => cases h; exact .inl (reqShape_of rfl (opOnly_wrGain ch v))
  case cfgInput ch a b c => cases h; exact .inl (reqShape_of rfl (opOnly_cfgInput ch a b c))
  case startMeas ch => cases h; exact .inl (reqShape_of rfl (opOnly_startMeas ch))
  case stopMeas ch => cases h; exact .inl (reqShape_of rfl (opOnly_stopMeas ch))
  case isDone ch => cases h; exact .inl (reqShape_of rfl (opOnly_isDone ch))
  case newData => cases h; exact .inl (reqShape_of rfl opOnly_newData)
  case setRate a => cases h; exact .inl (reqShape_of rfl (opOnly_setRate a))
  case rdRate => cases h; exact .inl (reqShape_of rfl opOnly_rdRate)
  case enRepeat a => cases h; exact .inl (reqShape_of rfl (opOnly_enRepeat a))
  case disRepeat => cases h; exact .inl (reqShape_of rfl opOnly_disRepeat)
  case rdRaw ch => cases h; exact .inl (reqShape_of rfl (opOnly_rdRaw ch))
  case rdMeas ch => cases h; exact .inl (reqShape_of rfl (opOnly_rdMeas ch))
  case reset => cases h; exact .inl (reqShape_of rfl opOnly_resetOp)
  case present => cases h; exact .inl (reqShape_of rfl opOnly_present)
  case rdId a => cases h; exact .inl (reqShape_of rfl (opOnly_rdId a))
  case reservedLow lo => cases h; exact .inl (reqShape_of rfl opOnly_reserved)
  case reservedHigh lo => cases h; exact .inl (reqShape_of rfl opOnly_reserved)
  case cmdEnterRate => cases h; exact .inr (.inr (.inl ⟨_, .inl rfl, rfl⟩))
  case cmdEnterChset => cases h; exact .inr (.inr (.inl ⟨_, .inr rfl, rfl⟩))
  case cmdReset => cases h; exact .inr (.inl (replyShape_notice rfl opOnly_resetOp))
  case cmdMfrId =>
    cases h
    exact .inr (.inl (replyShape_reply rfl (opOnly_rdId 0) (by simp [packetSchema, Config.hdrReply])
      fun _ => rfl))
  case cmdDevId =>
    cases h
    exact .inr (.inl (replyShape_reply rfl (opOnly_rdId 1) (by simp [packetSchema, Config.hdrReply])
      fun _ => rfl))
  case cmdRdRate =>
    cases h
    exact .inr (.inl (replyShape_reply rfl opOnly_rdRate (by simp [packetSchema, Config.hdrReply])
      fun _ => rfl))
  case cmdSensor =>
    cases h
    exact .inr (.inl (replyShape_reply rfl opOnly_present (by simp [packetSchema, Config.hdrReply])
      fun _ => rfl))
  case cmdRdCh0 =>
    cases h
    exact .inr (.inl (replyShape_reply rfl (opOnly_chsetFields (by decide))
      (by simp [packetSchema, Config.hdrReply]) fun _ => rfl))
  case cmdRdCh1 =>
    cases h
    exact .inr (.inl (replyShape_reply rfl (opOnly_chsetFields (by decide))
      (by simp [packetSchema, Config.hdrReply]) fun _ => rfl))
  case cmdRdCh2 =>
    cases h
    exact .inr (.inl (replyShape_reply rfl (opOnly_chsetFields (by decide))
      (by simp [packetSchema, Config.hdrReply]) fun _ => rfl))
  case cmdRdCh3 =>
    cases h
    exact .inr (.inl (replyShape_reply rfl (opOnly_chsetFields (by decide))
      (by simp [packetSchema, Config.hdrReply]) fun _ => rfl))
  case cmdStart0 => cases h; exact .inr (.inl (replyShape_notice rfl (opOnly_startMeas 0)))
  case cmdStart1 => cases h; exact .inr (.inl (replyShape_notice rfl (opOnly_startMeas 1)))
  case cmdStart2 => cases h; exact .inr (.inl (replyShape_notice rfl (opOnly_startMeas 2)))
  case cmdStart3 => cases h; exact .inr (.inl (replyShape_notice rfl (opOnly_startMeas 3)))
  case seqRateDigit b => cases h; exact .inr (.inr (.inr (.inl ⟨b, rfl, rfl⟩)))
  case seqRateLatch b => cases h; exact .inr (.inl (replyShape_latch rfl (opOnly_setRate _)))
  case seqChsetPayload b =>
    simp only [exec, execSeqChsetPayload] at h
    split at h
    · rename_i hp; cases h; exact .inr (.inr (.inr (.inr ⟨b, rfl, hp.1, hp.2, rfl⟩)))
    · cases h
  case seqChsetLatch b => cases h; exact .inr (.inl (replyShape_latch rfl (opOnly_chset _)))

/-! ### The data check -/

theorem dataChannel_reach {ch : Byte} (h : channelOk ch = true) (s : State) :
    ∃ evs, Reach s evs (dataChannel ch s).2 ∧ (∀ e ∈ evs, Allowed [] s.params e)
      ∧ (dataChannel ch s).1.length = 4 := by
  obtain ⟨evs, hr, hp⟩ := opOnly_dataFields h s
  refine ⟨evs, ?_, hp, ?_⟩
  · unfold dataChannel; split <;> rename_i he <;> rw [he] at hr <;> exact hr
  · unfold dataChannel; split <;> rfl

theorem dataPayload_reach {chs : List Byte} (h : ∀ ch ∈ chs, channelOk ch = true) (s : State) :
    ∃ evs, Reach s evs (dataPayload chs s).2 ∧ (∀ e ∈ evs, Allowed [] s.params e)
      ∧ (dataPayload chs s).1.length = 4 * chs.length := by
  induction chs generalizing s with
  | nil => exact ⟨[], .refl s, by simp, rfl⟩
  | cons ch chs ih =>
    obtain ⟨es, hr, hp, hl⟩ := dataChannel_reach (h ch (by simp)) s
    obtain ⟨fs, hr', hp', hl'⟩ := ih (fun c hc => h c (by simp [hc])) (dataChannel ch s).2
    refine ⟨es ++ fs, hr.trans hr', fun e he => ?_, ?_⟩
    · rcases List.mem_append.1 he with he | he
      · exact hp e he
      · have := hp' e he; rwa [hr.frame.1] at this
    · simp only [dataPayload, List.length_append, hl, hl', List.length_cons]; omega

/-- The data check: transactions, none of them a Write, then nothing or one data packet. -/
theorem dataCheck_reach (s : State) :
    ∃ evs u, Reach s evs u ∧ (∀ e ∈ evs, Allowed [] s.params e)
      ∧ (dataCheck s = u
        ∨ ∃ pl, pl.length = 16
          ∧ dataCheck s = emit (.packet (frame Config.hdrData s.params.pktData pl)) u) := by
  obtain ⟨es, hr, hp⟩ := opOnly_newData s
  unfold dataCheck
  split
  · rename_i mask s1 he
    rw [he] at hr
    split
    · obtain ⟨fs, hr', hp', hl⟩ := dataPayload_reach (chs := [0, 1, 2, 3]) (by decide) s1
      rcases hd : dataPayload [0, 1, 2, 3] s1 with ⟨pl, s2⟩
      rw [hd] at hr' hl
      refine ⟨es ++ fs, s2, hr.trans hr', fun e h => ?_, .inr ⟨pl, hl, rfl⟩⟩
      rcases List.mem_append.1 h with h | h
      · exact hp e h
      · have := hp' e h; rwa [hr.frame.1] at this
    · exact ⟨es, s1, hr, hp, .inl rfl⟩
  · rename_i s1 he
    rw [he] at hr
    exact ⟨es, s1, hr, hp, .inl rfl⟩

/-! ### The step -/

/-- What an iteration's byte does before the checks: nothing (no byte, or no command), the abort of a
timeout, or the decoded instruction. -/
def ByteEffect (rx : Option Byte) (s t : State) : Prop :=
  t = s ∨ (timedOut s = true ∧ t = timeoutAbort s)
    ∨ ∃ b i, rx = some b ∧ timedOut s = false ∧ decode s.params s.pos (.rx b) = .ok i
        ∧ exec i s = .next t

/-- The cases of a step that goes on. -/
theorem step_cases {s t : State} (h : step s = .next t) :
    s.params.wf = true ∧
      ((s.pending = [] ∧ t = s)
      ∨ (∃ r rest, s.pending = .request r :: rest
          ∧ exec (decodeReq r) { s with pending := rest } = .next t)
      ∨ ∃ rx now rest u, s.pending = .iterate rx now :: rest
          ∧ ByteEffect rx (sampleTick now { s with pending := rest }) u
          ∧ t = dataCheck (timeoutCheck u)) := by
  unfold step stepOnce at h
  split at h
  · rename_i hp
    split at h
    · rename_i hw; cases h; exact ⟨hw, .inl ⟨hp, rfl⟩⟩
    · cases h
  · rename_i i rest hp
    split at h
    · rename_i hw
      refine ⟨hw, ?_⟩
      cases i with
      | request r => exact .inr (.inl ⟨r, rest, hp, h⟩)
      | iterate rx now =>
        refine .inr (.inr ⟨rx, now, rest, ?_⟩)
        cases rx with
        | none => cases h; exact ⟨_, hp, .inl rfl, rfl⟩
        | some b =>
          simp only [runInput, iterate, parseByte] at h
          split at h
          · rename_i ht; cases h; exact ⟨_, hp, .inr (.inl ⟨ht, rfl⟩), rfl⟩
          · rename_i ht
            simp only [runByte] at h
            split at h
            · rename_i i hd
              cases he : exec i (sampleTick now { s with pending := rest }) with
              | next u =>
                rw [he] at h; cases h
                exact ⟨u, hp, .inr (.inr ⟨b, i, rfl, by simpa using ht, hd, he⟩), rfl⟩
              | fault f => rw [he] at h; cases h
              | refused r => rw [he] at h; cases h
            · cases h; exact ⟨_, hp, .inl rfl, rfl⟩
            · cases h
    · cases h

end Sys2Proof.Machine
end

