-- ==== Sys2Proof/Laws/Blind.lean ====
section
/-! SUPPORT. No operation of the REG unit reads or writes the session or the OUT queue: run beside other
ones, it gives the same value, the same transactions and leaves them as they are. -/

namespace Sys2Proof.Machine

/-- `s` beside another session and OUT queue. -/
def beside (x : Session) (o : List OutEvent) (s : State) : State :=
  { s with session := x, out := o }

/-- An operation that does not see the session or the OUT queue. -/
def OpBlind {α : Type} (op : RegOp α) : Prop :=
  ∀ (x : Session) (o : List OutEvent) (s : State),
    op (beside x o s) = ((op s).1, beside x o (op s).2)

theorem deviceMoves_beside (x : Session) (o : List OutEvent) (s : State) :
    deviceMoves (beside x o s) = beside x o (deviceMoves s) := by
  unfold deviceMoves beside
  cases s.turns <;> rfl

theorem busRead_beside (reg : Byte) (x : Session) (o : List OutEvent) (s : State) :
    busRead reg (beside x o s) = ((busRead reg s).1, beside x o (busRead reg s).2) := by
  simp only [busRead, deviceMoves_beside]
  rfl

theorem busWrite_beside (reg b0 b1 : Byte) (x : Session) (o : List OutEvent) (s : State) :
    busWrite reg b0 b1 (beside x o s)
      = ((busWrite reg b0 b1 s).1, beside x o (busWrite reg b0 b1 s).2) := by
  have ht : turnAt (beside x o s) 0 = turnAt s 0 := rfl
  simp only [busWrite, deviceMoves_beside, ht]
  split <;> rfl

theorem busProbe_beside (x : Session) (o : List OutEvent) (s : State) :
    busProbe (beside x o s) = ((busProbe s).1, beside x o (busProbe s).2) := by
  simp only [busProbe, deviceMoves_beside]
  rfl

theorem opBlind_return {α : Type} (v : α) : OpBlind (opReturn v) := fun _ _ _ => rfl

theorem opBlind_raise {α : Type} (e : Err) : OpBlind (opRaise e : RegOp α) := fun _ _ _ => rfl

theorem opBlind_require (c : Bool) : OpBlind (opRequire c) := by
  cases c
  · exact opBlind_raise _
  · exact opBlind_return _

theorem opBlind_then {α β : Type} {x : RegOp α} {f : α → RegOp β} (hx : OpBlind x)
    (hf : ∀ v, OpBlind (f v)) : OpBlind (opThen x f) := by
  intro y o s
  have h := hx y o s
  rcases hs : x s with ⟨_ | v, s1⟩ <;> rw [hs] at h
  · rw [opThen_error h, opThen_error hs]
  · rw [opThen_ok h, opThen_ok hs]; exact hf v y o s1

theorem opBlind_memRead (reg : Byte) : OpBlind (opMemRead reg) := by
  intro x o s
  have h := busRead_beside reg x o s
  rcases hs : busRead reg s with ⟨_ | ⟨b0, b1⟩, s1⟩ <;> rw [hs] at h
  · rw [opMemRead_none h, opMemRead_none hs]
  · rw [opMemRead_some h, opMemRead_some hs]

theorem opBlind_memWrite (reg : Byte) (w : Word) : OpBlind (opMemWrite reg w) := by
  intro x o s
  have h := busWrite_beside reg (hiByte w) (loByte w) x o s
  rcases hs : busWrite reg (hiByte w) (loByte w) s with ⟨_ | _, s1⟩ <;> rw [hs] at h
  · rw [opMemWrite_false h, opMemWrite_false hs]
  · rw [opMemWrite_true h, opMemWrite_true hs]

theorem opBlind_probe : OpBlind opProbe := by
  intro x o s
  rw [opProbe_run, opProbe_run, busProbe_beside]

theorem opBlind_rmw (reg : Byte) (g : Word → Word) : OpBlind (opRmw reg g) :=
  opBlind_then (opBlind_memRead _) fun _ => opBlind_memWrite _ _

theorem opBlind_checkChannel (ch : Byte) : OpBlind (opCheckChannel ch) := opBlind_require _

theorem opBlind_rdOffset (ch : Byte) : OpBlind (opRdOffset ch) :=
  opBlind_then (opBlind_checkChannel _) fun _ => opBlind_then (opBlind_memRead _) fun _ =>
    opBlind_return _

theorem opBlind_wrOffset (ch : Byte) (v : F64) : OpBlind (opWrOffset ch v) :=
  opBlind_then (opBlind_checkChannel _) fun _ => opBlind_then (opBlind_require _) fun _ =>
    opBlind_memWrite _ _

theorem opBlind_rdGain (ch : Byte) : OpBlind (opRdGain ch) :=
  opBlind_then (opBlind_checkChannel _) fun _ => opBlind_then (opBlind_memRead _) fun _ =>
    opBlind_return _

theorem opBlind_wrGain (ch : Byte) (v : F64) : OpBlind (opWrGain ch v) :=
  opBlind_then (opBlind_checkChannel _) fun _ => opBlind_then (opBlind_require _) fun _ =>
    opBlind_memWrite _ _

theorem opBlind_cfgInput (ch p n c : Byte) : OpBlind (opCfgInput ch p n c) :=
  opBlind_then (opBlind_checkChannel _) fun _ => opBlind_then (opBlind_require _) fun _ =>
    opBlind_then (opBlind_require _) fun _ => opBlind_then (opBlind_require _) fun _ =>
      opBlind_then (opBlind_require _) fun _ => opBlind_rmw _ _

theorem opBlind_startMeas (ch : Byte) : OpBlind (opStartMeas ch) :=
  opBlind_then (opBlind_checkChannel _) fun _ => opBlind_rmw _ _

theorem opBlind_stopMeas (ch : Byte) : OpBlind (opStopMeas ch) :=
  opBlind_then (opBlind_checkChannel _) fun _ => opBlind_rmw _ _

theorem opBlind_isDone (ch : Byte) : OpBlind (opIsDone ch) :=
  opBlind_then (opBlind_checkChannel _) fun _ => opBlind_then (opBlind_memRead _) fun _ =>
    opBlind_return _

theorem opBlind_newData : OpBlind opNewData :=
  opBlind_then (opBlind_memRead _) fun _ => opBlind_return _

theorem opBlind_setRate (r : Byte) : OpBlind (opSetRate r) :=
  opBlind_then (opBlind_require _) fun _ => opBlind_rmw _ _

theorem opBlind_rdRate : OpBlind opRdRate :=
  opBlind_then (opBlind_memRead _) fun _ => opBlind_return _

theorem opBlind_enRepeat (m : Byte) : OpBlind (opEnRepeat m) :=
  opBlind_then (opBlind_require _) fun _ => opBlind_then (opBlind_memRead _) fun _ =>
    opBlind_then (opBlind_memWrite _ _) fun _ => opBlind_memWrite _ _

theorem opBlind_disRepeat : OpBlind opDisRepeat := opBlind_rmw _ _

theorem opBlind_rdRaw (ch : Byte) : OpBlind (opRdRaw ch) :=
  opBlind_then (opBlind_checkChannel _) fun _ => opBlind_then (opBlind_memRead _) fun _ =>
    opBlind_then (opBlind_memRead _) fun _ => opBlind_return _

theorem opBlind_rdMeas (ch : Byte) : OpBlind (opRdMeas ch) :=
  opBlind_then (opBlind_checkChannel _) fun _ => opBlind_then (opBlind_rdRaw _) fun _ =>
    opBlind_then (opBlind_memRead _) fun _ => opBlind_return _

theorem opBlind_pollReset (n : Nat) : OpBlind (opPollReset n) := by
  induction n with
  | zero => exact opBlind_raise _
  | succ n ih =>
    refine opBlind_then (opBlind_memRead _) fun w => ?_
    split
    · exact ih
    · exact opBlind_return _

theorem opBlind_reset : OpBlind opReset :=
  opBlind_then (opBlind_rmw _ _) fun _ x o s => opBlind_pollReset s.params.resetPollLimit x o s

theorem opBlind_rdId (sel : Byte) : OpBlind (opRdId sel) :=
  opBlind_then (opBlind_require _) fun _ => opBlind_memRead _

theorem opBlind_chsetFields (ch : Byte) : OpBlind (opChsetFields ch) :=
  opBlind_then (opBlind_memRead _) fun _ => opBlind_then (opBlind_memRead _) fun _ =>
    opBlind_then (opBlind_memRead _) fun _ => opBlind_return _

theorem opBlind_dataFields (ch : Byte) : OpBlind (opDataFields ch) :=
  opBlind_then (opBlind_rdRaw _) fun _ => opBlind_then (opBlind_memRead _) fun _ =>
    opBlind_return _

theorem opBlind_chset (p : Vector Byte 6) : OpBlind (opChset p) :=
  opBlind_then (opBlind_cfgInput _ _ _ _) fun _ => opBlind_then (opBlind_wrOffset _ _) fun _ =>
    opBlind_wrGain _ _

/-! ### Running an operation beside another session and OUT queue -/

theorem runReq_beside {α : Type} {f : α → Long × F64 × Bool} {op : RegOp α} (h : OpBlind op)
    (x : Session) (o : List OutEvent) (s : State) :
    runReq f op (beside x o s) = beside x o (runReq f op s) := by
  rw [runReq_eq (h x o s), runReq_eq (s := s) (t := (op s).2) (r := (op s).1) rfl]
  rfl

/-- The event a state-changing command appends does not depend on the session or on OUT. -/
theorem runNotice_beside {α : Type} {op : RegOp α} (h : OpBlind op) (x : Session)
    (o : List OutEvent) (s : State) :
    runNotice op (beside x o s)
      = beside x (o ++ [.notice (noticeOf (statusOf (op s).1))]) (runNotice op s) := by
  rw [runNotice_eq (h x o s), runNotice_eq (s := s) (t := (op s).2) (r := (op s).1) rfl]
  rfl

/-- The data check appends the same whatever is in the session and in OUT. -/
theorem dataChannel_beside (ch : Byte) (x : Session) (o : List OutEvent) (s : State) :
    dataChannel ch (beside x o s) = ((dataChannel ch s).1, beside x o (dataChannel ch s).2) := by
  have h := opBlind_dataFields ch x o s
  unfold dataChannel
  rcases hs : opDataFields ch s with ⟨_ | v, s1⟩ <;> rw [hs] at h <;> rw [h]

theorem dataPayload_beside (chs : List Byte) (x : Session) (o : List OutEvent) (s : State) :
    dataPayload chs (beside x o s)
      = ((dataPayload chs s).1, beside x o (dataPayload chs s).2) := by
  induction chs generalizing s with
  | nil => rfl
  | cons ch chs ih => simp only [dataPayload, dataChannel_beside, ih]

theorem dataCheck_beside (s : State) :
    ∃ evs, ∀ x o, dataCheck (beside x o s) = beside x (o ++ evs) (dataCheck s) := by
  have h := opBlind_newData
  rcases hs : opNewData s with ⟨_ | mask, s1⟩
  · refine ⟨[], fun x o => ?_⟩
    have h := h x o s
    rw [hs] at h
    simp only [dataCheck, h, hs, List.append_nil]
  · by_cases hm : mask = 0b1111
    · rcases hd : dataPayload [0, 1, 2, 3] s1 with ⟨pl, s2⟩
      refine ⟨[.packet (frame Config.hdrData s.params.pktData pl)], fun x o => ?_⟩
      have h := h x o s
      have hp := dataPayload_beside [0, 1, 2, 3] x o s1
      rw [hs] at h
      rw [hd] at hp
      simp only [dataCheck, h, hs, hm, if_true, hp, hd]
      rfl
    · refine ⟨[], fun x o => ?_⟩
      have h := h x o s
      rw [hs] at h
      simp only [dataCheck, h, hs, hm, if_false, List.append_nil]

end Sys2Proof.Machine
end

