-- ==== Sys2Proof/Laws/Float.lean ====
section
/-! SUPPORT. What `f64OfScaled` and `f64TruncScaled` compute, as exact rational values. -/

namespace Sys2Proof.Machine

/-- The sign of a binary64 put together from its fields. -/
theorem f64Neg_ofFields {sg ex fr : Nat} (hs : sg < 2) (he : ex < 2048) (hf : fr < 2 ^ 52) :
    f64Neg (BitVec.ofNat 64 (sg * 2 ^ 63 + ex * 2 ^ 52 + fr)) = decide (sg = 1) := by
  rw [f64Neg, BitVec.getLsbD_ofNat, Nat.testBit_eq_decide_div_mod_eq]
  have h : (sg * 2 ^ 63 + ex * 2 ^ 52 + fr) / 2 ^ 63 % 2 = sg := by omega
  rw [h]
  rfl

/-- The exponent field of a binary64 put together from its fields. -/
theorem f64Exp_ofFields {sg ex fr : Nat} (he : ex < 2048) (hf : fr < 2 ^ 52) :
    f64Exp (BitVec.ofNat 64 (sg * 2 ^ 63 + ex * 2 ^ 52 + fr)) = ex := by
  rw [f64Exp, BitVec.extractLsb'_toNat, BitVec.toNat_ofNat, Nat.shiftRight_eq_div_pow]
  omega

/-- The fraction field of a binary64 put together from its fields. -/
theorem f64Frac_ofFields {sg ex fr : Nat} (hf : fr < 2 ^ 52) :
    f64Frac (BitVec.ofNat 64 (sg * 2 ^ 63 + ex * 2 ^ 52 + fr)) = fr := by
  rw [f64Frac, BitVec.extractLsb'_toNat, BitVec.toNat_ofNat, Nat.shiftRight_eq_div_pow]
  omega

/-- `f64OfScaled` of 0 is +0.0. -/
theorem f64OfScaled_zero (e : Int) : f64OfScaled 0 e = 0 := by simp [f64OfScaled]

/-- Of a value that is 0 or a normal number of at most 53 significant bits, `f64OfScaled` is exact;
it is +0.0 for 0 and carries the value's sign. -/
theorem f64OfScaled_spec {m e : Int} (hm : m.natAbs < 2 ^ 53) (he : -1022 ≤ e) (hu : e ≤ 970) :
    f64IsFinite (f64OfScaled m e) = true ∧ f64Real (f64OfScaled m e) = (m : ℚ) * 2 ^ e
      ∧ f64Neg (f64OfScaled m e) = decide (m < 0)
      ∧ (m ≠ 0 → f64Exp (f64OfScaled m e) ≠ 0) := by
  by_cases h0 : m = 0
  · subst h0
    rw [f64OfScaled_zero]
    refine ⟨by decide, ?_, by decide, fun h => absurd rfl h⟩
    have : f64Sig (0 : F64) = 0 := by decide
    rw [f64Real, this, Int.cast_zero, zero_mul, zero_mul]
  have hn0 : m.natAbs ≠ 0 := by omega
  have hl : m.natAbs.log2 ≤ 52 := by
    have := (Nat.log2_lt hn0 (k := 53)).2 hm
    omega
  have hlo : 2 ^ m.natAbs.log2 ≤ m.natAbs := Nat.log2_self_le hn0
  have hhi : m.natAbs < 2 ^ (m.natAbs.log2 + 1) := Nat.lt_log2_self
  generalize hld : m.natAbs.log2 = l at *
  obtain ⟨E, hE⟩ : ∃ E : Nat, (E : Int) = l + e + 1023 := ⟨(l + e + 1023).toNat, by omega⟩
  have hE1 : 1 ≤ E := by omega
  have hE2 : E ≤ 2045 := by omega
  have hpow : 2 ^ l * 2 ^ (52 - l) = 2 ^ 52 := by rw [← pow_add]; congr 1; omega
  have hf1 : 2 ^ 52 ≤ m.natAbs * 2 ^ (52 - l) := by
    rw [← hpow]; exact Nat.mul_le_mul_right _ hlo
  have hf2 : m.natAbs * 2 ^ (52 - l) < 2 ^ 53 := by
    have : m.natAbs * 2 ^ (52 - l) < 2 ^ (l + 1) * 2 ^ (52 - l) :=
      Nat.mul_lt_mul_of_pos_right hhi (by positivity)
    rw [pow_succ, Nat.mul_right_comm, hpow] at this
    omega
  have hx : f64OfScaled m e = BitVec.ofNat 64 ((if m < 0 then 1 else 0) * 2 ^ 63 + E * 2 ^ 52
      + (m.natAbs * 2 ^ (52 - l) - 2 ^ 52)) := by
    have h1 : (l + e + 1023).toNat = E := by omega
    have h2 : m.natAbs * 2 ^ (52 - l) % 2 ^ 52 = m.natAbs * 2 ^ (52 - l) - 2 ^ 52 := by omega
    simp only [f64OfScaled, h0, if_false, hld, if_pos hl, Nat.shiftLeft_eq, h1, h2]
  have hsg : (if m < 0 then 1 else 0 : Nat) < 2 := by split <;> omega
  have hfr : m.natAbs * 2 ^ (52 - l) - 2 ^ 52 < 2 ^ 52 := by omega
  have f1 := f64Neg_ofFields hsg (show E < 2048 by omega) hfr
  have f2 := f64Exp_ofFields (sg := if m < 0 then 1 else 0) (show E < 2048 by omega) hfr
  have f3 := f64Frac_ofFields (sg := if m < 0 then 1 else 0) (ex := E) hfr
  rw [← hx] at f1 f2 f3
  have hneg : f64Neg (f64OfScaled m e) = decide (m < 0) := by
    rw [f1]; by_cases h : m < 0 <;> simp [h]
  refine ⟨?_, ?_, hneg, ?_⟩
  · simp only [f64IsFinite, f2, bne_iff_ne, ne_eq]; omega
  · have hE0 : E ≠ 0 := by omega
    have hsig : (f64Sig (f64OfScaled m e) : ℚ) = m * 2 ^ (52 - l) := by
      have hA : (2 ^ 52 + (m.natAbs * 2 ^ (52 - l) - 2 ^ 52)) = m.natAbs * 2 ^ (52 - l) := by omega
      simp only [f64Sig, f2, f3, hneg, hE0, if_false, hA, decide_eq_true_eq]
      split
      · rename_i hm0
        have : ((m.natAbs : ℤ) : ℚ) = -m := by exact_mod_cast (by omega : (m.natAbs : ℤ) = -m)
        push_cast at this ⊢
        rw [this]
        ring
      · rename_i hm0
        have : ((m.natAbs : ℤ) : ℚ) = m := by exact_mod_cast (by omega : (m.natAbs : ℤ) = m)
        push_cast at this ⊢
        rw [this]
    have hsc : f64Scale (f64OfScaled m e) = (E : Int) - 1075 := by
      simp only [f64Scale, f2, hE0, if_false]
    rw [f64Real, hsig, hsc, mul_assoc, ← zpow_natCast (2 : ℚ) (52 - l), ← zpow_add₀ (by norm_num)]
    congr 2
    omega
  · intro _; rw [f2]; omega

/-- Truncating an integer is that integer. -/
theorem truncQ_intCast (z : Int) : truncQ (z : ℚ) = z := by
  unfold truncQ
  split <;> simp

/-- Truncating a quotient is division toward zero. -/
theorem truncQ_div (z : Int) {n : Nat} (hn : 0 < n) : truncQ ((z : ℚ) / n) = z.tdiv n := by
  have hq : (0 : ℚ) < n := by exact_mod_cast hn
  unfold truncQ
  by_cases hz : 0 ≤ z
  · have h0 : (0 : ℚ) ≤ (z : ℚ) / n := by positivity
    rw [if_pos h0, Int.tdiv_eq_ediv_of_nonneg hz]
    exact Rat.floor_intCast_div_natCast z n
  · have hneg : (z : ℚ) / n < 0 := div_neg_of_neg_of_pos (by exact_mod_cast (by omega)) hq
    rw [if_neg (not_le.2 hneg)]
    have h1 : (z : ℚ) / n = -(((-z : Int) : ℚ) / n) := by push_cast; ring
    rw [h1, Int.ceil_neg, Rat.floor_intCast_div_natCast, ← Int.tdiv_eq_ediv_of_nonneg (by omega),
      Int.neg_tdiv, neg_neg]

/-- Scaling a finite binary64 by a power of two and truncating is exact arithmetic, then rounding
toward zero (`00_scope.md` R16). -/
theorem f64TruncScaled_spec (x : F64) (fb : Nat) :
    f64TruncScaled x fb = truncQ (f64Real x * 2 ^ fb) := by
  have hr : f64Real x * 2 ^ fb = (f64Sig x : ℚ) * 2 ^ (f64Scale x + fb) := by
    rw [f64Real, mul_assoc, zpow_add₀ (by norm_num), zpow_natCast]
  rw [hr]
  unfold f64TruncScaled
  generalize f64Scale x + (fb : Int) = k
  generalize f64Sig x = z
  by_cases hk : 0 ≤ k
  · obtain ⟨n, rfl⟩ := Int.eq_ofNat_of_zero_le hk
    simp only [hk, if_true, Int.toNat_natCast, zpow_natCast]
    have : (z : ℚ) * 2 ^ n = ((z * 2 ^ n : Int) : ℚ) := by push_cast; rfl
    rw [this, truncQ_intCast]
  · obtain ⟨n, hn⟩ := Int.eq_ofNat_of_zero_le (show 0 ≤ -k by omega)
    obtain rfl : k = -(n : Int) := by omega
    simp only [hk, if_false, neg_neg, Int.toNat_natCast, zpow_neg, zpow_natCast]
    have : (z : ℚ) * (2 ^ n)⁻¹ = (z : ℚ) / ((2 ^ n : Nat) : ℚ) := by push_cast; rfl
    rw [this, truncQ_div z (by positivity)]
    push_cast
    rfl

/-! ### Order -/

/-- The magnitude of a finite binary64, from its fields. -/
def f64Mag (ex fr : Nat) : ℚ :=
  if ex = 0 then (fr : ℚ) * 2 ^ (-1074 : Int) else ((2 ^ 52 + fr : Nat) : ℚ) * 2 ^ ((ex : Int) - 1075)

theorem f64Mag_nonneg (ex fr : Nat) : 0 ≤ f64Mag ex fr := by
  unfold f64Mag; split <;> positivity

/-- The magnitude rises with the exponent and fraction fields read as one number. -/
theorem f64Mag_lt {e1 f1 e2 f2 : Nat} (h1 : f1 < 2 ^ 52) (h2 : f2 < 2 ^ 52)
    (h : e1 * 2 ^ 52 + f1 < e2 * 2 ^ 52 + f2) : f64Mag e1 f1 < f64Mag e2 f2 := by
  unfold f64Mag
  by_cases he : e1 = e2
  · subst he
    have hf : f1 < f2 := by omega
    split
    · exact mul_lt_mul_of_pos_right (by exact_mod_cast hf) (by positivity)
    · exact mul_lt_mul_of_pos_right (by exact_mod_cast (by omega)) (by positivity)
  · have hlt : e1 < e2 := by omega
    rw [if_neg (by omega : e2 ≠ 0)]
    have hr : (2 ^ 52 : ℚ) * 2 ^ ((e2 : Int) - 1075)
        ≤ ((2 ^ 52 + f2 : Nat) : ℚ) * 2 ^ ((e2 : Int) - 1075) :=
      mul_le_mul_of_nonneg_right (by push_cast; linarith [(Nat.cast_nonneg f2 : (0 : ℚ) ≤ f2)])
        (by positivity)
    refine lt_of_lt_of_le ?_ hr
    split
    · have hz : (2 : ℚ) ^ (-1074 : Int) ≤ 2 ^ ((e2 : Int) - 1075) :=
        zpow_le_zpow_right₀ (by norm_num) (by omega)
      calc (f1 : ℚ) * 2 ^ (-1074 : Int) < 2 ^ 52 * 2 ^ (-1074 : Int) :=
            mul_lt_mul_of_pos_right (by exact_mod_cast h1) (by positivity)
        _ ≤ 2 ^ 52 * 2 ^ ((e2 : Int) - 1075) := mul_le_mul_of_nonneg_left hz (by positivity)
    · have hz : (2 : ℚ) ^ ((e1 : Int) - 1074) ≤ 2 ^ ((e2 : Int) - 1075) :=
        zpow_le_zpow_right₀ (by norm_num) (by omega)
      have hs : (2 : ℚ) ^ ((e1 : Int) - 1074) = 2 * 2 ^ ((e1 : Int) - 1075) := by
        rw [← zpow_one_add₀ (by norm_num)]; congr 1; omega
      calc ((2 ^ 52 + f1 : Nat) : ℚ) * 2 ^ ((e1 : Int) - 1075)
          < 2 ^ 53 * 2 ^ ((e1 : Int) - 1075) :=
            mul_lt_mul_of_pos_right (by exact_mod_cast (by omega)) (by positivity)
        _ = 2 ^ 52 * 2 ^ ((e1 : Int) - 1074) := by rw [hs]; ring
        _ ≤ 2 ^ 52 * 2 ^ ((e2 : Int) - 1075) := mul_le_mul_of_nonneg_left hz (by positivity)

/-- The exact value, from the sign and the magnitude. -/
theorem f64Real_eq (x : F64) :
    f64Real x = if f64Neg x then -f64Mag (f64Exp x) (f64Frac x)
      else f64Mag (f64Exp x) (f64Frac x) := by
  unfold f64Real f64Sig f64Scale f64Mag
  by_cases he : f64Exp x = 0 <;> cases f64Neg x <;> simp [he]
  ring

theorem f64Frac_lt (x : F64) : f64Frac x < 2 ^ 52 := (x.extractLsb' 0 52).isLt

/-- The key, from the sign and the fields. -/
theorem f64Key_eq (x : F64) :
    f64Key x = if f64Neg x then -((f64Exp x * 2 ^ 52 + f64Frac x : Nat) : Int)
      else ((f64Exp x * 2 ^ 52 + f64Frac x : Nat) : Int) := by
  have h : (x.extractLsb' 0 63).toNat = f64Exp x * 2 ^ 52 + f64Frac x := by
    simp only [f64Exp, f64Frac, BitVec.extractLsb'_toNat, Nat.shiftRight_eq_div_pow]
    omega
  unfold f64Key
  rw [h]

/-- Two magnitudes and their fields read as one number are ordered alike. -/
theorem f64Mag_trichotomy {e1 f1 e2 f2 : Nat} (h1 : f1 < 2 ^ 52) (h2 : f2 < 2 ^ 52) :
    (e1 * 2 ^ 52 + f1 < e2 * 2 ^ 52 + f2 ∧ f64Mag e1 f1 < f64Mag e2 f2)
      ∨ (e1 * 2 ^ 52 + f1 = e2 * 2 ^ 52 + f2 ∧ f64Mag e1 f1 = f64Mag e2 f2)
      ∨ (e2 * 2 ^ 52 + f2 < e1 * 2 ^ 52 + f1 ∧ f64Mag e2 f2 < f64Mag e1 f1) := by
  rcases Nat.lt_trichotomy (e1 * 2 ^ 52 + f1) (e2 * 2 ^ 52 + f2) with h | h | h
  · exact .inl ⟨h, f64Mag_lt h1 h2 h⟩
  · have he : e1 = e2 := by omega
    subst he
    have hf : f1 = f2 := by omega
    exact .inr (.inl ⟨h, by rw [hf]⟩)
  · exact .inr (.inr ⟨h, f64Mag_lt h2 h1 h⟩)

/-- A magnitude is 0 when its fields are. -/
theorem f64Mag_zero_iff {e f : Nat} (h : f < 2 ^ 52) :
    (0 < e * 2 ^ 52 + f ∧ 0 < f64Mag e f) ∨ (e * 2 ^ 52 + f = 0 ∧ f64Mag e f = 0) := by
  have h0 : f64Mag 0 0 = 0 := by simp [f64Mag]
  have tri := f64Mag_trichotomy (e1 := 0) (f1 := 0) (e2 := e) (by norm_num) h
  rw [h0, Nat.zero_mul, Nat.zero_add] at tri
  rcases tri with ⟨a, b⟩ | ⟨a, b⟩ | ⟨a, -⟩
  · exact .inl ⟨a, b⟩
  · exact .inr ⟨a.symm, b.symm⟩
  · exact absurd a (Nat.not_lt_zero _)

/-- Signed numbers are ordered as signed magnitudes are, where numbers and magnitudes are. -/
theorem signed_lt_iff {A B : Nat} {M N : ℚ} (sx sy : Bool)
    (tri : (A < B ∧ M < N) ∨ (A = B ∧ M = N) ∨ (B < A ∧ N < M))
    (q1 : (0 < A ∧ 0 < M) ∨ (A = 0 ∧ M = 0)) (q2 : (0 < B ∧ 0 < N) ∨ (B = 0 ∧ N = 0)) :
    (if sx then -(A : Int) else A) < (if sy then -(B : Int) else B)
      ↔ (if sx then -M else M) < (if sy then -N else N) := by
  cases sx <;> cases sy <;> simp only [if_true, if_false, Bool.false_eq_true]
  · rcases tri with ⟨h, g⟩ | ⟨h, g⟩ | ⟨h, g⟩ <;> constructor <;> intro _ <;>
      first | omega | linarith
  · rcases q1 with ⟨h, g⟩ | ⟨h, g⟩ <;> rcases q2 with ⟨h', g'⟩ | ⟨h', g'⟩ <;> constructor <;>
      intro k <;> exfalso <;> first | omega | linarith
  · rcases q1 with ⟨h, g⟩ | ⟨h, g⟩ <;> rcases q2 with ⟨h', g'⟩ | ⟨h', g'⟩ <;> constructor <;>
      intro k <;> first | omega | linarith
  · rcases tri with ⟨h, g⟩ | ⟨h, g⟩ | ⟨h, g⟩ <;> constructor <;> intro _ <;>
      first | omega | linarith

/-- The key orders the values as the exact values are ordered. -/
theorem f64Key_lt_iff (x y : F64) : f64Key x < f64Key y ↔ f64Real x < f64Real y := by
  rw [f64Key_eq, f64Key_eq, f64Real_eq, f64Real_eq]
  exact signed_lt_iff _ _ (f64Mag_trichotomy (f64Frac_lt x) (f64Frac_lt y))
    (f64Mag_zero_iff (f64Frac_lt x)) (f64Mag_zero_iff (f64Frac_lt y))

end Sys2Proof.Machine
end

