-- ==== Sys2Proof/Laws/PerInstr.lean ====
section
/-! SUPPORT. A statement about every instruction as syntax, one lemma per constructor: it is a record on
the REQ port if it is a REQ operation and one RX byte otherwise (`30_encoding.md` R90), and there is a
session position where it may stand. -/

namespace Sys2Proof.Laws.EncodesOnItsPort

open Sys2Proof.Machine

/-- The instruction's port and a position for it. -/
def Statement (i : Instr) : Prop :=
  (∀ p : Params, (isReq i = true ∧ ∃ r, encode p i = .req r)
    ∨ (isReq i = false ∧ ∃ b, encode p i = .rx b))
  ∧ ∃ pos, i.fits pos = true

theorem fxpDecS : ∀ raw a, Statement (.fxpDecS raw a) :=
  fun _ _ => ⟨fun _ => .inl ⟨rfl, _, rfl⟩, .idle, rfl⟩
theorem fxpEncS : ∀ val a, Statement (.fxpEncS val a) :=
  fun _ _ => ⟨fun _ => .inl ⟨rfl, _, rfl⟩, .idle, rfl⟩
theorem fxpDecU : ∀ raw a, Statement (.fxpDecU raw a) :=
  fun _ _ => ⟨fun _ => .inl ⟨rfl, _, rfl⟩, .idle, rfl⟩
theorem fxpEncU : ∀ val a, Statement (.fxpEncU val a) :=
  fun _ _ => ⟨fun _ => .inl ⟨rfl, _, rfl⟩, .idle, rfl⟩
theorem rdOffset : ∀ ch, Statement (.rdOffset ch) :=
  fun _ => ⟨fun _ => .inl ⟨rfl, _, rfl⟩, .idle, rfl⟩
theorem wrOffset : ∀ ch val, Statement (.wrOffset ch val) :=
  fun _ _ => ⟨fun _ => .inl ⟨rfl, _, rfl⟩, .idle, rfl⟩
theorem rdGain : ∀ ch, Statement (.rdGain ch) :=
  fun _ => ⟨fun _ => .inl ⟨rfl, _, rfl⟩, .idle, rfl⟩
theorem wrGain : ∀ ch val, Statement (.wrGain ch val) :=
  fun _ _ => ⟨fun _ => .inl ⟨rfl, _, rfl⟩, .idle, rfl⟩
theorem cfgInput : ∀ ch a b c, Statement (.cfgInput ch a b c) :=
  fun _ _ _ _ => ⟨fun _ => .inl ⟨rfl, _, rfl⟩, .idle, rfl⟩
theorem startMeas : ∀ ch, Statement (.startMeas ch) :=
  fun _ => ⟨fun _ => .inl ⟨rfl, _, rfl⟩, .idle, rfl⟩
theorem stopMeas : ∀ ch, Statement (.stopMeas ch) :=
  fun _ => ⟨fun _ => .inl ⟨rfl, _, rfl⟩, .idle, rfl⟩
theorem isDone : ∀ ch, Statement (.isDone ch) :=
  fun _ => ⟨fun _ => .inl ⟨rfl, _, rfl⟩, .idle, rfl⟩
theorem newData : Statement (.newData) :=
  ⟨fun _ => .inl ⟨rfl, _, rfl⟩, .idle, rfl⟩
theorem setRate : ∀ a, Statement (.setRate a) :=
  fun _ => ⟨fun _ => .inl ⟨rfl, _, rfl⟩, .idle, rfl⟩
theorem rdRate : Statement (.rdRate) :=
  ⟨fun _ => .inl ⟨rfl, _, rfl⟩, .idle, rfl⟩
theorem enRepeat : ∀ a, Statement (.enRepeat a) :=
  fun _ => ⟨fun _ => .inl ⟨rfl, _, rfl⟩, .idle, rfl⟩
theorem disRepeat : Statement (.disRepeat) :=
  ⟨fun _ => .inl ⟨rfl, _, rfl⟩, .idle, rfl⟩
theorem rdRaw : ∀ ch, Statement (.rdRaw ch) :=
  fun _ => ⟨fun _ => .inl ⟨rfl, _, rfl⟩, .idle, rfl⟩
theorem rdMeas : ∀ ch, Statement (.rdMeas ch) :=
  fun _ => ⟨fun _ => .inl ⟨rfl, _, rfl⟩, .idle, rfl⟩
theorem reset : Statement (.reset) :=
  ⟨fun _ => .inl ⟨rfl, _, rfl⟩, .idle, rfl⟩
theorem present : Statement (.present) :=
  ⟨fun _ => .inl ⟨rfl, _, rfl⟩, .idle, rfl⟩
theorem rdId : ∀ a, Statement (.rdId a) :=
  fun _ => ⟨fun _ => .inl ⟨rfl, _, rfl⟩, .idle, rfl⟩
theorem reservedLow : ∀ lo, Statement (.reservedLow lo) :=
  fun _ => ⟨fun _ => .inl ⟨rfl, _, rfl⟩, .idle, rfl⟩
theorem reservedHigh : ∀ lo, Statement (.reservedHigh lo) :=
  fun _ => ⟨fun _ => .inl ⟨rfl, _, rfl⟩, .idle, rfl⟩
theorem cmdEnterRate : Statement (.cmdEnterRate) :=
  ⟨fun _ => .inr ⟨rfl, _, rfl⟩, .idle, rfl⟩
theorem cmdEnterChset : Statement (.cmdEnterChset) :=
  ⟨fun _ => .inr ⟨rfl, _, rfl⟩, .idle, rfl⟩
theorem cmdReset : Statement (.cmdReset) :=
  ⟨fun _ => .inr ⟨rfl, _, rfl⟩, .idle, rfl⟩
theorem cmdMfrId : Statement (.cmdMfrId) :=
  ⟨fun _ => .inr ⟨rfl, _, rfl⟩, .idle, rfl⟩
theorem cmdDevId : Statement (.cmdDevId) :=
  ⟨fun _ => .inr ⟨rfl, _, rfl⟩, .idle, rfl⟩
theorem cmdRdRate : Statement (.cmdRdRate) :=
  ⟨fun _ => .inr ⟨rfl, _, rfl⟩, .idle, rfl⟩
theorem cmdSensor : Statement (.cmdSensor) :=
  ⟨fun _ => .inr ⟨rfl, _, rfl⟩, .idle, rfl⟩
theorem cmdRdCh0 : Statement (.cmdRdCh0) :=
  ⟨fun _ => .inr ⟨rfl, _, rfl⟩, .idle, rfl⟩
theorem cmdRdCh1 : Statement (.cmdRdCh1) :=
  ⟨fun _ => .inr ⟨rfl, _, rfl⟩, .idle, rfl⟩
theorem cmdRdCh2 : Statement (.cmdRdCh2) :=
  ⟨fun _ => .inr ⟨rfl, _, rfl⟩, .idle, rfl⟩
theorem cmdRdCh3 : Statement (.cmdRdCh3) :=
  ⟨fun _ => .inr ⟨rfl, _, rfl⟩, .idle, rfl⟩
theorem cmdStart0 : Statement (.cmdStart0) :=
  ⟨fun _ => .inr ⟨rfl, _, rfl⟩, .idle, rfl⟩
theorem cmdStart1 : Statement (.cmdStart1) :=
  ⟨fun _ => .inr ⟨rfl, _, rfl⟩, .idle, rfl⟩
theorem cmdStart2 : Statement (.cmdStart2) :=
  ⟨fun _ => .inr ⟨rfl, _, rfl⟩, .idle, rfl⟩
theorem cmdStart3 : Statement (.cmdStart3) :=
  ⟨fun _ => .inr ⟨rfl, _, rfl⟩, .idle, rfl⟩
theorem seqRateDigit : ∀ b, Statement (.seqRateDigit b) :=
  fun _ => ⟨fun _ => .inr ⟨rfl, _, rfl⟩, .rate 1, rfl⟩
theorem seqRateLatch : ∀ b, Statement (.seqRateLatch b) :=
  fun _ => ⟨fun _ => .inr ⟨rfl, _, rfl⟩, .rate 2, rfl⟩
theorem seqChsetPayload : ∀ b, Statement (.seqChsetPayload b) :=
  fun _ => ⟨fun _ => .inr ⟨rfl, _, rfl⟩, .chset 1, rfl⟩
theorem seqChsetLatch : ∀ b, Statement (.seqChsetLatch b) :=
  fun _ => ⟨fun _ => .inr ⟨rfl, _, rfl⟩, .chset 7, rfl⟩

end Sys2Proof.Laws.EncodesOnItsPort
end

