-- ==== Sys2Proof/Tests/Slice0.lean ====
section
/-! SUPPORT. The model's own tests: the WellFormed smoke tests, every constructor's word from the
spec's encoding, single steps against `95_test_vectors.md`, and a witness for the hypotheses of each
statement. -/

namespace Sys2Proof.Tests

open Sys2Proof.Machine

/-! ### Helpers -/

/-- The device answers, changing nothing. -/
def ans : DeviceTurn := ⟨[], true⟩

/-- The device fails the transaction. -/
def nak : DeviceTurn := ⟨[], false⟩

/-- The device sets a register, then answers. -/
def sets (r : Byte) (w : Word) : DeviceTurn := ⟨[(r, w)], true⟩

/-- Reset, with some device registers and the device's coming moves. -/
def dev (regs : List (Byte × Word)) (turns : List DeviceTurn) : State :=
  { State.reset with regs := regsChanged [] regs, turns := turns }

/-- `dev` in the middle of a command. -/
def devAt (k : Kind) (progress : BitVec 3) (scratch : Vector Byte 6) (regs : List (Byte × Word))
    (turns : List DeviceTurn) : State :=
  { dev regs turns with session :=
      { mode := .awaiting, kind := k, progress := progress, deadline := 0, scratch := scratch } }

/-- The next state, if there is one. -/
def next? (o : Host.Outcome State Fault Refusal) : Option State :=
  match o with
  | .next s => some s
  | .fault _ => none
  | .refused _ => none

/-- The result record an operation gives. -/
def result? (i : Instr) (s : State) : Option ReqResult :=
  (next? (exec i s)).bind fun t => t.results.getLast?

/-- A record of status OK, and one of a status alone. -/
def okData (v : Long) : ReqResult := { status := .ok, rdata := v, rval := 0, rbool := false }
def okReal (v : F64) : ReqResult := { status := .ok, rdata := 0, rval := v, rbool := false }
def okBool (v : Bool) : ReqResult := { status := .ok, rdata := 0, rval := 0, rbool := v }

/-- Result status and a register after an operation. -/
def statusAndReg (i : Instr) (r : Byte) (s : State) : Option (Status × Word) :=
  (next? (exec i s)).bind fun t => t.results.getLast?.map fun q => (q.status, regRead t.regs r)

/-- The OUT queue and a register after an instruction. -/
def outAndReg (i : Instr) (r : Byte) (s : State) : Option (List OutEvent × Word) :=
  (next? (exec i s)).map fun t => (t.out, regRead t.regs r)

/-- The OUT queue after an instruction. -/
def out? (i : Instr) (s : State) : Option (List OutEvent) := (next? (exec i s)).map (·.out)

/-- The OUT queue and the mode after one step that takes the input offered. -/
def stepOut (i : StepInput) (s : State) : Option (List OutEvent × Mode) :=
  (next? (step (s.offer i))).map fun t => (t.out, t.session.mode)

/-- A whole REQ record with an op and every operand field filled. -/
def fullReq (op : BitVec 5) : PortWord := .req ⟨op, 0x01, 0x02, 0x03, 0x04, 0x0506, 0x0708⟩

/-! ### WellFormed refuses ill-formed terms (`30_encoding.md` R102, R110; `00_scope.md` R12) -/

theorem test_wf_default : Params.default.wf = true := by decide
theorem test_wf_refuses_equal_command_bytes :
    Params.cmdBytesDistinct { Params.default with cmdReset := 0x6D } = false
      ∧ Params.wf { Params.default with cmdReset := 0x6D } = false := by decide
theorem test_wf_refuses_equal_packet_ids :
    Params.pktIdsDistinct { Params.default with pktRate := 0x01 } = false
      ∧ Params.wf { Params.default with pktRate := 0x01 } = false := by decide
theorem test_wf_refuses_tick_width :
    Params.tickWidthInRange { Params.default with tickW := 7 } = false
      ∧ Params.tickWidthInRange { Params.default with tickW := 65 } = false
      ∧ Params.wf { Params.default with tickW := 65 } = false := by decide
theorem test_wf_refuses_poll_limit :
    Params.pollLimitInRange { Params.default with resetPollLimit := 0 } = false
      ∧ Params.pollLimitInRange { Params.default with resetPollLimit := 65537 } = false
      ∧ Params.wf { Params.default with resetPollLimit := 0 } = false := by decide
theorem test_fits_refuses_wrong_place :
    Instr.fits .cmdReset (.rate 1) = false ∧ (Instr.seqRateDigit 0x31).fits .idle = false
      ∧ (Instr.seqRateLatch 0x4C).fits (.rate 1) = false
      ∧ (Instr.seqChsetPayload 0).fits (.chset 0) = false
      ∧ (Instr.seqChsetPayload 0).fits (.chset 7) = false
      ∧ (Instr.seqChsetLatch 0).fits (.chset 6) = false := by decide
theorem test_step_refuses_ill_formed :
    step { State.reset with params := { Params.default with cmdReset := 0x6D } }
      = .refused .illFormedParameters := rfl

/-! ### Decoding: words written from the tables of R92, R94, R101, R104, R106 -/

theorem test_decode_fxp :
    decode .default .idle (fullReq 0b00000) = .ok (.fxpDecS 0x0506 0x02)
      ∧ decode .default .idle (fullReq 0b00001) = .ok (.fxpEncS 0x0708 0x02)
      ∧ decode .default .idle (fullReq 0b00010) = .ok (.fxpDecU 0x0506 0x02)
      ∧ decode .default .idle (fullReq 0b00011) = .ok (.fxpEncU 0x0708 0x02) :=
  ⟨rfl, rfl, rfl, rfl⟩
theorem test_decode_calibration :
    decode .default .idle (fullReq 0b00100) = .ok (.rdOffset 0x01)
      ∧ decode .default .idle (fullReq 0b00101) = .ok (.wrOffset 0x01 0x0708)
      ∧ decode .default .idle (fullReq 0b00110) = .ok (.rdGain 0x01)
      ∧ decode .default .idle (fullReq 0b00111) = .ok (.wrGain 0x01 0x0708) :=
  ⟨rfl, rfl, rfl, rfl⟩
theorem test_decode_configuration :
    decode .default .idle (fullReq 0b01000) = .ok (.cfgInput 0x01 0x02 0x03 0x04)
      ∧ decode .default .idle (fullReq 0b01001) = .ok (.startMeas 0x01)
      ∧ decode .default .idle (fullReq 0b01010) = .ok (.stopMeas 0x01)
      ∧ decode .default .idle (fullReq 0b01011) = .ok (.isDone 0x01)
      ∧ decode .default .idle (fullReq 0b01100) = .ok .newData
      ∧ decode .default .idle (fullReq 0b01101) = .ok (.setRate 0x02)
      ∧ decode .default .idle (fullReq 0b01110) = .ok .rdRate
      ∧ decode .default .idle (fullReq 0b01111) = .ok (.enRepeat 0x02)
      ∧ decode .default .idle (fullReq 0b10000) = .ok .disRepeat :=
  ⟨rfl, rfl, rfl, rfl, rfl, rfl, rfl, rfl, rfl⟩
theorem test_decode_measurement_and_device :
    decode .default .idle (fullReq 0b10001) = .ok (.rdRaw 0x01)
      ∧ decode .default .idle (fullReq 0b10010) = .ok (.rdMeas 0x01)
      ∧ decode .default .idle (fullReq 0b10011) = .ok .reset
      ∧ decode .default .idle (fullReq 0b10100) = .ok .present
      ∧ decode .default .idle (fullReq 0b10101) = .ok (.rdId 0x02) :=
  ⟨rfl, rfl, rfl, rfl, rfl⟩
theorem test_decode_reserved :
    decode .default .idle (fullReq 0b10110) = .ok (.reservedLow 0)
      ∧ decode .default .idle (fullReq 0b10111) = .ok (.reservedLow 1)
      ∧ decode .default .idle (fullReq 0b11000) = .ok (.reservedHigh 0)
      ∧ decode .default .idle (fullReq 0b11111) = .ok (.reservedHigh 7) :=
  ⟨rfl, rfl, rfl, rfl⟩
theorem test_decode_commands :
    decode .default .idle (.rx 0b01110010) = .ok .cmdEnterRate
      ∧ decode .default .idle (.rx 0b01110011) = .ok .cmdEnterChset
      ∧ decode .default .idle (.rx 0b01110110) = .ok .cmdReset
      ∧ decode .default .idle (.rx 0b01101101) = .ok .cmdMfrId
      ∧ decode .default .idle (.rx 0b01101001) = .ok .cmdDevId
      ∧ decode .default .idle (.rx 0b01100110) = .ok .cmdRdRate
      ∧ decode .default .idle (.rx 0b01110000) = .ok .cmdSensor :=
  ⟨rfl, rfl, rfl, rfl, rfl, rfl, rfl⟩
theorem test_decode_channel_commands :
    decode .default .idle (.rx 0b01000001) = .ok .cmdRdCh0
      ∧ decode .default .idle (.rx 0b01000010) = .ok .cmdRdCh1
      ∧ decode .default .idle (.rx 0b01000011) = .ok .cmdRdCh2
      ∧ decode .default .idle (.rx 0b01000100) = .ok .cmdRdCh3
      ∧ decode .default .idle (.rx 0b01100001) = .ok .cmdStart0
      ∧ decode .default .idle (.rx 0b01100010) = .ok .cmdStart1
      ∧ decode .default .idle (.rx 0b01100011) = .ok .cmdStart2
      ∧ decode .default .idle (.rx 0b01100100) = .ok .cmdStart3 :=
  ⟨rfl, rfl, rfl, rfl, rfl, rfl, rfl, rfl⟩
theorem test_decode_sequence_bytes :
    decode .default (.rate 1) (.rx 0b00110010) = .ok (.seqRateDigit 0x32)
      ∧ decode .default (.rate 2) (.rx 0b01001100) = .ok (.seqRateLatch 0x4C)
      ∧ decode .default (.chset 1) (.rx 0b10001010) = .ok (.seqChsetPayload 0x8A)
      ∧ decode .default (.chset 6) (.rx 0b01110010) = .ok (.seqChsetPayload 0x72)
      ∧ decode .default (.chset 7) (.rx 0b01001100) = .ok (.seqChsetLatch 0x4C) :=
  ⟨rfl, rfl, rfl, rfl, rfl⟩
/-- `95_test_vectors.md` V1: 0x50 names no command. -/
theorem test_decode_rejects_unknown :
    decode .default .idle (.rx 0x50) = .error (.unknownCommand 0x50)
      ∧ decodeTableWord 8 0x50 = none := ⟨rfl, rfl⟩
theorem test_record_bits_round_trip :
    ReqRecord.ofBits (ReqRecord.toBits ⟨0x08, 0x01, 0x02, 0x03, 0x04, 0x0506, 0x0708090A0B0C0D0E⟩)
      = ⟨0x08, 0x01, 0x02, 0x03, 0x04, 0x0506, 0x0708090A0B0C0D0E⟩ := by decide

/-! ### FXP unit (`95_test_vectors.md` L2-FXP) -/

theorem test_fxpDecS :
    result? (.fxpDecS 0x8000 11) (dev [] []) = some (okReal 0xC030000000000000)
      ∧ result? (.fxpDecS 0x0001 255) (dev [] []) = some (okReal 0x3000000000000000) := by
  decide
theorem test_fxpDecS_zero : result? (.fxpDecS 0 11) (dev [] []) = some (okReal 0) := by
  decide
/-- -0.001, 11: -2.048 truncates to -2; 16.0 wraps. -/
theorem test_fxpEncS :
    result? (.fxpEncS 0xBF50624DD2F1A9FC 11) (dev [] []) = some (okData 0xFFFE)
      ∧ result? (.fxpEncS 0x4030000000000000 11) (dev [] []) = some (okData 0x8000) := by
  decide
theorem test_fxpEncS_nan : result? (.fxpEncS 0x7FF8000000000000 11) (dev [] []) = some (okData 0) := by
  decide
theorem test_fxpDecU :
    result? (.fxpDecU 0x8000 14) (dev [] []) = some (okReal 0x4000000000000000) := by
  decide
/-- -1.0, 14: -16384 wraps. -/
theorem test_fxpEncU :
    result? (.fxpEncU 0xBFF0000000000000 14) (dev [] []) = some (okData 0xC000) := by
  decide

/-! ### REG unit (L2-REG) -/

theorem test_rdOffset :
    result? (.rdOffset 3) (dev [(0x10, 0xF800)] [ans]) = some (okReal 0xBFF0000000000000)
      ∧ result? (.rdOffset 0) (dev [] [nak]) = some (plainResult .commError) := by decide
theorem test_rdOffset_channel :
    result? (.rdOffset 4) (dev [] []) = some (plainResult .configError) := by decide
/-- -16.0 is accepted and 16.0 is not. -/
theorem test_wrOffset :
    statusAndReg (.wrOffset 0 0xC030000000000000) 0x0D (dev [] [ans]) = some (.ok, 0x8000)
      ∧ statusAndReg (.wrOffset 0 0x4030000000000000) 0x0D (dev [] [ans])
        = some (.configError, 0) := by decide
theorem test_wrOffset_fails :
    statusAndReg (.wrOffset 3 0x3FF0000000000000) 0x10 (dev [] [nak]) = some (.commError, 0)
      ∧ result? (.wrOffset 4 0x3FF0000000000000) (dev [] []) = some (plainResult .configError) := by
  decide
theorem test_rdGain :
    result? (.rdGain 0) (dev [(0x11, 0x4000)] [ans]) = some (okReal 0x3FF0000000000000)
      ∧ result? (.rdGain 3) (dev [] [nak]) = some (plainResult .commError) := by decide
theorem test_rdGain_channel :
    result? (.rdGain 4) (dev [] []) = some (plainResult .configError) := by decide
/-- -0.0 is accepted; 4.0 is not. -/
theorem test_wrGain :
    statusAndReg (.wrGain 2 0x3FF0000000000000) 0x13 (dev [] [ans]) = some (.ok, 0x4000)
      ∧ statusAndReg (.wrGain 0 0x8000000000000000) 0x11 (dev [] [ans]) = some (.ok, 0)
      ∧ result? (.wrGain 0 0x4010000000000000) (dev [] []) = some (plainResult .configError) := by
  decide +kernel
theorem test_wrGain_fails :
    statusAndReg (.wrGain 0 0x3FF0000000000000) 0x11 (dev [] [nak]) = some (.commError, 0) := by
  decide
theorem test_cfgInput :
    statusAndReg (.cfgInput 0 0 4 5) 0x08 (dev [(0x08, 0x1C00)] [ans, ans]) = some (.ok, 0x10A0)
      ∧ statusAndReg (.cfgInput 3 0 7 31) 0x0B (dev [(0x0B, 0xFFFF)] [ans, ans])
        = some (.ok, 0x1FEF) := by decide
theorem test_cfgInput_refused :
    statusAndReg (.cfgInput 0 0 4 5) 0x08 (dev [(0x08, 0x1C00)] [ans, nak])
        = some (.commError, 0x1C00)
      ∧ result? (.cfgInput 0 2 2 0) (dev [] []) = some (plainResult .configError)
      ∧ result? (.cfgInput 0 4 7 0) (dev [] []) = some (plainResult .configError)
      ∧ result? (.cfgInput 0 0 5 0) (dev [] []) = some (plainResult .configError)
      ∧ result? (.cfgInput 0 3 4 32) (dev [] []) = some (plainResult .configError)
      ∧ result? (.cfgInput 4 0 4 0) (dev [] []) = some (plainResult .configError) := by
  decide
theorem test_startMeas :
    statusAndReg (.startMeas 2) 0x0C (dev [(0x0C, 0x040F)] [ans, ans]) = some (.ok, 0x042F)
      ∧ result? (.startMeas 4) (dev [] []) = some (plainResult .configError) := by decide
theorem test_startMeas_fails :
    statusAndReg (.startMeas 3) 0x0C (dev [] [nak]) = some (.commError, 0) := by decide
theorem test_stopMeas :
    statusAndReg (.stopMeas 1) 0x0C (dev [(0x0C, 0x05F0)] [ans, ans]) = some (.ok, 0x05B0)
      ∧ result? (.stopMeas 4) (dev [] []) = some (plainResult .configError) := by decide
theorem test_isDone :
    result? (.isDone 0) (dev [(0x0C, 0x0008)] [ans]) = some (okBool true)
      ∧ result? (.isDone 3) (dev [(0x0C, 0x0008)] [ans]) = some (okBool false)
      ∧ result? (.isDone 3) (dev [(0x0C, 0x0001)] [ans]) = some (okBool true) := by decide
theorem test_isDone_fails :
    result? (.isDone 3) (dev [] [nak]) = some (plainResult .commError)
      ∧ result? (.isDone 5) (dev [] []) = some (plainResult .configError) := by decide
theorem test_newData :
    result? .newData (dev [(0x0C, 0x018C)] [ans]) = some (okData 0xC)
      ∧ result? .newData (dev [] [nak]) = some (plainResult .commError) := by decide
theorem test_setRate :
    statusAndReg (.setRate 1) 0x0C (dev [(0x0C, 0x0D80)] [ans, ans]) = some (.ok, 0x0580)
      ∧ statusAndReg (.setRate 3) 0x0C (dev [(0x0C, 0x0180)] [ans, ans]) = some (.ok, 0x0D80) := by
  decide
theorem test_setRate_refused :
    result? (.setRate 0) (dev [] []) = some (plainResult .configError)
      ∧ result? (.setRate 4) (dev [] []) = some (plainResult .configError) := by decide
theorem test_rdRate :
    result? .rdRate (dev [(0x0C, 0x0D80)] [ans]) = some (okData 3)
      ∧ result? .rdRate (dev [] [ans]) = some (okData 0) := by decide
theorem test_enRepeat :
    statusAndReg (.enRepeat 0b0101) 0x0C (dev [(0x0C, 0x04F0)] [ans, ans, ans])
        = some (.ok, 0x05A0)
      ∧ statusAndReg (.enRepeat 0x0F) 0x0C (dev [(0x0C, 0x0800)] [ans, ans, ans])
        = some (.ok, 0x09F0) := by decide
/-- No rollback: the first write stays when the second fails. -/
theorem test_enRepeat_fails :
    statusAndReg (.enRepeat 0b0101) 0x0C (dev [(0x0C, 0x04F0)] [ans, ans, nak])
        = some (.commError, 0x0400)
      ∧ result? (.enRepeat 0x10) (dev [] []) = some (plainResult .configError) := by decide
theorem test_disRepeat :
    statusAndReg .disRepeat 0x0C (dev [(0x0C, 0x05A0)] [ans, ans]) = some (.ok, 0x04A0)
      ∧ statusAndReg .disRepeat 0x0C (dev [(0x0C, 0x05A0)] [ans, nak])
        = some (.commError, 0x05A0) := by decide
theorem test_rdRaw :
    result? (.rdRaw 1) (dev [(0x02, 0xFFFF), (0x03, 0xFF12)] [ans, ans])
        = some (okData 0xFFFFFF00)
      ∧ result? (.rdRaw 0) (dev [(0x00, 0x0012), (0x01, 0x34AB)] [ans, ans])
        = some (okData 0x00123400) := by decide
theorem test_rdRaw_fails :
    result? (.rdRaw 3) (dev [] [ans, nak]) = some (plainResult .commError)
      ∧ result? (.rdRaw 4) (dev [] []) = some (plainResult .configError) := by decide
/-- 80.875 pF. -/
theorem test_rdMeas :
    result? (.rdMeas 2) (dev [(0x04, 0x8000), (0x0A, 0x03E0)] [ans, ans, ans])
        = some (okReal 0x4054380000000000)
      ∧ result? (.rdMeas 0) (dev [(0x00, 0xFFFF), (0x01, 0xFF00)] [ans, ans, ans])
        = some (okReal 0xBEC0000000000000) := by decide
theorem test_rdMeas_fails :
    result? (.rdMeas 3) (dev [] [ans, ans, nak]) = some (plainResult .commError)
      ∧ result? (.rdMeas 4) (dev [] []) = some (plainResult .configError) := by decide
theorem test_reset :
    statusAndReg .reset 0x0C (dev [(0x0C, 0x0400)] [ans, ans, sets 0x0C 0x0400])
        = some (.ok, 0x0400)
      ∧ statusAndReg .reset 0x0C (dev [(0x0C, 0x0400)] [ans, nak]) = some (.commError, 0x0400) := by
  decide
theorem test_reset_timeout :
    statusAndReg .reset 0x0C { dev [(0x0C, 0x0400)] [ans, ans, ans, ans] with
        params := { Params.default with resetPollLimit := 2 } } = some (.timeout, 0x8400) := by
  decide
theorem test_present :
    result? .present (dev [] [ans]) = some (okBool true)
      ∧ result? .present (dev [] [nak]) = some (okBool false) := by decide
theorem test_rdId :
    result? (.rdId 0) (dev [(0xFE, 0x5449)] [ans]) = some (okData 0x5449)
      ∧ result? (.rdId 1) (dev [(0xFF, 0x1234)] [ans]) = some (okData 0x1234) := by decide
theorem test_rdId_fails :
    result? (.rdId 1) (dev [] [nak]) = some (plainResult .commError)
      ∧ result? (.rdId 2) (dev [] []) = some (plainResult .configError) := by decide
theorem test_reserved :
    result? (.reservedLow 0) (dev [] []) = some (plainResult .configError)
      ∧ result? (.reservedHigh 7) (dev [] []) = some (plainResult .configError) := by decide

/-! ### CMD unit (L2-CMD) -/

theorem test_cmdEnter :
    (next? (exec .cmdEnterRate { dev [] [] with tick := 10 })).map (·.session)
        = some ⟨.awaiting, .rate, 1, 10, #v[0, 0, 0, 0, 0, 0]⟩
      ∧ (next? (exec .cmdEnterChset { dev [] [] with tick := 50 })).map (·.session)
        = some ⟨.awaiting, .chset, 1, 50, #v[0, 0, 0, 0, 0, 0]⟩ := by decide
/-- V15, V16 with two polls. -/
theorem test_cmdReset :
    outAndReg .cmdReset 0x0C (dev [(0x0C, 0x0400)] [ans, ans, sets 0x0C 0x0400])
        = some ([.notice .ok], 0x0400)
      ∧ out? .cmdReset { dev [] [ans, ans, ans, ans] with
          params := { Params.default with resetPollLimit := 2 } }
        = some [.notice .resetTimeout] := by decide
/-- V4, V5, V6. -/
theorem test_cmdIds :
    out? .cmdMfrId (dev [(0xFE, 0x5449)] [ans]) = some [.packet [0xA0, 0x03, 0x54, 0x49, 0xC0]]
      ∧ out? .cmdMfrId (dev [] [nak]) = some [.packet [0xA0, 0x03, 0xFF, 0xFF, 0xC0]]
      ∧ out? .cmdDevId (dev [(0xFF, 0x1234)] [ans])
        = some [.packet [0xA0, 0x04, 0x12, 0x34, 0xC0]] := by decide
/-- V7, V9. -/
theorem test_cmdRdRate :
    out? .cmdRdRate (dev [(0x0C, 0x0C00)] [ans]) = some [.packet [0xA0, 0x02, 0x03, 0xC0]]
      ∧ out? .cmdRdRate (dev [] [nak]) = some [.packet [0xA0, 0x02, 0xFF, 0xC0]] := by
  decide
/-- V2, V3. -/
theorem test_cmdSensor :
    out? .cmdSensor (dev [] [ans]) = some [.packet [0xA0, 0x01, 0x01, 0xC0]]
      ∧ out? .cmdSensor (dev [] [nak]) = some [.packet [0xA0, 0x01, 0x00, 0xC0]] := by
  decide
/-- V10, V11. -/
theorem test_cmdRdCh :
    out? .cmdRdCh0 (dev [(0x08, 0x1C00), (0x11, 0x4000)] [ans, ans, ans])
        = some [.packet [0xA0, 0x05, 0x00, 0x07, 0x00, 0x00, 0x40, 0x00, 0xC0]]
      ∧ out? .cmdRdCh1 (dev [(0x09, 0x3C20), (0x0E, 0xF800), (0x12, 0x8000)] [ans, ans, ans])
        = some [.packet [0xA0, 0x05, 0x41, 0x17, 0xF8, 0x00, 0x80, 0x00, 0xC0]] := by
  decide
/-- Program P2's last line, and V12. -/
theorem test_cmdRdCh_more :
    out? .cmdRdCh2 (dev [(0x0A, 0x5147), (0x0F, 0x0800), (0x13, 0x4000)] [ans, ans, ans])
        = some [.packet [0xA0, 0x05, 0x8A, 0x24, 0x08, 0x00, 0x40, 0x00, 0xC0]]
      ∧ out? .cmdRdCh3 (dev [] [ans, nak])
        = some [.packet [0xA0, 0x05, 0xFF, 0xFF, 0xFF, 0xFF, 0xFF, 0xFF, 0xC0]] := by
  decide
/-- V13, V14, L1.13. -/
theorem test_cmdStart :
    outAndReg .cmdStart0 0x0C (dev [] [ans, ans]) = some ([.notice .ok], 0x0080)
      ∧ outAndReg .cmdStart1 0x0C (dev [] [ans, ans]) = some ([.notice .ok], 0x0040)
      ∧ outAndReg .cmdStart2 0x0C (dev [] [ans, ans]) = some ([.notice .ok], 0x0020)
      ∧ outAndReg .cmdStart3 0x0C (dev [] [ans, ans]) = some ([.notice .ok], 0x0010) := by
  decide
theorem test_cmdStart_fails : out? .cmdStart3 (dev [] [nak]) = some [.notice .comm] := by
  decide
/-- '2' stores 2; 'X' is no digit. -/
theorem test_seqRateDigit :
    (next? (exec (.seqRateDigit 0x32) (devAt .rate 1 #v[9, 0, 0, 0, 0, 0] [] []))).map (·.session)
        = some ⟨.awaiting, .rate, 2, 0, #v[2, 0, 0, 0, 0, 0]⟩
      ∧ (next? (exec (.seqRateDigit 0x58) (devAt .rate 1 #v[9, 0, 0, 0, 0, 0] [] []))).map
          (·.session.scratch[0]) = some 0 := by decide
/-- V17, V18. -/
theorem test_seqRateLatch :
    outAndReg (.seqRateLatch 0x4C) 0x0C (devAt .rate 2 #v[2, 0, 0, 0, 0, 0] [] [ans, ans])
        = some ([.notice .ok], 0x0800)
      ∧ out? (.seqRateLatch 0x4C) (devAt .rate 2 #v[7, 0, 0, 0, 0, 0] [] [])
        = some [.notice .config] := by decide
/-- V21. -/
theorem test_seqRateLatch_mismatch :
    (next? (exec (.seqRateLatch 0x51) (devAt .rate 2 #v[1, 0, 0, 0, 0, 0] [] []))).map
        (fun t => (t.out, t.session.mode, t.bus)) = some ([.notice .tooFew], .idle, []) := by
  decide
theorem test_seqChsetPayload :
    (next? (exec (.seqChsetPayload 0x4C) (devAt .chset 6 #v[1, 2, 3, 4, 5, 0] [] []))).map
        (·.session) = some ⟨.awaiting, .chset, 7, 0, #v[1, 2, 3, 4, 5, 0x4C]⟩ := by decide
theorem test_seqChsetPayload_stops :
    exec (.seqChsetPayload 0) (devAt .chset 0 #v[0, 0, 0, 0, 0, 0] [] []) = .fault .sessionPosition
      ∧ exec (.seqChsetPayload 0) (devAt .chset 7 #v[0, 0, 0, 0, 0, 0] [] [])
        = .fault .sessionPosition := ⟨rfl, rfl⟩
/-- V25: channel 3, offset -16.0, the largest gain. -/
theorem test_seqChsetLatch :
    (next? (exec (.seqChsetLatch 0x4C)
        (devAt .chset 7 #v[0xFF, 0x34, 0x80, 0x00, 0xFF, 0xFF] [] [ans, ans, ans, ans]))).map
        (fun t => (t.out, regRead t.regs 0x0B, regRead t.regs 0x10, regRead t.regs 0x14))
      = some ([.notice .ok], 0x73E0, 0x8000, 0xFFFF) := by decide
/-- V26 (the offset write fails), V23, V24. -/
theorem test_seqChsetLatch_fails :
    (next? (exec (.seqChsetLatch 0x4C)
        (devAt .chset 7 #v[0x8A, 0x24, 0x08, 0x00, 0x40, 0x00] [] [ans, ans, nak]))).map
        (fun t => (t.out, regRead t.regs 0x0A, regRead t.regs 0x0F, t.bus.length))
        = some ([.notice .comm], 0x5140, 0, 3)
      ∧ out? (.seqChsetLatch 0x4C) (devAt .chset 7 #v[0x8A, 0x22, 8, 0, 0x40, 0] [] [])
        = some [.notice .config]
      ∧ out? (.seqChsetLatch 0x4D) (devAt .chset 7 #v[0x8A, 0x24, 8, 0, 0x40, 0] [] [])
        = some [.notice .tooFew] := by decide

/-! ### The loop (L2-CMD V1, V28 to V37) -/

/-- An elapsed count of 1000 is inside the window, 1001 is not; a byte that finds the timeout is
discarded. -/
theorem test_timeout_window :
    stepOut (.iterate none 1000) (devAt .rate 1 #v[0, 0, 0, 0, 0, 0] [] [ans]) = some ([], .awaiting)
      ∧ stepOut (.iterate none 1001) (devAt .rate 1 #v[0, 0, 0, 0, 0, 0] [] [ans])
        = some ([.notice .timeout], .idle)
      ∧ stepOut (.iterate (some 0x66) 1001) (devAt .rate 1 #v[0, 0, 0, 0, 0, 0] [] [ans])
        = some ([.notice .timeout], .idle) := by decide
/-- V32, V33: the window across the wrap of the 32-bit tick. -/
theorem test_timeout_wrap :
    timedOut { dev [] [] with tick := 743, session := ⟨.awaiting, .rate, 1, 4294967040, #v[0, 0, 0, 0, 0, 0]⟩ }
        = false
      ∧ timedOut { dev [] [] with tick := 745, session := ⟨.awaiting, .rate, 1, 4294967040, #v[0, 0, 0, 0, 0, 0]⟩ }
        = true := by decide
/-- V1. -/
theorem test_unknown_byte : stepOut (.iterate (some 0x50) 0) (dev [] [ans]) = some ([], .idle) := by
  decide
/-- V36: the read of MEAS_MSB(2) fails. -/
theorem test_data_packet :
    stepOut (.iterate none 0)
        (dev [(0x00, 0x0012), (0x01, 0x34AB), (0x02, 0xFFFF), (0x03, 0xFF00), (0x04, 0x8000),
            (0x06, 0x7FFF), (0x07, 0xFF00), (0x08, 0x1C00), (0x09, 0x3C20), (0x0A, 0x5FE0),
            (0x0B, 0x7CA0), (0x0C, 0x000F)]
          [ans, ans, ans, ans, ans, ans, ans, nak, ans, ans, ans])
      = some ([.packet [0xA1, 0x06, 0x00, 0x12, 0x34, 0x00, 0xFF, 0xFF, 0xFF, 0x01, 0xFF, 0xFF,
          0xFF, 0xFF, 0x7F, 0xFF, 0xFF, 0x05, 0xC0]], .idle) := by decide
/-- V37, V38: a failed NEW_DATA, and three channels done. -/
theorem test_no_data_packet :
    stepOut (.iterate none 0) (dev [(0x0C, 0x000F)] [nak]) = some ([], .idle)
      ∧ stepOut (.iterate none 0) (dev [(0x0C, 0x0007)] [ans]) = some ([], .idle) := by
  decide
/-- A table word is run by the very next step. -/
theorem test_withFetchWord :
    (next? (step ({ State.reset with turns := [ans, ans, ans] }.withFetchWord 8 0x61))).map
        (fun t => (t.out, regRead t.regs 0x0C)) = some ([.notice .ok], 0x0080)
      ∧ (next? (step ({ State.reset with turns := [ans] }.withFetchWord 8 0x16))).map (·.results)
        = some [plainResult .configError] := by decide

/-! ### Witnesses: states and operands that meet the hypotheses of each statement. The statements
about one instruction's result have theirs above: a channel in and out of range, a transaction that
succeeds and one that fails, each boundary of each range. -/

/-- The state after reset with one step offered. -/
def offered (i : StepInput) : State := { State.reset with pending := [i], turns := [ans, ans, ans] }

/-- A timed-out RATE command with one step offered at tick 1001. -/
def late (i : StepInput) : State :=
  { devAt .rate 1 #v[0, 0, 0, 0, 0, 0] [] [ans] with pending := [i] }

theorem test_witness_DecodeOfEncodeIsTheInstruction :
    Params.default.wf = true ∧ (Instr.rdId 0xFF).fits (.rate 1) = true
      ∧ (Instr.seqChsetPayload 0xFF).fits (.chset 1) = true
      ∧ (Instr.seqChsetPayload 0).fits (.chset 6) = true
      ∧ (Instr.seqChsetLatch 0).fits (.chset 7) = true ∧ Instr.cmdStart3.fits .idle = true := by
  decide
theorem test_witness_EncodeOfDecodeIsTheWord :
    decode .default .idle (.rx 0x64) = .ok .cmdStart3
      ∧ decode .default (.chset 7) (.rx 0xFF) = .ok (.seqChsetLatch 0xFF) := ⟨rfl, rfl⟩
theorem test_witness_EqualCommandBytesAreRefused :
    ¬ (Params.cmdBytes { Params.default with cmdReset := 0x6D }).Nodup
      ∧ 0x76 ∈ Params.default.cmdBytes := by decide
theorem test_witness_StepRunsTheRequest :
    State.reset.params.wf = true
      ∧ (offered (.request { op := 0x14 })).pending = .request { op := 0x14 } :: [] :=
  ⟨by decide, rfl⟩
theorem test_witness_StepRunsTheReceivedByte :
    timedOut (sampleTick 5 { offered (.iterate (some 0x72) 5) with pending := [] }) = false
      ∧ decode State.reset.params
        (sampleTick 5 { offered (.iterate (some 0x72) 5) with pending := [] }).pos (.rx 0x72)
        = .ok .cmdEnterRate := ⟨by decide, rfl⟩
theorem test_witness_LateByteIsDiscarded :
    (late (.iterate (some 0x66) 1001)).params.wf = true
      ∧ timedOut (sampleTick 1001 { late (.iterate (some 0x66) 1001) with pending := [] }) = true := by
  decide
theorem test_witness_IterationWithoutByte :
    timedOut (sampleTick 1000 { late (.iterate none 1000) with pending := [] }) = false
      ∧ timedOut (sampleTick 1001 { late (.iterate none 1001) with pending := [] }) = true := by
  decide
theorem test_witness_UnknownIdleByteHasNoEffect :
    (offered (.iterate (some 0x50) 0)).session.mode = .idle
      ∧ 0x50 ∉ (offered (.iterate (some 0x50) 0)).params.cmdBytes := by decide
theorem test_witness_TimedOutIsElapsedAboveWindow : State.reset.params.tickW ≤ 64 := by decide
theorem test_witness_BlockInv :
    BlockInv (offered (.iterate none 0)) ∧ BlockInv State.reset ∧ State.reset.pending = []
      ∧ (next? (step (offered (.iterate none 0)))).isSome = true := by
  unfold BlockInv; decide
/-- A step that makes transactions and emits a packet. -/
theorem test_witness_a_step_with_traffic :
    (next? (step (offered (.iterate (some 0x66) 0)))).map (fun t => (t.bus.length, t.out.length))
      = some (2, 1) := by decide
theorem test_witness_DeadSessionValuesAreNeverShown :
    sameShown (devAt .chset 2 #v[1, 2, 3, 4, 5, 6] [] [])
      (devAt .chset 2 #v[1, 9, 9, 9, 9, 9] [] []) :=
  ⟨⟨rfl, fun _ => ⟨rfl, rfl, rfl, by decide⟩⟩, rfl⟩
theorem test_witness_OneTimeoutNoticePerTimeout :
    (next? (step (late (.iterate none 1001)))).isSome = true
      ∧ (next? (step (late (.iterate none 1000)))).isSome = true := by decide
theorem test_witness_RequestFrame :
    isReq (.setRate 1) = true ∧ (next? (exec (.setRate 1) (dev [] [ans, ans]))).isSome = true := by
  decide
theorem test_witness_ImmediateCommandFrame :
    isReadCommand .cmdRdRate = true ∧ (next? (exec .cmdRdRate (dev [] [ans]))).isSome = true
      ∧ isChangeCommand .cmdStart0 = true
      ∧ (next? (exec .cmdStart0 (dev [] [ans, ans]))).isSome = true := by decide
theorem test_witness_LatchFrame :
    (next? (exec (.seqRateLatch 0x4C) (devAt .rate 2 #v[1, 0, 0, 0, 0, 0] [] [ans, ans]))).isSome
      = true ∧ (next? (exec (.seqChsetLatch 0) (devAt .chset 7 #v[0, 0, 0, 0, 0, 0] [] []))).isSome
      = true := by decide
/-- WR_OFFSET on channel 0 stores to register 0x0D, so byte 0 (MEAS_MSB(0)) is outside. -/
theorem test_witness_MemoryFrame :
    exec (.wrOffset 0 0xC030000000000000) (dev [] [ans])
        = .next (runReq asNothing (opWrOffset 0 0xC030000000000000) (dev [] [ans]))
      ∧ ¬ byteOfRegs (storedRegs (.wrOffset 0 0xC030000000000000) (dev [] [ans])) 0
      ∧ deviceLeaves (dev [] [ans]) 1 0 := by
  refine ⟨rfl, ?_, ?_⟩
  · rintro ⟨r, hr, h⟩
    simp only [storedRegs, List.mem_singleton] at hr
    subst hr
    revert h
    decide
  · intro k hk
    have : k = 0 := by omega
    subst this
    rintro ⟨r, hr, -⟩
    exact absurd hr (by simp [turnAt, dev, ans])
/-- ConfigError with no transaction; OK; CommError; Timeout. -/
theorem test_witness_results :
    result? (.rdOffset 4) (dev [] []) = some (plainResult .configError)
      ∧ result? .newData (dev [] [ans]) = some (okData 0)
      ∧ result? .newData (dev [] [nak]) = some (plainResult .commError)
      ∧ (okTraffic 0 .newData).isSome = true ∧ isReq .newData = true := by decide
theorem test_witness_SingleTransactions :
    Memory.wf (dev [(0x0C, 0x1234)] [ans]).regs = true
      ∧ (turnAt (dev [] [ans]) 0).answers = true ∧ (turnAt (dev [] [nak]) 0).answers = false := by
  decide
theorem test_witness_ReadSeesTheEarlierWrite :
    Memory.wf (dev [] [ans, sets 0x0D 1]).regs = true
      ∧ (turnAt (dev [] [ans, sets 0x0D 1]) 0).answers = true
      ∧ (turnAt (dev [] [ans, sets 0x0D 1]) 1).answers = true
      ∧ 0x0C ∉ (turnAt (dev [] [ans, sets 0x0D 1]) 1).changes.map Prod.fst := by decide
/-- Finite values, a NaN, and an infinity. -/
theorem test_witness_ComparisonsAreIeee :
    f64IsFinite 0x3FF0000000000000 = true ∧ f64IsNaN 0x7FF8000000000000 = true
      ∧ f64IsFinite 0xFFF0000000000000 = false ∧ f64IsNaN 0xFFF0000000000000 = false := by
  decide
/-- The domains' ends: -16.0 is inside, 16.0 outside; -0.0 inside, 4.0 outside. -/
theorem test_witness_calibration_domains :
    offsetInDomain 0xC030000000000000 = true ∧ offsetInDomain 0x4030000000000000 = false
      ∧ gainInDomain 0x8000000000000000 = true ∧ gainInDomain 0x4010000000000000 = false := by
  decide
theorem test_witness_ReservedOpsReturnConfigError :
    (0x16 : BitVec 5) ≤ 0x16 ∧ (0x16 : BitVec 5) ≤ 0x1F := by decide
/-- Legal and illegal codes, at the ends of their ranges. -/
theorem test_witness_inputsLegal :
    inputsLegal 3 7 31 ∧ inputsLegal 0 1 0 ∧ ¬ inputsLegal 4 7 0 ∧ ¬ inputsLegal 0 5 0
      ∧ ¬ inputsLegal 3 4 32 := by unfold inputsLegal; decide
/-- The two ends of the payload positions, and the two positions outside. -/
theorem test_witness_PayloadByteIsStored :
    (next? (exec (.seqChsetPayload 1) (devAt .chset 1 #v[0, 0, 0, 0, 0, 0] [] []))).isSome = true
      ∧ (next? (exec (.seqChsetPayload 1) (devAt .chset 6 #v[0, 0, 0, 0, 0, 0] [] []))).isSome
        = true := by decide

end Sys2Proof.Tests
end

section
/-! PROOFS. The statements of `00_scope.md`: what a step that takes a request does, and the binary64
comparisons. -/

namespace Sys2Proof.Machine

/-! ### The step -/

/-- With well-formed parameters a step takes the oldest offered input and runs it. -/
theorem step_eq_runInput {s : State} {i : StepInput} {rest : List StepInput}
    (hw : s.params.wf = true) (hp : s.pending = i :: rest) :
    step s = runInput i { s with pending := rest } := by
  simp only [step, stepOnce, hp, hw, if_true]

/-- Settles O6: the step runs the offered input, and a request runs as `exec` of its operation. -/
theorem stepRunsTheRequest : Obligations.StepRunsTheRequest := by
  intro s r rest hw hp
  calc step s
      = runInput (.request r) { s with pending := rest } := step_eq_runInput hw hp
    _ = exec (decodeReq r) { s with pending := rest } := rfl

/-! ### The binary64 comparisons -/

theorem f64Key_le_iff (x y : F64) : f64Key x ≤ f64Key y ↔ f64Real x ≤ f64Real y := by
  rw [← not_lt, ← not_lt, f64Key_lt_iff]

theorem f64IsNaN_eq_false_of_finite {x : F64} (h : f64IsFinite x = true) : f64IsNaN x = false := by
  have he : f64Exp x ≠ 2047 := by simpa [f64IsFinite] using h
  simp [f64IsNaN, he]

theorem f64Le_eq_key_le {x y : F64} (hx : f64IsNaN x = false) (hy : f64IsNaN y = false) :
    f64Le x y = decide (f64Key x ≤ f64Key y) := by
  simp [f64Le, hx, hy]

theorem f64Lt_eq_key_lt {x y : F64} (hx : f64IsNaN x = false) (hy : f64IsNaN y = false) :
    f64Lt x y = decide (f64Key x < f64Key y) := by
  simp [f64Lt, hx, hy]

theorem f64Le_eq_false_of_isNaN {x y : F64} (h : f64IsNaN x = true ∨ f64IsNaN y = true) :
    f64Le x y = false := by
  rcases h with h | h <;> simp [f64Le, h]

theorem f64Lt_eq_false_of_isNaN {x y : F64} (h : f64IsNaN x = true ∨ f64IsNaN y = true) :
    f64Lt x y = false := by
  rcases h with h | h <;> simp [f64Lt, h]

/-- An infinity has exponent field 2047 and fraction field 0. -/
theorem f64Key_of_infinite {x : F64} (hf : f64IsFinite x = false) (hn : f64IsNaN x = false) :
    f64Key x = if f64Neg x then -(2047 * 2 ^ 52) else 2047 * 2 ^ 52 := by
  have he : f64Exp x = 2047 := by simpa [f64IsFinite] using hf
  have hz : f64Frac x = 0 := by simpa [f64IsNaN, he] using hn
  rw [f64Key_eq, he, hz]
  norm_num

/-- The key of a finite value lies strictly between the keys of the two infinities. -/
theorem f64Key_of_finite {y : F64} (h : f64IsFinite y = true) :
    -(2047 * 2 ^ 52) < f64Key y ∧ f64Key y < 2047 * 2 ^ 52 := by
  have he : f64Exp y ≠ 2047 := by simpa [f64IsFinite] using h
  have hb : f64Exp y < 2 ^ 11 := (y.extractLsb' 52 11).isLt
  have hfr := f64Frac_lt y
  rw [f64Key_eq]
  split <;> omega

/-- An infinity lies below every finite value when its sign bit is set, above it otherwise. -/
theorem f64Key_infinite_outside {x y : F64} (hf : f64IsFinite x = false) (hn : f64IsNaN x = false)
    (hy : f64IsFinite y = true) :
    (f64Neg x = true ∧ f64Key x < f64Key y) ∨ (f64Neg x = false ∧ f64Key y < f64Key x) := by
  obtain ⟨hlo, hhi⟩ := f64Key_of_finite hy
  rw [f64Key_of_infinite hf hn]
  cases f64Neg x
  · exact .inr ⟨rfl, hhi⟩
  · exact .inl ⟨rfl, hlo⟩

theorem f64_compare_finite {x y : F64} (hx : f64IsFinite x = true) (hy : f64IsFinite y = true) :
    (f64Le x y = true ↔ f64Real x ≤ f64Real y) ∧ (f64Lt x y = true ↔ f64Real x < f64Real y) := by
  have hnx := f64IsNaN_eq_false_of_finite hx
  have hny := f64IsNaN_eq_false_of_finite hy
  rw [f64Le_eq_key_le hnx hny, f64Lt_eq_key_lt hnx hny, decide_eq_true_iff, decide_eq_true_iff]
  exact ⟨f64Key_le_iff x y, f64Key_lt_iff x y⟩

theorem f64_compare_infinite {x y : F64} (hf : f64IsFinite x = false) (hn : f64IsNaN x = false)
    (hy : f64IsFinite y = true) :
    f64Lt x y = f64Neg x ∧ f64Lt y x = !f64Neg x ∧ f64Le x y = f64Neg x
      ∧ f64Le y x = !f64Neg x := by
  have hny := f64IsNaN_eq_false_of_finite hy
  rw [f64Lt_eq_key_lt hn hny, f64Lt_eq_key_lt hny hn, f64Le_eq_key_le hn hny,
    f64Le_eq_key_le hny hn]
  rcases f64Key_infinite_outside hf hn hy with ⟨hs, hk⟩ | ⟨hs, hk⟩
  · simp [hs, hk, hk.le]
  · simp [hs, hk, hk.le]

/-- Settles O37: on values that are no NaN the comparisons compare the keys, which are ordered as the
exact values are and put the infinities outside. -/
theorem comparisonsAreIeee : Obligations.ComparisonsAreIeee := fun _ _ =>
  ⟨f64_compare_finite,
    fun h => ⟨f64Le_eq_false_of_isNaN h, f64Lt_eq_false_of_isNaN h⟩,
    f64_compare_infinite⟩

end Sys2Proof.Machine
end

section
/-! PROOFS. The statements of `10_state.md` on the state after reset and on what a step or an operation
leaves alone: the BUS traffic, the frame of the REQ port, the frame of the device's registers. -/

namespace Sys2Proof.Machine

/-! ### The state after reset -/

/-- Settles O15: the parts of the invariant, each evaluated at the reset values. -/
theorem resetMeetsTheInvariant : Obligations.ResetMeetsTheInvariant := by
  have hparams : State.reset.params.wf = true := by decide
  exact ⟨hparams, rfl, rfl, by decide, by decide, reset_regs_wf⟩

/-! ### The BUS traffic of a step -/

/-- From `s` to `t` the BUS log gained only transactions the block may make, under parameters that
stayed. -/
def AllowedTraffic (s t : State) : Prop :=
  t.params = s.params ∧ ∃ evs, t.bus = s.bus ++ evs ∧ ∀ e ∈ evs, trafficAllowed s.params e = true

theorem AllowedTraffic.of_same {s t : State} (hp : t.params = s.params) (hb : t.bus = s.bus) :
    AllowedTraffic s t :=
  ⟨hp, [], by simp [hb], by simp⟩

theorem AllowedTraffic.trans {s t u : State} (h : AllowedTraffic s t) (g : AllowedTraffic t u) :
    AllowedTraffic s u := by
  obtain ⟨hp, es, hb, ha⟩ := h
  obtain ⟨gp, fs, gb, ga⟩ := g
  refine ⟨gp.trans hp, es ++ fs, by rw [gb, hb, List.append_assoc], fun e he => ?_⟩
  rcases List.mem_append.1 he with he | he
  · exact ha e he
  · rw [← hp]; exact ga e he

theorem Reach.allowedTraffic {s t : State} {evs : List BusEvent} {rs : List Byte}
    (h : Reach s evs t) (ha : ∀ e ∈ evs, Allowed rs s.params e) : AllowedTraffic s t :=
  ⟨h.frame.1, evs, h.bus, fun e he => (ha e he).1⟩

theorem exec_allowedTraffic {i : Instr} {s t : State} (h : exec i s = .next t) :
    AllowedTraffic s t := by
  rcases exec_cases h with ⟨-, evs, u, r, hr, ha, rfl⟩ | ⟨-, x, evs, u, e, -, hr, ha, -, -, rfl⟩ | hs
  · exact (hr.allowedTraffic ha).trans (.of_same rfl rfl)
  · have hx : AllowedTraffic s { s with session := x } := .of_same rfl rfl
    exact (hx.trans (hr.allowedTraffic ha)).trans (.of_same rfl rfl)
  · obtain ⟨-, x, rfl⟩ := hs.session_only
    exact .of_same rfl rfl

theorem timeoutCheck_allowedTraffic (s : State) : AllowedTraffic s (timeoutCheck s) := by
  unfold timeoutCheck
  split <;> exact .of_same rfl rfl

theorem dataCheck_allowedTraffic (s : State) : AllowedTraffic s (dataCheck s) := by
  obtain ⟨evs, u, hr, ha, hd | ⟨pl, -, hd⟩⟩ := dataCheck_reach s <;> rw [hd]
  · exact hr.allowedTraffic ha
  · exact (hr.allowedTraffic ha).trans (.of_same rfl rfl)

theorem ByteEffect.allowedTraffic {rx : Option Byte} {s t : State} (h : ByteEffect rx s t) :
    AllowedTraffic s t := by
  rcases h with rfl | ⟨-, rfl⟩ | ⟨b, i, -, -, -, he⟩
  · exact .of_same rfl rfl
  · exact .of_same rfl rfl
  · exact exec_allowedTraffic he

theorem step_allowedTraffic {s t : State} (h : step s = .next t) : AllowedTraffic s t := by
  rcases (step_cases h).2 with ⟨-, rfl⟩ | ⟨r, rest, -, he⟩ | ⟨rx, now, rest, u, -, hu, rfl⟩
  · exact .of_same rfl rfl
  · have hp : AllowedTraffic s { s with pending := rest } := .of_same rfl rfl
    exact hp.trans (exec_allowedTraffic he)
  · have hp : AllowedTraffic s (sampleTick now { s with pending := rest }) := .of_same rfl rfl
    exact ((hp.trans hu.allowedTraffic).trans (timeoutCheck_allowedTraffic u)).trans
      (dataCheck_allowedTraffic _)

/-- Settles O17: the byte's instruction, the timeout check and the data check each make only allowed
transactions. -/
theorem busTrafficStaysOnTheMap : Obligations.BusTrafficStaysOnTheMap :=
  fun _ _ h => (step_allowedTraffic h).2

/-! ### The frame of the REQ port -/

/-- Every next state of a REQ operation has the shape of one: transactions, then its record. -/
theorem exec_reqShape {i : Instr} {s t : State} (hi : isReq i = true) (h : exec i s = .next t) :
    ReqShape i s t := by
  rcases exec_cases h with hr | ⟨hn, -⟩ | hs
  · exact hr
  · exact absurd hi (by simp [hn])
  · exact absurd hi (by simp [hs.session_only.1])

/-- Settles O22: transactions keep the block's own registers, and `respond` adds the one record. -/
theorem requestFrame : Obligations.RequestFrame := by
  intro i s t hi h
  obtain ⟨-, evs, u, r, hr, -, rfl⟩ := exec_reqShape hi h
  obtain ⟨hparams, hsession, hout, hresults, hpending, htick⟩ := hr.frame
  exact ⟨hsession, hout, hparams, hpending, htick, ⟨r, by simp [hresults]⟩, evs, hr.bus⟩

/-! ### The frame of the device's registers -/

theorem byteOfRegs_mono {rs qs : List Byte} {a : Nat} (h : rs ⊆ qs) (hb : byteOfRegs rs a) :
    byteOfRegs qs a := by
  obtain ⟨r, hr, ha⟩ := hb
  exact ⟨r, h hr, ha⟩

/-- Allowed transactions write only the registers they are allowed to store to. -/
theorem writtenReg_subset {rs : List Byte} {p : Params} {evs : List BusEvent}
    (ha : ∀ e ∈ evs, Allowed rs p e) : evs.filterMap writtenReg ⊆ rs := by
  intro r hr
  obtain ⟨e, he, hw⟩ := List.mem_filterMap.1 hr
  exact (ha e he).2 r hw

/-- Allowed transactions leave alone a byte outside the registers they may store to, if the device
does. -/
theorem Reach.readByte_of_allowed {s t : State} {evs : List BusEvent} {rs : List Byte} {p : Params}
    {a : Nat} (h : Reach s evs t) (ha : ∀ e ∈ evs, Allowed rs p e) (hn : ¬ byteOfRegs rs a)
    (hd : deviceLeaves s (Machine.transactions s t) a) : memRead t.regs a = memRead s.regs a := by
  rw [h.transactions] at hd
  exact h.readByte hd fun hb => hn (byteOfRegs_mono (writtenReg_subset ha) hb)

/-- Settles O25: an instruction touches the device's registers by allowed transactions only; a result
record, an OUT event or a move of the session is no transaction. -/
theorem memoryFrame : Obligations.MemoryFrame := by
  intro i s t a h hn hd
  rcases exec_cases h with ⟨-, evs, u, r, hr, ha, rfl⟩ | ⟨-, x, evs, u, e, -, hr, ha, -, -, rfl⟩ | hs
  · exact hr.readByte_of_allowed ha hn hd
  · exact hr.readByte_of_allowed ha hn hd
  · obtain ⟨-, x, rfl⟩ := hs.session_only
    rfl

end Sys2Proof.Machine
end

section
/-! PROOFS. The statements of `10_state.md` on what no step shows: events already in OUT and session
values no rule reads. Both are one simulation, `step_alike`: two states that differ by events put
before what is in OUT, and in the session by a relation that session moves keep (`SessionRel`), step to
such states. For OUT the relation is equality, for the session `sameLive`. -/

namespace Sys2Proof.Machine

/-! ### Functions of the state that do not see the session or OUT -/

/-- `f` leaves the session alone and appends to OUT, whatever they are, what the rest of the state
makes it append. -/
def StateBlind (f : State → State) : Prop :=
  ∀ s, ∃ evs, ∀ x o, f (beside x o s) = beside x (o ++ evs) (f s)

theorem stateBlind_emit (e : OutEvent) : StateBlind (emit e) := fun _ => ⟨[e], fun _ _ => rfl⟩

theorem stateBlind_runReq {α : Type} {f : α → Long × F64 × Bool} {op : RegOp α} (h : OpBlind op) :
    StateBlind (runReq f op) :=
  fun s => ⟨[], fun x o => by rw [runReq_beside h, List.append_nil]⟩

theorem stateBlind_runNotice {α : Type} {op : RegOp α} (h : OpBlind op) :
    StateBlind (runNotice op) :=
  fun s => ⟨_, fun x o => runNotice_beside h x o s⟩

/-- The event a read command appends does not depend on the session or on OUT. -/
theorem runReply_beside {α : Type} {op : RegOp α} (h : OpBlind op) (id : Byte) (n : Nat)
    (pl : α → List Byte) (s : State) :
    ∃ evs, ∀ x o, runReply id n pl op (beside x o s)
      = beside x (o ++ evs) (runReply id n pl op s) := by
  rcases hs : op s with ⟨e | v, s1⟩
  · refine ⟨[.packet (frame Config.hdrReply id (List.replicate n 0xFF))], fun x o => ?_⟩
    have hb : op (beside x o s) = (.error e, beside x o s1) := by rw [h, hs]
    rw [runReply_error hb, runReply_error hs]
    rfl
  · refine ⟨[.packet (frame Config.hdrReply id (pl v))], fun x o => ?_⟩
    have hb : op (beside x o s) = (.ok v, beside x o s1) := by rw [h, hs]
    rw [runReply_ok hb, runReply_ok hs]
    rfl

/-- A read command, under the packet id the parameters give. -/
theorem stateBlind_runReply {α : Type} (id : Params → Byte) {n : Nat} {pl : α → List Byte}
    {op : RegOp α} (h : OpBlind op) : StateBlind fun s => runReply (id s.params) n pl op s :=
  fun s => runReply_beside h (id s.params) n pl s

theorem stateBlind_readChannelSettings (ch : BitVec 2) : StateBlind (readChannelSettings ch) :=
  stateBlind_runReply Params.pktChset (opBlind_chsetFields _)

/-- A choice that only the parameters decide. -/
theorem stateBlind_ite {c : Params → Prop} [DecidablePred c] {f g : State → State}
    (hf : StateBlind f) (hg : StateBlind g) :
    StateBlind fun s => if c s.params then f s else g s := by
  intro s
  have hc : ∀ x o, c (beside x o s).params ↔ c s.params := fun _ _ => Iff.rfl
  by_cases h : c s.params
  · simpa only [hc, h, if_true] using hf s
  · simpa only [hc, h, if_false] using hg s

theorem stateBlind_dataCheck : StateBlind dataCheck := dataCheck_beside

/-! ### Relations between sessions that every move of the session keeps -/

/-- What a byte of a multi-byte command makes of the session: the byte stored at its place, the
progress one further. -/
def Session.stored (b : Byte) (x : Session) : Session :=
  { x with
    scratch := x.scratch.setIfInBounds (x.progress.toNat - 1) b
    progress := x.progress + 1 }

/-- What an entry byte makes of the session. -/
def Session.entered (k : Kind) (d : Tick) (x : Session) : Session :=
  { x with mode := .awaiting, kind := k, progress := 1, deadline := d }

/-- A relation that implies agreement on what a rule reads, and that every move keeps. -/
structure SessionRel (L : Session → Session → Prop) : Prop where
  live : ∀ {x y : Session}, L x y → sameLive x y
  idle : ∀ {x y : Session}, L x y → L { x with mode := .idle } { y with mode := .idle }
  entered : ∀ {x y : Session} (k : Kind) (d : Tick), L x y → L (x.entered k d) (y.entered k d)
  stored : ∀ {x y : Session} (b : Byte), L x y → x.mode = .awaiting →
    1 ≤ x.progress.toNat → x.progress.toNat ≤ 6 → L (x.stored b) (y.stored b)

theorem sessionRel_eq : SessionRel Eq where
  live h := h ▸ ⟨rfl, fun _ => ⟨rfl, rfl, rfl, fun _ _ => rfl⟩⟩
  idle h := by rw [h]
  entered k d h := by rw [h]
  stored b h _ _ _ := by rw [h]

theorem progress_add_one {k : BitVec 3} (h : k.toNat ≤ 6) : (k + 1).toNat = k.toNat + 1 := by
  bv_omega

/-- A stored byte joins the scratch bytes that are read; the later ones stay unread. -/
theorem sameLive_stored {x y : Session} (b : Byte) (h : sameLive x y) (hm : x.mode = .awaiting)
    (h1 : 1 ≤ x.progress.toNat) (h6 : x.progress.toNat ≤ 6) :
    sameLive (x.stored b) (y.stored b) := by
  obtain ⟨hmode, hlive⟩ := h
  obtain ⟨hkind, hprog, hdead, hscr⟩ := hlive hm
  refine ⟨hmode, fun _ => ⟨hkind, ?_, hdead, fun k hk => ?_⟩⟩
  · simp only [Session.stored, hprog]
  · simp only [storedBytes, Session.stored, progress_add_one h6] at hk
    simp only [Session.stored, ← hprog, Vector.getElem?_setIfInBounds]
    by_cases hlast : x.progress.toNat - 1 = k
    · simp only [hlast, if_true]
    · simp only [hlast, if_false]
      exact hscr k (by simp only [storedBytes]; omega)

theorem sessionRel_sameLive : SessionRel sameLive where
  live h := h
  idle _ := ⟨rfl, nofun⟩
  entered _ _ _ := ⟨rfl, fun _ => ⟨rfl, rfl, rfl, fun k hk => absurd hk (Nat.not_lt_zero k)⟩⟩
  stored b h := sameLive_stored b h

/-! ### Alike states and outcomes -/

/-- States whose sessions `L` relates, the second with `pre` before what is in OUT, and which agree in
all else. -/
inductive Alike (L : Session → Session → Prop) (pre : List OutEvent) : State → State → Prop
  | mk {x y : Session} (o : List OutEvent) (u : State) :
      L x y → Alike L pre (beside x o u) (beside y (pre ++ o) u)

/-- Outcomes of the same kind: alike next states, or the same reason to stop. -/
inductive OutcomesAlike (L : Session → Session → Prop) (pre : List OutEvent) :
    Host.Outcome State Fault Refusal → Host.Outcome State Fault Refusal → Prop
  | next {s t : State} : Alike L pre s t → OutcomesAlike L pre (.next s) (.next t)
  | fault (f : Fault) : OutcomesAlike L pre (.fault f) (.fault f)
  | refused (r : Refusal) : OutcomesAlike L pre (.refused r) (.refused r)

section
variable {L : Session → Session → Prop} {pre : List OutEvent} {s t : State}

theorem Alike.params_eq (h : Alike L pre s t) : t.params = s.params := by cases h; rfl

theorem Alike.tick_eq (h : Alike L pre s t) : t.tick = s.tick := by cases h; rfl

theorem Alike.session (h : Alike L pre s t) : L s.session t.session := by cases h; assumption

theorem Alike.sampleTick (h : Alike L pre s t) (now : Tick) :
    Alike L pre (sampleTick now s) (sampleTick now t) := by
  obtain ⟨o, u, hl⟩ := h
  exact .mk o (Machine.sampleTick now u) hl

/-- Replacing both sessions by related ones. -/
theorem Alike.withSession (h : Alike L pre s t) {x y : Session} (hl : L x y) :
    Alike L pre { s with session := x } { t with session := y } := by
  obtain ⟨o, u, -⟩ := h
  exact .mk o u hl

/-- A function that does not see the session or OUT keeps states alike. -/
theorem Alike.blind {f : State → State} (hf : StateBlind f) (h : Alike L pre s t) :
    Alike L pre (f s) (f t) := by
  obtain ⟨o, u, hl⟩ := h
  obtain ⟨evs, he⟩ := hf u
  rw [he, he, List.append_assoc]
  exact .mk _ _ hl

theorem Alike.toIdle (hL : SessionRel L) (h : Alike L pre s t) :
    Alike L pre (toIdle s) (toIdle t) :=
  h.withSession (hL.idle h.session)

theorem Alike.enterAwaiting (hL : SessionRel L) (h : Alike L pre s t) (k : Kind) :
    Alike L pre (enterAwaiting k s) (enterAwaiting k t) := by
  have ht : Machine.enterAwaiting k t = { t with session := t.session.entered k s.tick } := by
    rw [← h.tick_eq]; rfl
  rw [ht]
  exact h.withSession (hL.entered k s.tick h.session)

theorem Alike.stored (hL : SessionRel L) (h : Alike L pre s t) (b : Byte)
    (hm : s.session.mode = .awaiting) (h1 : 1 ≤ s.session.progress.toNat)
    (h6 : s.session.progress.toNat ≤ 6) :
    Alike L pre { s with session := s.session.stored b }
      { t with session := t.session.stored b } :=
  h.withSession (hL.stored b h.session hm h1 h6)

/-- The end of a multi-byte command, with the same operation on both sides. -/
theorem Alike.latchStep (hL : SessionRel L) (h : Alike L pre s t) (b : Byte) {op : RegOp Unit}
    (hop : OpBlind op) : Alike L pre (latchStep b op s) (latchStep b op t) := by
  have hf : StateBlind fun s =>
      if b = s.params.latch then runNotice op s else emit (.notice .tooFew) s :=
    stateBlind_ite (c := fun p => b = p.latch) (stateBlind_runNotice hop) (stateBlind_emit _)
  have hs := (h.toIdle hL).blind hf
  exact hs

/-! ### Where the session is read -/

/-- Sessions that agree on what a rule reads stand at the same position. -/
theorem Alike.pos_eq (hL : SessionRel L) (h : Alike L pre s t) : t.pos = s.pos := by
  obtain ⟨hmode, hlive⟩ := hL.live h.session
  cases hm : s.session.mode with
  | idle => simp only [State.pos, ← hmode, hm]
  | awaiting =>
    obtain ⟨hkind, hprog, -, -⟩ := hlive hm
    simp only [State.pos, ← hmode, hm, ← hkind, ← hprog]

theorem Alike.timedOut_eq (hL : SessionRel L) (h : Alike L pre s t) : timedOut t = timedOut s := by
  obtain ⟨hmode, hlive⟩ := hL.live h.session
  cases hm : s.session.mode with
  | idle => simp [timedOut, ← hmode, hm]
  | awaiting =>
    obtain ⟨-, -, hdead, -⟩ := hlive hm
    simp only [timedOut, ← hmode, hm, ← hdead, h.params_eq, h.tick_eq]

/-- The scratch bytes the current command has stored. -/
theorem Alike.scratch_eq (hL : SessionRel L) (h : Alike L pre s t)
    (hm : s.session.mode = .awaiting) {k : Nat} (hk : k < storedBytes s.session) (h6 : k < 6) :
    t.session.scratch[k] = s.session.scratch[k] := by
  obtain ⟨-, hlive⟩ := hL.live h.session
  obtain ⟨-, -, -, hscr⟩ := hlive hm
  have hk' := hscr k hk
  rw [Vector.getElem?_eq_getElem h6, Vector.getElem?_eq_getElem h6] at hk'
  exact (Option.some.inj hk').symm

end

/-! ### Session positions -/

theorem pos_eq_rate {s : State} {k : BitVec 3} (h : s.pos = .rate k) :
    s.session.mode = .awaiting ∧ s.session.progress = k := by
  unfold State.pos at h
  split at h <;> cases h
  exact ⟨‹_›, rfl⟩

theorem pos_eq_chset {s : State} {k : BitVec 3} (h : s.pos = .chset k) :
    s.session.mode = .awaiting ∧ s.session.progress = k := by
  unfold State.pos at h
  split at h <;> cases h
  exact ⟨‹_›, rfl⟩

/-- A payload byte stands at CHSET, progress 1 to 6. -/
theorem fits_seqChsetPayload {b : Byte} {pos : Pos} (h : (Instr.seqChsetPayload b).fits pos = true) :
    ∃ k, pos = .chset k ∧ 1 ≤ k.toNat ∧ k.toNat ≤ 6 := by
  cases pos with
  | idle => cases h
  | rate k => cases h
  | chset k => exact ⟨k, rfl, by simpa [Instr.fits] using h⟩

theorem fits_of_ite {c : Prop} [Decidable c] {i j : Instr} {pos : Pos} {r : Option Instr}
    (hj : j.fits pos = true) (hr : r = some i → i.fits pos = true) :
    (if c then some j else r) = some i → i.fits pos = true := by
  split
  · rintro ⟨⟩; exact hj
  · exact hr

/-- Each of the fifteen command bytes is read as a command, which stands in Idle. -/
theorem fits_idle_of_decodeCommand {p : Params} {b : Byte} {i : Instr} :
    decodeCommand p b = some i → i.fits .idle = true := by
  unfold decodeCommand
  iterate 15 refine fits_of_ite rfl ?_
  exact nofun

/-- The decoder reads a byte only as an instruction that may stand at the position (R116). -/
theorem fits_of_decode_rx {p : Params} {pos : Pos} {b : Byte} {i : Instr}
    (h : decode p pos (.rx b) = .ok i) : i.fits pos = true := by
  cases pos with
  | idle =>
    simp only [decode, decodeRx] at h
    split at h <;> cases h
    exact fits_idle_of_decodeCommand ‹_›
  | rate k =>
    simp only [decode, decodeRx] at h
    split at h
    · cases h; subst k; rfl
    · split at h <;> cases h
      subst k; rfl
  | chset k =>
    simp only [decode, decodeRx] at h
    split at h
    · cases h; subst k; rfl
    · split at h <;> cases h
      simp only [Instr.fits, decide_eq_true_eq]
      bv_omega

/-- A REQ operation may stand anywhere (`00_scope.md` R9). -/
theorem fits_decodeReq (r : ReqRecord) (pos : Pos) : (decodeReq r).fits pos = true := by
  unfold decodeReq
  split <;> rfl

/-! ### The simulation -/

/-- The digit byte at its place stores its ordinal as any byte of a command is stored. -/
theorem exec_seqRateDigit_stored {s : State} (b : Byte) (h : s.session.progress = 1) :
    exec (.seqRateDigit b) s = .next { s with session := s.session.stored (digit b) } := by
  simp only [exec, execSeqRateDigit, setProgress, setScratch, Session.stored, h]
  rfl

theorem exec_seqChsetPayload_stored {s : State} (b : Byte) (h1 : 1 ≤ s.session.progress.toNat)
    (h6 : s.session.progress.toNat ≤ 6) :
    exec (.seqChsetPayload b) s = .next { s with session := s.session.stored b } := by
  simp only [exec, execSeqChsetPayload, if_pos (And.intro h1 h6)]
  rfl

section
variable {L : Session → Session → Prop} {pre : List OutEvent} {s t : State}

/-- An instruction whose meaning does not see the session or OUT. -/
theorem OutcomesAlike.blind {f : State → State} (hf : StateBlind f) (h : Alike L pre s t) :
    OutcomesAlike L pre (.next (f s)) (.next (f t)) :=
  .next (h.blind hf)

theorem OutcomesAlike.req {α : Type} {f : α → Long × F64 × Bool} {op : RegOp α} (hop : OpBlind op)
    (h : Alike L pre s t) : OutcomesAlike L pre (.next (runReq f op s)) (.next (runReq f op t)) :=
  .next (h.blind (stateBlind_runReq hop))

theorem OutcomesAlike.notice {α : Type} {op : RegOp α} (hop : OpBlind op) (h : Alike L pre s t) :
    OutcomesAlike L pre (.next (runNotice op s)) (.next (runNotice op t)) :=
  .next (h.blind (stateBlind_runNotice hop))

theorem exec_seqRateDigit_alike (hL : SessionRel L) (h : Alike L pre s t) (b : Byte)
    (hpos : s.pos = .rate 1) :
    OutcomesAlike L pre (exec (.seqRateDigit b) s) (exec (.seqRateDigit b) t) := by
  obtain ⟨hm, hp⟩ := pos_eq_rate hpos
  obtain ⟨-, hp'⟩ := pos_eq_rate ((h.pos_eq hL).trans hpos)
  rw [exec_seqRateDigit_stored b hp, exec_seqRateDigit_stored b hp']
  exact .next (h.stored hL _ hm (by simp [hp]) (by simp [hp]))

/-- The RATE latch reads the ordinal, which the digit byte has stored. -/
theorem exec_seqRateLatch_alike (hL : SessionRel L) (h : Alike L pre s t) (b : Byte)
    (hpos : s.pos = .rate 2) :
    OutcomesAlike L pre (exec (.seqRateLatch b) s) (exec (.seqRateLatch b) t) := by
  obtain ⟨hm, hp⟩ := pos_eq_rate hpos
  have hd : t.session.scratch[0] = s.session.scratch[0] :=
    h.scratch_eq hL hm (by simp [storedBytes, hp]) (by omega)
  simp only [exec, execSeqRateLatch, hd]
  exact .next (h.latchStep hL b (opBlind_setRate _))

theorem exec_seqChsetPayload_alike (hL : SessionRel L) (h : Alike L pre s t) (b : Byte)
    {k : BitVec 3} (hpos : s.pos = .chset k) (h1 : 1 ≤ k.toNat) (h6 : k.toNat ≤ 6) :
    OutcomesAlike L pre (exec (.seqChsetPayload b) s) (exec (.seqChsetPayload b) t) := by
  obtain ⟨hm, rfl⟩ := pos_eq_chset hpos
  obtain ⟨-, hp'⟩ := pos_eq_chset ((h.pos_eq hL).trans hpos)
  rw [exec_seqChsetPayload_stored b h1 h6,
    exec_seqChsetPayload_stored b (by rwa [hp']) (by rwa [hp'])]
  exact .next (h.stored hL b hm h1 h6)

/-- The CHSET latch reads the six payload bytes, all of them stored. -/
theorem exec_seqChsetLatch_alike (hL : SessionRel L) (h : Alike L pre s t) (b : Byte)
    (hpos : s.pos = .chset 7) :
    OutcomesAlike L pre (exec (.seqChsetLatch b) s) (exec (.seqChsetLatch b) t) := by
  obtain ⟨hm, hp⟩ := pos_eq_chset hpos
  have hscr : t.session.scratch = s.session.scratch :=
    Vector.ext fun k hk => h.scratch_eq hL hm (by simpa [storedBytes, hp] using hk) hk
  simp only [exec, execSeqChsetLatch, hscr]
  exact .next (h.latchStep hL b (opBlind_chset _))

/-- Every instruction, at a position where it may stand. -/
theorem exec_alike (hL : SessionRel L) (h : Alike L pre s t) {i : Instr}
    (hi : i.fits s.pos = true) : OutcomesAlike L pre (exec i s) (exec i t) := by
  cases i
  case fxpDecS raw a => exact .req (opBlind_return _) h
  case fxpEncS val a => exact .req (opBlind_return _) h
  case fxpDecU raw a => exact .req (opBlind_return _) h
  case fxpEncU val a => exact .req (opBlind_return _) h
  case rdOffset ch => exact .req (opBlind_rdOffset ch) h
  case wrOffset ch v => exact .req (opBlind_wrOffset ch v) h
  case rdGain ch => exact .req (opBlind_rdGain ch) h
  case wrGain ch v => exact .req (opBlind_wrGain ch v) h
  case cfgInput ch a b c => exact .req (opBlind_cfgInput ch a b c) h
  case startMeas ch => exact .req (opBlind_startMeas ch) h
  case stopMeas ch => exact .req (opBlind_stopMeas ch) h
  case isDone ch => exact .req (opBlind_isDone ch) h
  case newData => exact .req opBlind_newData h
  case setRate a => exact .req (opBlind_setRate a) h
  case rdRate => exact .req opBlind_rdRate h
  case enRepeat a => exact .req (opBlind_enRepeat a) h
  case disRepeat => exact .req opBlind_disRepeat h
  case rdRaw ch => exact .req (opBlind_rdRaw ch) h
  case rdMeas ch => exact .req (opBlind_rdMeas ch) h
  case reset => exact .req opBlind_reset h
  case present => exact .req opBlind_probe h
  case rdId a => exact .req (opBlind_rdId a) h
  case reservedLow lo => exact .req (opBlind_raise (α := Unit) _) h
  case reservedHigh lo => exact .req (opBlind_raise (α := Unit) _) h
  case cmdEnterRate => exact .next (h.enterAwaiting hL .rate)
  case cmdEnterChset => exact .next (h.enterAwaiting hL .chset)
  case cmdReset => exact .notice opBlind_reset h
  case cmdMfrId => exact .blind (stateBlind_runReply Params.pktMfrId (opBlind_rdId 0)) h
  case cmdDevId => exact .blind (stateBlind_runReply Params.pktDevId (opBlind_rdId 1)) h
  case cmdRdRate => exact .blind (stateBlind_runReply Params.pktRate opBlind_rdRate) h
  case cmdSensor => exact .blind (stateBlind_runReply Params.pktSensor opBlind_probe) h
  case cmdRdCh0 => exact .blind (stateBlind_readChannelSettings 0) h
  case cmdRdCh1 => exact .blind (stateBlind_readChannelSettings 1) h
  case cmdRdCh2 => exact .blind (stateBlind_readChannelSettings 2) h
  case cmdRdCh3 => exact .blind (stateBlind_readChannelSettings 3) h
  case cmdStart0 => exact .notice (opBlind_startMeas 0) h
  case cmdStart1 => exact .notice (opBlind_startMeas 1) h
  case cmdStart2 => exact .notice (opBlind_startMeas 2) h
  case cmdStart3 => exact .notice (opBlind_startMeas 3) h
  case seqRateDigit b => exact exec_seqRateDigit_alike hL h b (by simpa [Instr.fits] using hi)
  case seqRateLatch b => exact exec_seqRateLatch_alike hL h b (by simpa [Instr.fits] using hi)
  case seqChsetPayload b =>
    obtain ⟨k, hpos, h1, h6⟩ := fits_seqChsetPayload hi
    exact exec_seqChsetPayload_alike hL h b hpos h1 h6
  case seqChsetLatch b => exact exec_seqChsetLatch_alike hL h b (by simpa [Instr.fits] using hi)

theorem Alike.timeoutAbort (hL : SessionRel L) (h : Alike L pre s t) :
    Alike L pre (timeoutAbort s) (timeoutAbort t) :=
  (h.blind (stateBlind_emit _)).toIdle hL

theorem Alike.timeoutCheck (hL : SessionRel L) (h : Alike L pre s t) :
    Alike L pre (timeoutCheck s) (timeoutCheck t) := by
  simp only [Machine.timeoutCheck, h.timedOut_eq hL]
  split
  · exact h.timeoutAbort hL
  · exact h

/-- The byte decodes alike at alike sessions. -/
theorem runByte_alike (hL : SessionRel L) (h : Alike L pre s t) (b : Byte) :
    OutcomesAlike L pre (runByte b s) (runByte b t) := by
  simp only [runByte, h.params_eq, h.pos_eq hL]
  split
  · exact exec_alike hL h (fits_of_decode_rx ‹_›)
  · exact .next h
  · exact .fault _

theorem parseByte_alike (hL : SessionRel L) (h : Alike L pre s t) (b : Byte) :
    OutcomesAlike L pre (parseByte b s) (parseByte b t) := by
  simp only [parseByte, h.timedOut_eq hL]
  split
  · exact .next (h.timeoutAbort hL)
  · exact runByte_alike hL h b

theorem afterByte_alike (hL : SessionRel L) {a b : Host.Outcome State Fault Refusal}
    (h : OutcomesAlike L pre a b) : OutcomesAlike L pre (afterByte a) (afterByte b) := by
  cases h with
  | next h => exact .next ((h.timeoutCheck hL).blind stateBlind_dataCheck)
  | fault f => exact .fault f
  | refused r => exact .refused r

theorem runInput_alike (hL : SessionRel L) (h : Alike L pre s t) (i : StepInput) :
    OutcomesAlike L pre (runInput i s) (runInput i t) := by
  cases i with
  | request r => exact exec_alike hL h (fits_decodeReq r _)
  | iterate rx now =>
    cases rx with
    | none => exact afterByte_alike hL (.next (h.sampleTick now))
    | some b => exact afterByte_alike hL (parseByte_alike hL (h.sampleTick now) b)

/-- Alike states step alike. -/
theorem step_alike (hL : SessionRel L) (h : Alike L pre s t) :
    OutcomesAlike L pre (step s) (step t) := by
  obtain ⟨o, u, hl⟩ := h
  cases hp : u.pending with
  | nil =>
    simp only [step, stepOnce, beside, hp]
    split
    · exact .next (.mk o { u with pending := [] } hl)
    · exact .refused _
  | cons i rest =>
    simp only [step, stepOnce, beside, hp]
    split
    · exact runInput_alike hL (.mk o { u with pending := rest } hl) i
    · exact .refused _

end

/-! ### The OUT queue -/

/-- With equal sessions, the second outcome is the first with `pre` before what is in OUT. -/
theorem OutcomesAlike.eq_withOutBefore {pre : List OutEvent}
    {a b : Host.Outcome State Fault Refusal} (h : OutcomesAlike Eq pre a b) :
    b = withOutBefore pre a := by
  cases h with
  | next h => obtain ⟨o, u, rfl⟩ := h; rfl
  | fault f => rfl
  | refused r => rfl

theorem step_withOutBefore (s : State) (pre : List OutEvent) :
    step { s with out := pre ++ s.out } = withOutBefore pre (step s) :=
  have h : Alike Eq pre s { s with out := pre ++ s.out } := .mk s.out s rfl
  (step_alike sessionRel_eq h).eq_withOutBefore

/-- A step appends to OUT what it does from the empty queue. -/
theorem step_out_append {s t : State} (h : step s = .next t) : ∃ evs, t.out = s.out ++ evs := by
  have he : step s = withOutBefore s.out (step { s with out := [] }) := by
    simpa using step_withOutBefore { s with out := [] } s.out
  rw [h] at he
  cases hu : step { s with out := [] } with
  | next u => rw [hu] at he; cases he; exact ⟨u.out, rfl⟩
  | fault f => rw [hu] at he; cases he
  | refused r => rw [hu] at he; cases he

/-- Settles O18: the simulation with equal sessions; that OUT is appended to is its case of an empty
queue. -/
theorem outQueueIsOnlyAppendedTo : Obligations.OutQueueIsOnlyAppendedTo :=
  ⟨fun _ _ h => step_out_append h, step_withOutBefore⟩

/-! ### The session values no rule reads -/

theorem sameShown_iff_alike {s t : State} : sameShown s t ↔ Alike sameLive [] s t := by
  constructor
  · rintro ⟨hl, ht⟩
    rw [ht]
    exact .mk s.out s hl
  · rintro ⟨o, u, hl⟩
    exact ⟨hl, rfl⟩

theorem OutcomesAlike.outcomesSame {a b : Host.Outcome State Fault Refusal}
    (h : OutcomesAlike sameLive [] a b) : outcomesSame a b := by
  cases h with
  | next h => exact sameShown_iff_alike.2 h
  | fault f => rfl
  | refused r => rfl

/-- Settles O19: the simulation with sessions that agree on what a rule reads. -/
theorem deadSessionValuesAreNeverShown : Obligations.DeadSessionValuesAreNeverShown :=
  fun _ _ h => (step_alike sessionRel_sameLive (sameShown_iff_alike.1 h)).outcomesSame

end Sys2Proof.Machine
end

section
/-! PROOFS. The statements of `20_memory.md`: what one Read, Write or Probe returns, stores and logs,
and what a Read sees of the Write before it. -/

namespace Sys2Proof.Machine

/-! ### The bytes of a register -/

/-- A byte lies in one register only. -/
theorem mem_of_byteOfRegs {rs : List Byte} {r : Byte} {a : Nat}
    (ha : a = hiByteAddr r ∨ a = loByteAddr r) (h : byteOfRegs rs a) : r ∈ rs := by
  obtain ⟨q, hq, hb⟩ := h
  have hrq : r = q := BitVec.eq_of_toNat_eq (by unfold hiByteAddr loByteAddr at *; omega)
  exact hrq ▸ hq

/-- Every byte after a register write: the register's two hold the word, the others stay. -/
theorem memRead_regWrite {m : Memory} (h : Memory.wf m = true) (r : Byte) (w : Word) (a : Nat) :
    memRead (regWrite m r w) a =
      if a = hiByteAddr r then hiByte w
      else if a = loByteAddr r then loByte w else memRead m a := by
  split
  · next hhi => rw [hhi, memRead_regWrite_hi h]
  · next hhi =>
    split
    · next hlo => rw [hlo, memRead_regWrite_lo h]
    · next hlo => exact memRead_regWrite_ne hhi hlo

/-- Every byte after a Write: the device's own changes, and the two bytes if it succeeds. -/
theorem memRead_busWrite {s : State} (h : Memory.wf s.regs = true) (r b0 b1 : Byte) (a : Nat) :
    memRead (busWrite r b0 b1 s).2.regs a =
      if (turnAt s 0).answers = true ∧ a = hiByteAddr r then b0
      else if (turnAt s 0).answers = true ∧ a = loByteAddr r then b1
      else memRead (regsChanged s.regs (turnAt s 0).changes) a := by
  rw [busWrite_regs]
  cases (turnAt s 0).answers with
  | true => simp [memRead_regWrite (regsChanged_wf h _)]
  | false => simp

/-! ### One transaction -/

/-- Transactions use up one move of the device each. -/
theorem Reach.turnAt_eq {s t : State} {evs : List BusEvent} (h : Reach s evs t) (k : Nat) :
    turnAt t k = turnAt s (k + evs.length) := by
  induction h with
  | refl => rfl
  | read reg _ ih => rw [ih, turnAt_busRead, List.length_cons, Nat.add_assoc]
  | write reg b0 b1 _ ih => rw [ih, turnAt_busWrite, List.length_cons, Nat.add_assoc]
  | probe _ ih => rw [ih, turnAt_busProbe, List.length_cons, Nat.add_assoc]

/-- Each of the three transactions is one step of `Reach`. -/
theorem reach_singleTransaction {s t : State} {r b0 b1 : Byte}
    (ht : t ∈ [(busRead r s).2, (busWrite r b0 b1 s).2, (busProbe s).2]) :
    ∃ e, Reach s [e] t := by
  simp only [List.mem_cons, List.not_mem_nil, or_false] at ht
  rcases ht with rfl | rfl | rfl
  · exact ⟨_, .read r (.refl _)⟩
  · exact ⟨_, .write r b0 b1 (.refl _)⟩
  · exact ⟨_, .probe (.refl _)⟩

/-- Settles O30: the laws of each transaction give what it returns, stores and logs; what all three
leave alone is the frame of `Reach`. -/
theorem singleTransactions : Obligations.SingleTransactions := by
  intro s r b0 b1 hw m ok
  have hread : (busRead r s).1
      = if ok then some (memRead m (2 * r.toNat), memRead m (2 * r.toNat + 1)) else none := by
    rw [busRead_fst, busRead_regs]
    rfl
  refine ⟨⟨hread, busRead_regs r s, busRead_bus r s⟩,
    ⟨busWrite_fst r b0 b1 s, busWrite_bus r b0 b1 s, memRead_busWrite hw r b0 b1⟩,
    ⟨rfl, busProbe_regs s, busProbe_bus s⟩, fun t ht => ?_⟩
  obtain ⟨e, hr⟩ := reach_singleTransaction ht
  obtain ⟨hparams, hsession, hout, hresults, hpending, htick⟩ := hr.frame
  exact ⟨hsession, hout, hparams, hresults, hpending, htick, hr.regs_wf hw, hr.turnAt_eq⟩

/-! ### A Read after a Write -/

/-- A Read that is answered, of a register the device leaves alone in it, returns what the register
held. -/
theorem busRead_fst_of_not_changed {s : State} {r : Byte} (ha : (turnAt s 0).answers = true)
    (hr : r ∉ (turnAt s 0).changes.map Prod.fst) :
    (busRead r s).1 = some (memRead s.regs (hiByteAddr r), memRead s.regs (loByteAddr r)) := by
  rw [busRead_fst, if_pos ha, busRead_regs,
    memRead_regsChanged (mt (mem_of_byteOfRegs (.inl rfl)) hr),
    memRead_regsChanged (mt (mem_of_byteOfRegs (.inr rfl)) hr)]

/-- Settles O31: the successful Write left its two bytes in the register, and the Read's move of the
device leaves them there. -/
theorem readSeesTheEarlierWrite : Obligations.ReadSeesTheEarlierWrite := by
  intro s r b0 b1 hw hwrite hread hr
  have hturn : turnAt (busWrite r b0 b1 s).2 0 = turnAt s 1 := turnAt_busWrite r b0 b1 s 0
  have hhi : memRead (busWrite r b0 b1 s).2.regs (hiByteAddr r) = b0 := by
    simp [memRead_busWrite hw, hwrite]
  have hlo : memRead (busWrite r b0 b1 s).2.regs (loByteAddr r) = b1 := by
    simp [memRead_busWrite hw, hwrite, (hiByteAddr_ne_loByteAddr r r).symm]
  rw [busRead_fst_of_not_changed (hturn ▸ hread) (hturn ▸ hr), hhi, hlo]

end Sys2Proof.Machine
end

section
/-! PROOFS. The statements of `30_encoding.md` on the decoder and the encoder: each undoes the other,
and what becomes of a byte or a record that names no operation. Bytes in Idle go through the table of
commands (`commandTable`), in which the decoder looks them up. -/

namespace Sys2Proof.Machine

/-! ### The table of commands -/

theorem lookup_cons_eq_ite {α β : Type} [DecidableEq α] (a k : α) (v : β) (l : List (α × β)) :
    ((k, v) :: l).lookup a = if a = k then some v else l.lookup a := by
  rw [List.lookup_cons]
  by_cases h : a = k
  · rw [beq_iff_eq.2 h, if_pos h]
  · rw [beq_eq_false_iff_ne.2 h, if_neg h]

/-- In a list whose keys are distinct, looking a key up finds the one entry that has it. -/
theorem lookup_eq_some_iff_mem {α β : Type} [DecidableEq α] {l : List (α × β)}
    (h : (l.map Prod.fst).Nodup) {a : α} {b : β} : l.lookup a = some b ↔ (a, b) ∈ l := by
  induction l with
  | nil => simp
  | cons c l ih =>
    obtain ⟨k, v⟩ := c
    obtain ⟨hk, hl⟩ := List.nodup_cons.1 h
    rw [lookup_cons_eq_ite, List.mem_cons, Prod.mk.injEq]
    split
    · next hak =>
      subst hak
      have hn : (a, b) ∉ l := fun hb => hk (List.mem_map.2 ⟨_, hb, rfl⟩)
      simp [hn, eq_comm]
    · next hak => simp [hak, ih hl]

/-- R101's table: the command each P_CMD_* value stands for. -/
def commandTable (p : Params) : List (Byte × Instr) :=
  [(p.cmdReset, .cmdReset), (p.cmdMfrId, .cmdMfrId), (p.cmdDevId, .cmdDevId),
    (p.cmdRdRate, .cmdRdRate), (p.cmdSensor, .cmdSensor), (p.cmdRdCh0, .cmdRdCh0),
    (p.cmdRdCh1, .cmdRdCh1), (p.cmdRdCh2, .cmdRdCh2), (p.cmdRdCh3, .cmdRdCh3),
    (p.cmdStart0, .cmdStart0), (p.cmdStart1, .cmdStart1), (p.cmdStart2, .cmdStart2),
    (p.cmdStart3, .cmdStart3), (p.cmdEnterRate, .cmdEnterRate), (p.cmdEnterChset, .cmdEnterChset)]

/-- The decoder looks a byte in Idle up in the table. -/
theorem decodeCommand_eq_lookup (p : Params) (b : Byte) :
    decodeCommand p b = (commandTable p).lookup b := by
  simp only [commandTable, lookup_cons_eq_ite, List.lookup_nil, decodeCommand]

theorem cmdBytes_nodup {p : Params} (h : p.wf = true) : p.cmdBytes.Nodup := by
  simp only [Params.wf, Params.cmdBytesDistinct, Bool.and_eq_true, decide_eq_true_eq] at h
  obtain ⟨⟨⟨hcmd, -⟩, -⟩, -⟩ := h
  exact hcmd

/-- The keys of the table are the command bytes. -/
theorem commandTable_keys_nodup {p : Params} (h : p.wf = true) :
    ((commandTable p).map Prod.fst).Nodup :=
  cmdBytes_nodup h

/-- What a byte decodes to is an entry of the table, whatever the parameters. -/
theorem mem_commandTable_of_decodeCommand {p : Params} {b : Byte} {i : Instr}
    (h : decodeCommand p b = some i) : (b, i) ∈ commandTable p := by
  rw [decodeCommand_eq_lookup, List.lookup_eq_some_iff] at h
  obtain ⟨l₁, l₂, hl, -⟩ := h
  simp [hl]

/-- With distinct command bytes every entry of the table decodes to its command. -/
theorem decodeCommand_of_mem {p : Params} (hw : p.wf = true) {b : Byte} {i : Instr}
    (h : (b, i) ∈ commandTable p) : decodeCommand p b = some i := by
  rw [decodeCommand_eq_lookup, lookup_eq_some_iff_mem (commandTable_keys_nodup hw)]
  exact h

theorem decodeCommand_eq_none {p : Params} {b : Byte} (h : b ∉ p.cmdBytes) :
    decodeCommand p b = none := by
  rw [decodeCommand_eq_lookup, List.lookup_eq_none_iff]
  rintro ⟨k, i⟩ hk
  have hb : b ≠ k := fun he => h (he ▸ List.mem_map_of_mem (f := Prod.fst) hk)
  simpa using hb

theorem encode_of_mem_commandTable {p : Params} {b : Byte} {i : Instr}
    (h : (b, i) ∈ commandTable p) : encode p i = .rx b := by
  have hall : ∀ e ∈ commandTable p, encode p e.2 = .rx e.1 := by simp [commandTable, encode]
  exact hall _ h

/-! ### What may stand at each position, beside the REQ operations -/

/-- In Idle the commands of the table. -/
theorem mem_commandTable_of_fits_idle (p : Params) {i : Instr} (hi : isReq i = false)
    (h : i.fits .idle = true) : ∃ b, (b, i) ∈ commandTable p := by
  cases i <;> first | (cases hi; done) | (cases h; done) | simp [commandTable]

/-- While Awaiting RATE the digit and the latch byte. -/
theorem eq_of_fits_rate {i : Instr} {k : BitVec 3} (hi : isReq i = false)
    (h : i.fits (.rate k) = true) :
    ∃ b, (k = 1 ∧ i = .seqRateDigit b) ∨ (k = 2 ∧ i = .seqRateLatch b) := by
  cases i
  case seqRateDigit b => exact ⟨b, .inl ⟨by simpa [Instr.fits] using h, rfl⟩⟩
  case seqRateLatch b => exact ⟨b, .inr ⟨by simpa [Instr.fits] using h, rfl⟩⟩
  all_goals first | (cases hi; done) | cases h

/-- While Awaiting CHSET the six payload bytes and the latch byte. -/
theorem eq_of_fits_chset {i : Instr} {k : BitVec 3} (hi : isReq i = false)
    (h : i.fits (.chset k) = true) :
    ∃ b, (k ≠ 0 ∧ k ≠ 7 ∧ i = .seqChsetPayload b) ∨ (k = 7 ∧ i = .seqChsetLatch b) := by
  cases i
  case seqChsetPayload b =>
    have hk : 1 ≤ k.toNat ∧ k.toNat ≤ 6 := by simpa [Instr.fits] using h
    exact ⟨b, .inl ⟨by bv_omega, by bv_omega, rfl⟩⟩
  case seqChsetLatch b => exact ⟨b, .inr ⟨by simpa [Instr.fits] using h, rfl⟩⟩
  all_goals first | (cases hi; done) | cases h

/-! ### Decoding what was encoded -/

/-- A REQ operation's record holds its op and every operand it has. -/
theorem decodeReq_encode (p : Params) {i : Instr} (h : isReq i = true) :
    ∃ r, encode p i = .req r ∧ decodeReq r = i := by
  cases i
  case reservedLow lo =>
    have hlo : ∀ lo : BitVec 1, decodeReq { op := 0x16 ||| lo.setWidth 5 } = .reservedLow lo := by
      decide
    exact ⟨_, rfl, hlo lo⟩
  case reservedHigh lo =>
    have hlo : ∀ lo : BitVec 3, decodeReq { op := 0x18 ||| lo.setWidth 5 } = .reservedHigh lo := by
      decide
    exact ⟨_, rfl, hlo lo⟩
  all_goals first | exact ⟨_, rfl, rfl⟩ | cases h

/-- Any other instruction's byte, at a position where it may stand. -/
theorem decode_encode_byte {p : Params} {i : Instr} {pos : Pos} (hw : p.wf = true)
    (hi : isReq i = false) (h : i.fits pos = true) : decode p pos (encode p i) = .ok i := by
  cases pos with
  | idle =>
    obtain ⟨b, hb⟩ := mem_commandTable_of_fits_idle p hi h
    simp only [encode_of_mem_commandTable hb, decode, decodeRx, decodeCommand_of_mem hw hb]
  | rate k =>
    obtain ⟨b, ⟨rfl, rfl⟩ | ⟨rfl, rfl⟩⟩ := eq_of_fits_rate hi h <;> rfl
  | chset k =>
    obtain ⟨b, ⟨h0, h7, rfl⟩ | ⟨rfl, rfl⟩⟩ := eq_of_fits_chset hi h
    · simp only [encode, decode, decodeRx, if_neg h0, if_neg h7]
    · rfl

/-- Settles O1: a REQ operation through its record, any other instruction through its byte. -/
theorem decodeOfEncodeIsTheInstruction : Obligations.DecodeOfEncodeIsTheInstruction := by
  intro p i pos hw h
  cases hi : isReq i with
  | true =>
    obtain ⟨r, he, hd⟩ := decodeReq_encode p hi
    rw [he]
    exact congrArg Except.ok hd
  | false => exact decode_encode_byte hw hi h

/-! ### Encoding what was decoded -/

theorem encode_of_decode_rx {p : Params} {pos : Pos} {b : Byte} {i : Instr}
    (h : decode p pos (.rx b) = .ok i) : encode p i = .rx b := by
  cases pos with
  | idle =>
    simp only [decode, decodeRx] at h
    split at h <;> cases h
    exact encode_of_mem_commandTable (mem_commandTable_of_decodeCommand ‹_›)
  | rate k =>
    simp only [decode, decodeRx] at h
    split at h
    · cases h; rfl
    · split at h <;> cases h
      rfl
  | chset k =>
    simp only [decode, decodeRx] at h
    split at h
    · cases h; rfl
    · split at h <;> cases h
      rfl

theorem isReq_decodeReq (r : ReqRecord) : isReq (decodeReq r) = true := by
  unfold decodeReq
  split <;> rfl

/-- From 0x18 up, `reservedHigh` keeps the three low bits of the op. -/
theorem op_of_reservedHigh : ∀ op : BitVec 5, 0x18 ≤ op.toNat →
    0x18 ||| (op.setWidth 3).setWidth 5 = op := by decide

/-- The op of a record is the op of its operation's record. -/
theorem op_of_encode_decodeReq (p : Params) (r : ReqRecord) :
    ∃ q, encode p (decodeReq r) = .req q ∧ q.op = r.op := by
  unfold decodeReq
  split
  case h_25 =>
    have hop : 0x18 ≤ r.op.toNat := by simp only [imp_false] at *; omega
    exact ⟨_, rfl, op_of_reservedHigh r.op hop⟩
  all_goals exact ⟨_, rfl, BitVec.eq_of_toNat_eq (by simp only [*]; rfl)⟩

/-- Settles O2: a byte decodes to what may stand at its position, with its encoding; a record to the
operation of its op. -/
theorem encodeOfDecodeIsTheWord : Obligations.EncodeOfDecodeIsTheWord := by
  refine ⟨fun p pos b i h => ⟨fits_of_decode_rx h, encode_of_decode_rx h⟩, fun p pos r => ?_⟩
  obtain ⟨q, hq, hop⟩ := op_of_encode_decodeReq p r
  exact ⟨decodeReq r, q, rfl, isReq_decodeReq r, hq, hop⟩

/-! ### Command bytes that are not distinct -/

/-- Parameters that break a constraint are refused, whatever is offered. -/
theorem step_refused {s : State} (h : s.params.wf = false) :
    step s = .refused .illFormedParameters := by
  unfold step stepOnce
  split <;> simp [h]

/-- Settles O5: equal command bytes make the parameters ill-formed; the latch is in no constraint and
in no entry of the table. -/
theorem equalCommandBytesAreRefused : Obligations.EqualCommandBytesAreRefused := by
  refine ⟨fun s h => step_refused ?_, fun p c hw _ => hw, fun p c w => ?_, by decide, by decide⟩
  · exact Bool.eq_false_iff.2 fun hw => h (cmdBytes_nodup hw)
  · cases w <;> rfl

/-! ### A byte in Idle that is no command -/

theorem timedOut_of_idle {s : State} (h : s.session.mode = .idle) : timedOut s = false := by
  simp [timedOut, h]

theorem pos_of_idle {s : State} (h : s.session.mode = .idle) : s.pos = .idle := by
  simp [State.pos, h]

theorem parseByte_unknown {s : State} {b : Byte} (hm : s.session.mode = .idle)
    (hb : b ∉ s.params.cmdBytes) : parseByte b s = .next s := by
  have hd : decode s.params s.pos (.rx b) = .error (.unknownCommand b) := by
    simp only [pos_of_idle hm, decode, decodeRx, decodeCommand_eq_none hb]
  simp [parseByte, timedOut_of_idle hm, runByte, hd]

theorem timeoutCheck_of_not_timedOut {s : State} (h : timedOut s = false) :
    timeoutCheck s = s := by
  simp [timeoutCheck, h]

/-- Settles O10: the byte leaves the sampled state as it is, and in Idle the timeout check does
too. -/
theorem unknownIdleByteHasNoEffect : Obligations.UnknownIdleByteHasNoEffect := by
  intro s s0 b now rest hw hp hs0 hm hb
  have hm0 : s0.session.mode = .idle := by rw [hs0]; exact hm
  have hparse : parseByte b s0 = .next s0 := parseByte_unknown hm0 (by rw [hs0]; exact hb)
  refine ⟨hparse, ?_⟩
  calc step s
      = afterByte (parseByte b s0) := by rw [step_eq_runInput hw hp, hs0]; rfl
    _ = .next (dataCheck (timeoutCheck s0)) := by rw [hparse]; rfl
    _ = .next (dataCheck s0) := by rw [timeoutCheck_of_not_timedOut (timedOut_of_idle hm0)]

/-! ### Reserved ops -/

theorem decodeReq_reserved {r : ReqRecord} (h : 0x16 ≤ r.op) :
    (∃ lo, decodeReq r = .reservedLow lo) ∨ ∃ lo, decodeReq r = .reservedHigh lo := by
  have hop : 0x16 ≤ r.op.toNat := h
  unfold decodeReq
  split
  case h_23 => exact .inl ⟨0, rfl⟩
  case h_24 => exact .inl ⟨1, rfl⟩
  case h_25 => exact .inr ⟨_, rfl⟩
  all_goals omega

/-- Settles O50: both rows of reserved ops raise ConfigError at once. -/
theorem reservedOpsReturnConfigError : Obligations.ReservedOpsReturnConfigError := by
  intro r s h
  rcases decodeReq_reserved h with ⟨lo, hd⟩ | ⟨lo, hd⟩ <;> rw [hd] <;> rfl

end Sys2Proof.Machine
end

section
/-! PROOFS. The statements of `30_encoding.md` on what every step keeps and on what it gives to the
host: the invariant, the packets it emits, the fields of a result record. The first two are relations
between the state before and the state after, carried along the parts of a step once
(`StepRel.of_step`). -/

namespace Sys2Proof.Machine

/-! ### Relations carried along a step -/

/-- A relation that holds along every part of a step, and along parts put together. -/
structure StepRel (R : State → State → Prop) : Prop where
  refl : ∀ s, R s s
  trans : ∀ {s t u}, R s t → R t u → R s u
  taken : ∀ s rest, R s { s with pending := rest }
  sampled : ∀ s now, R s (sampleTick now s)
  exec : ∀ {i : Instr} {s t : State}, i.fits s.pos = true → Machine.exec i s = .next t → R s t
  aborted : ∀ s, R s (timeoutAbort s)
  checked : ∀ s, R s (dataCheck s)

theorem StepRel.of_byteEffect {R : State → State → Prop} (hR : StepRel R) {rx : Option Byte}
    {s t : State} (h : ByteEffect rx s t) : R s t := by
  rcases h with rfl | ⟨-, rfl⟩ | ⟨b, i, -, -, hd, he⟩
  · exact hR.refl _
  · exact hR.aborted s
  · exact hR.exec (fits_of_decode_rx hd) he

theorem StepRel.of_timeoutCheck {R : State → State → Prop} (hR : StepRel R) (s : State) :
    R s (timeoutCheck s) := by
  unfold timeoutCheck
  split
  · exact hR.aborted s
  · exact hR.refl s

/-- A step is made of these parts; what it runs may stand at the session position (R116). -/
theorem StepRel.of_step {R : State → State → Prop} (hR : StepRel R) {s t : State}
    (h : step s = .next t) : R s t := by
  rcases (step_cases h).2 with ⟨-, rfl⟩ | ⟨r, rest, -, he⟩ | ⟨rx, now, rest, u, -, hu, rfl⟩
  · exact hR.refl _
  · exact hR.trans (hR.taken s rest) (hR.exec (fits_decodeReq r _) he)
  · have hbyte : R s u :=
      hR.trans (hR.taken s rest) (hR.trans (hR.sampled _ now) (hR.of_byteEffect hu))
    exact hR.trans hbyte (hR.trans (hR.of_timeoutCheck u) (hR.checked _))

/-! ### The invariant -/

/-- What the invariant says of the session registers, under given parameters. -/
structure SessionInv (p : Params) (x : Session) : Prop where
  position : sessionWf x = true
  ordinal : rateDigitWf x = true
  deadline : tickWf p x.deadline = true

theorem BlockInv.sessionInv {s : State} (h : BlockInv s) : SessionInv s.params s.session := by
  obtain ⟨-, hses, hdig, hdead, -, -⟩ := h
  exact ⟨hses, hdig, hdead⟩

theorem BlockInv.withSession {s : State} (h : BlockInv s) {x : Session}
    (hx : SessionInv s.params x) : BlockInv { s with session := x } := by
  obtain ⟨hpar, -, -, -, htick, hregs⟩ := h
  obtain ⟨hses, hdig, hdead⟩ := hx
  exact ⟨hpar, hses, hdig, hdead, htick, hregs⟩

/-- Transactions keep the invariant: they reach only the register memory, and its form stays. -/
theorem Reach.blockInv {s t : State} {evs : List BusEvent} (h : Reach s evs t) (hs : BlockInv s) :
    BlockInv t := by
  obtain ⟨hparams, hsession, -, -, -, htick⟩ := h.frame
  obtain ⟨hpar, hses, hdig, hdead, htk, hregs⟩ := hs
  refine ⟨?_, ?_, ?_, ?_, ?_, h.regs_wf hregs⟩
  all_goals simpa only [hparams, hsession, htick]

theorem tickWf_wrapTick (p : Params) (t : Tick) : tickWf p (wrapTick p t) = true := by
  have hlt : t.toNat % 2 ^ p.tickW < 2 ^ p.tickW := Nat.mod_lt _ (Nat.two_pow_pos _)
  simp only [tickWf, wrapTick, BitVec.toNat_ofNat, decide_eq_true_eq]
  exact (Nat.mod_le _ _).trans_lt hlt

theorem BlockInv.sampleTick {s : State} (h : BlockInv s) (now : Tick) :
    BlockInv (sampleTick now s) := by
  obtain ⟨hpar, hses, hdig, hdead, -, hregs⟩ := h
  exact ⟨hpar, hses, hdig, hdead, tickWf_wrapTick s.params now, hregs⟩

theorem SessionInv.idle {p : Params} {x : Session} (h : SessionInv p x) :
    SessionInv p { x with mode := .idle } :=
  ⟨rfl, rfl, h.deadline⟩

theorem SessionInv.entered {p : Params} (x : Session) (k : Kind) {d : Tick}
    (hd : tickWf p d = true) : SessionInv p (x.entered k d) := by
  cases k <;> exact ⟨rfl, rfl, hd⟩

theorem digit_le_nine (b : Byte) : digit b ≤ 9 := by
  unfold digit
  split <;> bv_omega

theorem sessionWf_of_progress_two {x : Session} (h : x.progress = 2) : sessionWf x = true := by
  unfold sessionWf
  split <;> simp [h]

theorem sessionWf_of_chset {x : Session} (hk : x.kind = .chset) (hp : x.progress ≠ 0) :
    sessionWf x = true := by
  cases hm : x.mode with
  | idle => simp [sessionWf, hm]
  | awaiting => simpa [sessionWf, hm, hk] using hp

theorem rateDigitWf_of_ordinal {x : Session} (h : x.scratch[0] ≤ 9) : rateDigitWf x = true := by
  unfold rateDigitWf
  split
  · rw [decide_eq_true h, Bool.or_true]
  · rfl

theorem rateDigitWf_of_chset {x : Session} (hk : x.kind = .chset) : rateDigitWf x = true := by
  cases hm : x.mode <;> simp [rateDigitWf, hm, hk]

/-- The digit byte's ordinal is at most 9, at whatever position the byte is run. -/
theorem SessionInv.digit {p : Params} {x : Session} (h : SessionInv p x) (b : Byte) :
    SessionInv p { x with scratch := x.scratch.setIfInBounds 0 (digit b), progress := 2 } :=
  ⟨sessionWf_of_progress_two rfl, rateDigitWf_of_ordinal (by simpa using digit_le_nine b),
    h.deadline⟩

/-- A payload byte while Awaiting CHSET leaves the progress at 1 to 7. -/
theorem SessionInv.stored {p : Params} {x : Session} (h : SessionInv p x) (b : Byte)
    (hk : x.kind = .chset) (h6 : x.progress.toNat ≤ 6) : SessionInv p (x.stored b) := by
  have hp : x.progress + 1 ≠ 0 := by bv_omega
  exact ⟨sessionWf_of_chset hk hp, rateDigitWf_of_chset hk, h.deadline⟩

theorem kind_of_pos_chset {s : State} {k : BitVec 3} (h : s.pos = .chset k) :
    s.session.kind = .chset := by
  unfold State.pos at h
  split at h <;> cases h
  assumption

/-- A byte that only moves the session, at a position where it may stand. -/
theorem SessionShape.blockInv {i : Instr} {s t : State} (h : SessionShape i s t)
    (hi : i.fits s.pos = true) (hs : BlockInv s) : BlockInv t := by
  rcases h with ⟨k, -, rfl⟩ | ⟨b, -, rfl⟩ | ⟨b, rfl, -, h6, rfl⟩
  · have htick : tickWf s.params s.tick = true := by
      obtain ⟨-, -, -, -, htick, -⟩ := hs
      exact htick
    exact hs.withSession (.entered s.session k htick)
  · exact hs.withSession (hs.sessionInv.digit b)
  · obtain ⟨k, hpos, -, -⟩ := fits_seqChsetPayload hi
    exact hs.withSession (hs.sessionInv.stored b (kind_of_pos_chset hpos) h6)

theorem exec_blockInv {i : Instr} {s t : State} (hi : i.fits s.pos = true)
    (h : exec i s = .next t) (hs : BlockInv s) : BlockInv t := by
  rcases exec_cases h with ⟨-, evs, u, r, hr, -, rfl⟩ | ⟨-, x, evs, u, e, hx, hr, -, -, -, rfl⟩ | hm
  · exact hr.blockInv hs
  · have hinv : SessionInv s.params x := by
      rcases hx with rfl | rfl
      · exact hs.sessionInv
      · exact hs.sessionInv.idle
    exact hr.blockInv (hs.withSession hinv)
  · exact hm.blockInv hi hs

theorem dataCheck_blockInv {s : State} (hs : BlockInv s) : BlockInv (dataCheck s) := by
  obtain ⟨evs, u, hr, -, hd | ⟨pl, -, hd⟩⟩ := dataCheck_reach s <;> rw [hd] <;> exact hr.blockInv hs

theorem stepRel_blockInv : StepRel fun s t => BlockInv s → BlockInv t where
  refl _ h := h
  trans h g hs := g (h hs)
  taken _ _ h := h
  sampled _ now h := h.sampleTick now
  exec := exec_blockInv
  aborted _ h := h.withSession h.sessionInv.idle
  checked _ h := dataCheck_blockInv h

/-- Settles O14: each part of a step keeps the invariant. -/
theorem stepKeepsTheInvariant : Obligations.StepKeepsTheInvariant :=
  fun _ _ hs h => stepRel_blockInv.of_step h hs

/-! ### The packets a step emits -/

/-- From `s` to `t` OUT gained only events the block may emit, under parameters that stayed. -/
def EmitsOk (s t : State) : Prop :=
  t.params = s.params ∧ ∃ evs, t.out = s.out ++ evs ∧ ∀ e ∈ evs, eventOk s.params e

theorem EmitsOk.of_same {s t : State} (hp : t.params = s.params) (ho : t.out = s.out) :
    EmitsOk s t :=
  ⟨hp, [], by simp [ho], by simp⟩

theorem EmitsOk.trans {s t u : State} (h : EmitsOk s t) (g : EmitsOk t u) : EmitsOk s u := by
  obtain ⟨hp, es, ho, hok⟩ := h
  obtain ⟨gp, fs, go, gok⟩ := g
  refine ⟨gp.trans hp, es ++ fs, by rw [go, ho, List.append_assoc], fun e he => ?_⟩
  rcases List.mem_append.1 he with he | he
  · exact hok e he
  · rw [← hp]; exact gok e he

theorem Reach.emitsOk {s t : State} {evs : List BusEvent} (h : Reach s evs t) : EmitsOk s t := by
  obtain ⟨hparams, -, hout, -, -, -⟩ := h.frame
  exact .of_same hparams hout

theorem emitsOk_emit {s : State} {e : OutEvent} (h : eventOk s.params e) : EmitsOk s (emit e s) :=
  ⟨rfl, [e], rfl, by simpa using h⟩

/-- Transactions, then one event. -/
theorem Reach.emitsOk_emit {s t : State} {evs : List BusEvent} {e : OutEvent} (h : Reach s evs t)
    (he : eventOk s.params e) : EmitsOk s (emit e t) :=
  h.emitsOk.trans (Machine.emitsOk_emit (h.emitsOk.1.symm ▸ he))

theorem exec_emitsOk {i : Instr} {s t : State} (h : exec i s = .next t) : EmitsOk s t := by
  rcases exec_cases h with ⟨-, evs, u, r, hr, -, rfl⟩ | ⟨-, x, evs, u, e, -, hr, -, he, -, rfl⟩ | hs
  · exact hr.emitsOk.trans (.of_same rfl rfl)
  · have hx : EmitsOk s { s with session := x } := .of_same rfl rfl
    exact hx.trans (hr.emitsOk_emit he)
  · obtain ⟨-, x, rfl⟩ := hs.session_only
    exact .of_same rfl rfl

theorem dataCheck_emitsOk (s : State) : EmitsOk s (dataCheck s) := by
  obtain ⟨evs, u, hr, -, hd | ⟨pl, hl, hd⟩⟩ := dataCheck_reach s <;> rw [hd]
  · exact hr.emitsOk
  · have hmem : (s.params.pktData, Config.hdrData, 16) ∈ packetSchema s.params := by
      simp [packetSchema, Config.hdrData]
    exact hr.emitsOk_emit (packetOk_frame hmem hl)

theorem stepRel_emitsOk : StepRel EmitsOk where
  refl _ := .of_same rfl rfl
  trans := .trans
  taken _ _ := .of_same rfl rfl
  sampled _ _ := .of_same rfl rfl
  exec _ := exec_emitsOk
  aborted _ := .trans (emitsOk_emit (e := .notice .timeout) trivial) (.of_same rfl rfl)
  checked := dataCheck_emitsOk

/-- Settles O20: a command's packet is framed as its type says, the data check's too, and a timeout
gives a notice. -/
theorem emittedPacketsFollowTheSchema : Obligations.EmittedPacketsFollowTheSchema :=
  fun _ _ h => (stepRel_emitsOk.of_step h).2

/-! ### Result records -/

/-- The record a REQ operation added is that of its outcome. -/
theorem eq_resultOf_of_runReq {α : Type} {f : α → Long × F64 × Bool} {op : RegOp α} {s t : State}
    {r : ReqResult} (ht : t = runReq f op s) (h : t.results = s.results ++ [r]) :
    r = resultOf f (op s).1 := by
  rw [ht, runReq_eq (Prod.mk.eta (p := op s)).symm, respond_results] at h
  have hlast : [resultOf f (op s).1] = [r] := List.append_inj_right' h rfl
  exact (List.cons.inj hlast).1.symm

theorem othersZero_of_error {α : Type} (f : α → Long × F64 × Bool) (e : Err) :
    othersZero .nothing (resultOf f (.error e)) := ⟨rfl, rfl, rfl⟩

theorem othersZero_asNothing (v : Unit) : othersZero .nothing (resultOf asNothing (.ok v)) :=
  ⟨rfl, rfl, rfl⟩

theorem othersZero_asReal (v : F64) : othersZero .rval (resultOf asReal (.ok v)) := ⟨rfl, rfl⟩

theorem othersZero_asBool (v : Bool) : othersZero .rbool (resultOf asBool (.ok v)) := ⟨rfl, rfl⟩

/-- Zero extension leaves the bits above the value's width 0. -/
theorem othersZero_asData {n : Nat} (v : BitVec n) :
    othersZero (.rdata n) (resultOf asData (.ok v)) := by
  refine ⟨?_, rfl, rfl⟩
  calc (v.setWidth 32).toNat
      = v.toNat % 2 ^ 32 := BitVec.toNat_setWidth 32 v
    _ ≤ v.toNat := Nat.mod_le _ _
    _ < 2 ^ n := v.isLt

/-- `i` runs an operation and puts its value in the field `field` of the record. -/
def ReturnsIn (field : ResultField) (i : Instr) : Prop :=
  ∃ (α : Type) (f : α → Long × F64 × Bool) (op : RegOp α),
    (∀ s, exec i s = .next (runReq f op s)) ∧ ∀ v, othersZero field (resultOf f (.ok v))

theorem ReturnsIn.nothing {i : Instr} {op : RegOp Unit}
    (h : ∀ s, exec i s = .next (runReq asNothing op s)) : ReturnsIn .nothing i :=
  ⟨Unit, asNothing, op, h, othersZero_asNothing⟩

theorem ReturnsIn.rval {i : Instr} {op : RegOp F64}
    (h : ∀ s, exec i s = .next (runReq asReal op s)) : ReturnsIn .rval i :=
  ⟨F64, asReal, op, h, othersZero_asReal⟩

theorem ReturnsIn.rbool {i : Instr} {op : RegOp Bool}
    (h : ∀ s, exec i s = .next (runReq asBool op s)) : ReturnsIn .rbool i :=
  ⟨Bool, asBool, op, h, othersZero_asBool⟩

theorem ReturnsIn.rdata {n : Nat} {i : Instr} {op : RegOp (BitVec n)}
    (h : ∀ s, exec i s = .next (runReq asData op s)) : ReturnsIn (.rdata n) i :=
  ⟨BitVec n, asData, op, h, othersZero_asData⟩

/-- Each REQ operation returns its value in the field R92 names. -/
theorem returnsIn_resultField {i : Instr} (hi : isReq i = true) : ReturnsIn (resultField i) i := by
  cases i
  case fxpDecS raw a => exact .rval fun _ => rfl
  case fxpEncS val a => exact .rdata fun _ => rfl
  case fxpDecU raw a => exact .rval fun _ => rfl
  case fxpEncU val a => exact .rdata fun _ => rfl
  case rdOffset ch => exact .rval fun _ => rfl
  case wrOffset ch val => exact .nothing fun _ => rfl
  case rdGain ch => exact .rval fun _ => rfl
  case wrGain ch val => exact .nothing fun _ => rfl
  case cfgInput ch a b c => exact .nothing fun _ => rfl
  case startMeas ch => exact .nothing fun _ => rfl
  case stopMeas ch => exact .nothing fun _ => rfl
  case isDone ch => exact .rbool fun _ => rfl
  case newData => exact .rdata fun _ => rfl
  case setRate a => exact .nothing fun _ => rfl
  case rdRate => exact .rdata fun _ => rfl
  case enRepeat a => exact .nothing fun _ => rfl
  case disRepeat => exact .nothing fun _ => rfl
  case rdRaw ch => exact .rdata fun _ => rfl
  case rdMeas ch => exact .rval fun _ => rfl
  case reset => exact .nothing fun _ => rfl
  case present => exact .rbool fun _ => rfl
  case rdId a => exact .rdata fun _ => rfl
  case reservedLow lo => exact .nothing fun _ => rfl
  case reservedHigh lo => exact .nothing fun _ => rfl
  all_goals cases hi

/-- Settles O27: on OK the value stands in its field alone, and the record of an error is all 0. -/
theorem resultFieldsNotNamedAreZero : Obligations.ResultFieldsNotNamedAreZero := by
  intro i s t r hi h hr
  obtain ⟨α, f, op, hexec, hok⟩ := returnsIn_resultField hi
  have ht : t = runReq f op s := by rw [hexec] at h; cases h; rfl
  rw [eq_resultOf_of_runReq ht hr]
  cases (op s).1 with
  | ok v => exact ⟨fun _ => hok v, fun hst => absurd rfl hst⟩
  | error e =>
    have hst : (resultOf f (.error e)).status ≠ .ok := by cases e <;> simp [resultOf]
    exact ⟨fun hok => absurd hok hst, fun _ => othersZero_of_error f e⟩

end Sys2Proof.Machine
end

section
/-! PROOFS. The statements of `40_fixed_point.md`. Each decoded value is `f64OfScaled` of a short
integer and a small negative power of two, so it is exact (`f64OfScaled_div`); each encoding is the
truncated product modulo 2^16 (`fxpEncS_eq`). -/

namespace Sys2Proof.Machine

/-! ### The op of a record -/

/-- An op selects an operation if it does so in every record in which it is written. -/
theorem reqOp_of_withOp {n : BitVec 5} {f : ReqRecord → Instr}
    (h : ∀ r : ReqRecord, decodeReq { r with op := n } = f r) : ReqOp n f := by
  intro r hop
  rw [← h r, ← hop]

/-! ### The decoded values -/

/-- `m / 2^fb` is exact while `m` has at most 53 bits and the quotient is no subnormal number. -/
theorem f64OfScaled_div {m : Int} {fb : Nat} (hm : m.natAbs < 2 ^ 53) (hfb : fb ≤ 1022) :
    f64IsFinite (f64OfScaled m (-(fb : Int))) = true
      ∧ f64Real (f64OfScaled m (-(fb : Int))) = (m : ℚ) / 2 ^ fb
      ∧ f64Neg (f64OfScaled m (-(fb : Int))) = decide (m < 0) := by
  obtain ⟨hfin, hreal, hneg, -⟩ := f64OfScaled_spec hm (e := -(fb : Int)) (by omega) (by omega)
  refine ⟨hfin, ?_, hneg⟩
  rw [hreal, zpow_neg, zpow_natCast, div_eq_mul_inv]

theorem fxpDecS_spec (raw : Word) (fb : Byte) :
    f64IsFinite (fxpDecS raw fb) = true
      ∧ f64Real (fxpDecS raw fb) = (raw.toInt : ℚ) / 2 ^ fb.toNat := by
  have hlo : -2 ^ 15 ≤ raw.toInt := raw.le_toInt
  have hhi : raw.toInt < 2 ^ 15 := raw.toInt_lt
  obtain ⟨hfin, hreal, -⟩ :=
    f64OfScaled_div (m := raw.toInt) (fb := fb.toNat) (by omega) (by have := fb.isLt; omega)
  exact ⟨hfin, hreal⟩

theorem fxpDecS_zero (fb : Byte) : fxpDecS 0 fb = 0 := f64OfScaled_zero _

theorem fxpDecU_spec (raw : Word) (fb : Byte) :
    f64IsFinite (fxpDecU raw fb) = true
      ∧ f64Real (fxpDecU raw fb) = (raw.toNat : ℚ) / 2 ^ fb.toNat
      ∧ f64Neg (fxpDecU raw fb) = false := by
  have hraw : raw.toNat < 2 ^ 16 := raw.isLt
  obtain ⟨hfin, hreal, hneg⟩ :=
    f64OfScaled_div (m := raw.toNat) (fb := fb.toNat) (by omega) (by have := fb.isLt; omega)
  rw [Int.cast_natCast] at hreal
  rw [decide_eq_false (by omega)] at hneg
  exact ⟨hfin, hreal, hneg⟩

/-- Settles O32: `fxpDecS` is the value that the operation returns. -/
theorem decodeSignedIsExact : Obligations.DecodeSignedIsExact := by
  refine ⟨reqOp_of_withOp fun _ => rfl, fun raw a s => ⟨fxpDecS raw a, ?_⟩⟩
  obtain ⟨hfin, hreal⟩ := fxpDecS_spec raw a
  exact ⟨hfin, hreal, fun h => h ▸ fxpDecS_zero a, rfl⟩

/-- Settles O33: `fxpDecU` is the value that the operation returns. -/
theorem decodeUnsignedIsExact : Obligations.DecodeUnsignedIsExact := by
  refine ⟨reqOp_of_withOp fun _ => rfl, fun raw a s => ⟨fxpDecU raw a, ?_⟩⟩
  obtain ⟨hfin, hreal, hneg⟩ := fxpDecU_spec raw a
  exact ⟨hfin, hreal, hneg, rfl⟩

/-! ### The encoded words -/

theorem fxpEncS_eq (val : F64) (fb : Byte) :
    fxpEncS val fb = BitVec.ofInt 16
      (if f64IsFinite val then truncQ (f64Real val * 2 ^ fb.toNat) else 0) := by
  rw [← f64TruncScaled_spec]
  rfl

/-- The signed and the unsigned encoding wrap to the same 16 bits. -/
theorem fxpEncU_eq_fxpEncS (val : F64) (fb : Byte) : fxpEncU val fb = fxpEncS val fb := rfl

/-- Zero extension of a wrapped integer is the integer modulo `2^n`. -/
theorem setWidth_ofInt (n w : Nat) (q : Int) :
    (BitVec.ofInt n q).setWidth w = BitVec.ofNat w (q % 2 ^ n).toNat := by
  apply BitVec.eq_of_toNat_eq
  rw [BitVec.toNat_setWidth, BitVec.toNat_ofInt, BitVec.toNat_ofNat]
  push_cast
  rfl

/-- Settles O34: both operations return the same wrapped word, zero-extended. -/
theorem encodeTruncatesAndWraps : Obligations.EncodeTruncatesAndWraps := by
  refine ⟨reqOp_of_withOp fun _ => rfl, reqOp_of_withOp fun _ => rfl, ?_⟩
  intro val a s i hi
  rw [← setWidth_ofInt 16 32, ← fxpEncS_eq]
  rcases hi with rfl | rfl
  · rfl
  · rw [← fxpEncU_eq_fxpEncS]
    rfl

/-! ### The round trip -/

/-- Multiplying by `2^fb` undoes the division, and nothing is left to truncate. -/
theorem fxpEncS_of_real_eq {x : F64} {z : Int} {fb : Byte} (hfin : f64IsFinite x = true)
    (hreal : f64Real x = (z : ℚ) / 2 ^ fb.toNat) : fxpEncS x fb = BitVec.ofInt 16 z := by
  have hz : truncQ (f64Real x * 2 ^ fb.toNat) = z := by
    rw [hreal, div_mul_cancel₀ _ (by positivity), truncQ_intCast]
  rw [fxpEncS_eq, if_pos hfin, hz]

/-- Settles O35: a word, signed or unsigned, is its number modulo 2^16. -/
theorem fixedPointRoundTrip : Obligations.FixedPointRoundTrip := by
  intro v fb
  constructor
  · obtain ⟨hfin, hreal⟩ := fxpDecS_spec v fb
    rw [fxpEncS_of_real_eq hfin hreal, BitVec.ofInt_toInt]
  · obtain ⟨hfin, hreal, -⟩ := fxpDecU_spec v fb
    rw [fxpEncU_eq_fxpEncS, fxpEncS_of_real_eq (z := v.toNat) hfin (by rw [hreal, Int.cast_natCast]),
      BitVec.ofInt_natCast, BitVec.ofNat_toNat, BitVec.setWidth_eq]

/-! ### The measurement -/

theorem meas24_bounds (m : Long) : -2 ^ 23 ≤ meas24 m ∧ meas24 m ≤ 2 ^ 23 - 1 :=
  ⟨BitVec.le_toInt _, Int.le_sub_one_of_lt (BitVec.toInt_lt)⟩

theorem dec24_spec (m : Long) :
    f64IsFinite (dec24 m) = true ∧ f64Real (dec24 m) = (meas24 m : ℚ) / 2 ^ 19 := by
  obtain ⟨hlo, hhi⟩ := meas24_bounds m
  obtain ⟨hfin, hreal, -⟩ :=
    f64OfScaled_div (m := meas24 m) (fb := Config.fbMeas) (by omega) (by decide)
  exact ⟨hfin, hreal⟩

theorem dec24_bounds (m : Long) :
    -16 ≤ f64Real (dec24 m) ∧ f64Real (dec24 m) ≤ 16 - 1 / 2 ^ 19 := by
  obtain ⟨hlo, hhi⟩ := meas24_bounds m
  have hlo' : (-2 ^ 23 : ℚ) ≤ meas24 m := by exact_mod_cast hlo
  have hhi' : (meas24 m : ℚ) ≤ 2 ^ 23 - 1 := by exact_mod_cast hhi
  rw [(dec24_spec m).2]
  constructor <;> linarith

theorem cap_spec (m : Long) (c : BitVec 5) :
    f64IsFinite (cap m c) = true
      ∧ f64Real (cap m c) = f64Real (dec24 m) + c.toNat * (25 / 8) := by
  obtain ⟨hlo, hhi⟩ := meas24_bounds m
  have hc : c.toNat < 2 ^ 5 := c.isLt
  obtain ⟨hfin, hreal, -⟩ := f64OfScaled_div (m := meas24 m + c.toNat * (25 * 2 ^ 16))
    (fb := Config.fbMeas) (by omega) (by decide)
  refine ⟨hfin, ?_⟩
  calc f64Real (cap m c)
      = ((meas24 m + c.toNat * (25 * 2 ^ 16) : Int) : ℚ) / 2 ^ 19 := hreal
    _ = (meas24 m : ℚ) / 2 ^ 19 + c.toNat * (25 / 8) := by push_cast; ring
    _ = f64Real (dec24 m) + c.toNat * (25 / 8) := by rw [(dec24_spec m).2]

/-- Settles O36: 24 bits and the capacitor's share of at most 31 * 25/8 pF both fit a significand. -/
theorem measurementDecodeIsExact : Obligations.MeasurementDecodeIsExact := by
  intro m c
  obtain ⟨hfin, hreal⟩ := dec24_spec m
  obtain ⟨hlo, hhi⟩ := dec24_bounds m
  exact ⟨hfin, hreal, hlo, hhi, cap_spec m c⟩

end Sys2Proof.Machine
end

section
/-! PROOFS. The statements of `41_register_codec.md` on how an operation of the REG unit ends (R151,
R170): its checks stand before its transactions, and a failed transaction is its last. Both are kept
by putting operations together with `opThen`, so they are proved for each operation along its
definition. -/

namespace Sys2Proof.Machine

/-! ### A failed transaction is the last -/

/-- The transactions of an operation that ended with the status `st`: all succeed, or the last one
alone fails and the status is CommError. -/
inductive EndsWith : Status → List BusEvent → Prop
  | clean {st : Status} {evs : List BusEvent} :
      st ≠ .commError → (∀ e ∈ evs, trafficOk e = true) → EndsWith st evs
  | failed {pre : List BusEvent} {e : BusEvent} :
      (∀ e ∈ pre, trafficOk e = true) → trafficOk e = false → EndsWith .commError (pre ++ [e])

theorem EndsWith.prepend {st : Status} {es evs : List BusEvent} (h : EndsWith st evs)
    (hes : ∀ e ∈ es, trafficOk e = true) : EndsWith st (es ++ evs) := by
  cases h with
  | clean hst hevs => exact .clean hst (List.forall_mem_append.2 ⟨hes, hevs⟩)
  | failed hpre he =>
    rw [← List.append_assoc]
    exact .failed (List.forall_mem_append.2 ⟨hes, hpre⟩) he

theorem EndsWith.all_ok {st : Status} {evs : List BusEvent} (h : EndsWith st evs)
    (hst : st ≠ .commError) : ∀ e ∈ evs, trafficOk e = true := by
  cases h with
  | clean _ hevs => exact hevs
  | failed _ _ => exact absurd rfl hst

theorem EndsWith.last_of_failed {st : Status} {evs pre post : List BusEvent} {e : BusEvent}
    (h : EndsWith st evs) (hevs : evs = pre ++ e :: post) (he : trafficOk e = false) :
    post = [] ∧ st = .commError := by
  cases h with
  | clean _ hok => exact absurd (hok e (by simp [hevs])) (by simp [he])
  | @failed init l hok _ =>
    refine ⟨?_, rfl⟩
    rcases List.eq_nil_or_concat post with hpost | ⟨mid, m, rfl⟩
    · exact hpost
    · have hinit : init = pre ++ e :: mid := by
        refine List.append_inj_left' (t₁ := [l]) (t₂ := [m]) ?_ rfl
        simpa using hevs
      exact absurd (hok e (by simp [hinit])) (by simp [he])

theorem EndsWith.exists_failed {evs : List BusEvent} (h : EndsWith .commError evs) :
    ∃ pre e, evs = pre ++ [e] ∧ trafficOk e = false := by
  cases h with
  | clean hst _ => exact absurd rfl hst
  | failed _ he => exact ⟨_, _, rfl, he⟩

/-- Whatever the state, the operation only makes transactions, and a failed one is its last. -/
def StopsAtFailure {α : Type} (op : RegOp α) : Prop :=
  ∀ s, ∃ evs, Reach s evs (op s).2 ∧ EndsWith (statusOf (op s).1) evs

theorem StopsAtFailure.return {α : Type} (v : α) : StopsAtFailure (opReturn v) :=
  fun s => ⟨[], .refl s, .clean (by simp) (by simp)⟩

theorem StopsAtFailure.raise {α : Type} {e : Err} (he : e ≠ .commError) :
    StopsAtFailure (opRaise e : RegOp α) := by
  refine fun s => ⟨[], .refl s, .clean ?_ (by simp)⟩
  cases e <;> simp_all

theorem StopsAtFailure.require (c : Bool) : StopsAtFailure (opRequire c) := by
  cases c
  · exact .raise (by simp)
  · exact .return ()

theorem StopsAtFailure.then {α β : Type} {x : RegOp α} {f : α → RegOp β} (hx : StopsAtFailure x)
    (hf : ∀ v, StopsAtFailure (f v)) : StopsAtFailure (opThen x f) := by
  intro s
  obtain ⟨es, hr, he⟩ := hx s
  rcases h : x s with ⟨e | v, s1⟩ <;> rw [h] at hr he
  · rw [opThen_error h]
    exact ⟨es, hr, by cases e <;> exact he⟩
  · rw [opThen_ok h]
    obtain ⟨fs, hr', he'⟩ := hf v s1
    exact ⟨es ++ fs, hr.trans hr', he'.prepend (he.all_ok (by simp))⟩

theorem StopsAtFailure.memRead (reg : Byte) : StopsAtFailure (opMemRead reg) := by
  intro s
  have hr : Reach s [.read s.params.devAddr reg 2 (busRead reg s).1] (busRead reg s).2 :=
    .read reg (.refl _)
  rcases h : busRead reg s with ⟨_ | ⟨b0, b1⟩, s1⟩ <;> rw [h] at hr
  · rw [opMemRead_none h]
    exact ⟨_, hr, .failed (pre := []) (by simp) rfl⟩
  · rw [opMemRead_some h]
    exact ⟨_, hr, .clean (by simp) (by simp [trafficOk])⟩

theorem StopsAtFailure.memWrite (reg : Byte) (w : Word) : StopsAtFailure (opMemWrite reg w) := by
  intro s
  have hr : Reach s [.write s.params.devAddr reg (hiByte w) (loByte w)
      (busWrite reg (hiByte w) (loByte w) s).1] (busWrite reg (hiByte w) (loByte w) s).2 :=
    .write reg _ _ (.refl _)
  rcases h : busWrite reg (hiByte w) (loByte w) s with ⟨_ | _, s1⟩ <;> rw [h] at hr
  · rw [opMemWrite_false h]
    exact ⟨_, hr, .failed (pre := []) (by simp) rfl⟩
  · rw [opMemWrite_true h]
    exact ⟨_, hr, .clean (by simp) (by simp [trafficOk])⟩

theorem StopsAtFailure.probe : StopsAtFailure opProbe :=
  fun s => ⟨_, .probe (.refl _), .clean (by simp) (by simp [trafficOk])⟩

/-! ### The checks stand before the transactions -/

/-- The operation never ends with ConfigError. -/
def NoConfigError {α : Type} (op : RegOp α) : Prop := ∀ s, (op s).1 ≠ .error .configError

/-- An operation that ends with ConfigError has left the state as it was. -/
def ChecksFirst {α : Type} (op : RegOp α) : Prop :=
  ∀ s, (op s).1 = .error .configError → (op s).2 = s

theorem NoConfigError.checksFirst {α : Type} {op : RegOp α} (h : NoConfigError op) :
    ChecksFirst op :=
  fun s hs => absurd hs (h s)

theorem NoConfigError.then {α β : Type} {x : RegOp α} {f : α → RegOp β} (hx : NoConfigError x)
    (hf : ∀ v, NoConfigError (f v)) : NoConfigError (opThen x f) := by
  intro s
  have hxs := hx s
  rcases h : x s with ⟨e | v, s1⟩
  · rw [h] at hxs
    rw [opThen_error h]
    cases e <;> simp_all
  · rw [opThen_ok h]
    exact hf v s1

/-- After something that checks first, what follows may not check again. -/
theorem ChecksFirst.then {α β : Type} {x : RegOp α} {f : α → RegOp β} (hx : ChecksFirst x)
    (hf : ∀ v, NoConfigError (f v)) : ChecksFirst (opThen x f) := by
  intro s hs
  have hxs := hx s
  rcases h : x s with ⟨e | v, s1⟩ <;> rw [h] at hxs
  · rw [opThen_error h] at hs ⊢
    cases e <;> simp_all
  · rw [opThen_ok h] at hs
    exact absurd hs (hf v s1)

/-- A check may stand before anything that checks first. -/
theorem ChecksFirst.afterCheck {β : Type} {c : Bool} {f : Unit → RegOp β}
    (hf : ChecksFirst (f ())) : ChecksFirst (opThen (opRequire c) f) := by
  intro s hs
  cases c
  · rfl
  · exact hf s hs

theorem NoConfigError.return {α : Type} (v : α) : NoConfigError (opReturn v) := fun _ => by simp

theorem NoConfigError.memRead (reg : Byte) : NoConfigError (opMemRead reg) := by
  intro s
  unfold opMemRead
  split <;> simp

theorem NoConfigError.memWrite (reg : Byte) (w : Word) : NoConfigError (opMemWrite reg w) := by
  intro s
  unfold opMemWrite
  split <;> simp

/-! ### Each operation -/

/-- How every operation of the REG unit ends (R151, R170). -/
structure EndsProperly {α : Type} (op : RegOp α) : Prop where
  stops : StopsAtFailure op
  first : ChecksFirst op

/-- The same of an operation without checks. -/
structure Unchecked {α : Type} (op : RegOp α) : Prop where
  stops : StopsAtFailure op
  never : NoConfigError op

theorem Unchecked.endsProperly {α : Type} {op : RegOp α} (h : Unchecked op) : EndsProperly op :=
  ⟨h.stops, h.never.checksFirst⟩

theorem Unchecked.return {α : Type} (v : α) : Unchecked (opReturn v) := ⟨.return v, .return v⟩

theorem Unchecked.memRead (reg : Byte) : Unchecked (opMemRead reg) := ⟨.memRead reg, .memRead reg⟩

theorem Unchecked.memWrite (reg : Byte) (w : Word) : Unchecked (opMemWrite reg w) :=
  ⟨.memWrite reg w, .memWrite reg w⟩

theorem Unchecked.then {α β : Type} {x : RegOp α} {f : α → RegOp β} (hx : Unchecked x)
    (hf : ∀ v, Unchecked (f v)) : Unchecked (opThen x f) :=
  ⟨hx.stops.then fun v => (hf v).stops, hx.never.then fun v => (hf v).never⟩

theorem Unchecked.rmw (reg : Byte) (g : Word → Word) : Unchecked (opRmw reg g) :=
  .then (.memRead reg) fun w => .memWrite reg (g w)

/-- One read, and a value computed from the word. -/
theorem Unchecked.readValue {α : Type} (reg : Byte) (g : Word → α) :
    Unchecked (opThen (opMemRead reg) fun w => opReturn (g w)) :=
  .then (.memRead reg) fun w => .return (g w)

theorem Unchecked.probe : Unchecked opProbe := ⟨.probe, fun _ => by simp⟩

theorem unchecked_pollReset (n : Nat) : Unchecked (opPollReset n) := by
  induction n with
  | zero => exact ⟨.raise (by simp), fun _ => by simp [opPollReset]⟩
  | succ n ih =>
    refine .then (.memRead regFdcConf) fun w => ?_
    split
    · exact ih
    · exact .return ()

theorem unchecked_reset : Unchecked opReset :=
  .then (.rmw regFdcConf setRst) fun _ =>
    ⟨fun s => (unchecked_pollReset s.params.resetPollLimit).stops s,
      fun s => (unchecked_pollReset s.params.resetPollLimit).never s⟩

theorem EndsProperly.then {α β : Type} {x : RegOp α} {f : α → RegOp β} (hx : EndsProperly x)
    (hf : ∀ v, Unchecked (f v)) : EndsProperly (opThen x f) :=
  ⟨hx.stops.then fun v => (hf v).stops, hx.first.then fun v => (hf v).never⟩

theorem EndsProperly.check {β : Type} {c : Bool} {f : Unit → RegOp β}
    (hf : EndsProperly (f ())) : EndsProperly (opThen (opRequire c) f) :=
  ⟨(StopsAtFailure.require c).then fun _ => hf.stops, .afterCheck hf.first⟩

theorem EndsProperly.raiseConfigError {α : Type} :
    EndsProperly (opRaise .configError : RegOp α) :=
  ⟨.raise (by simp), fun _ _ => rfl⟩

theorem endsProperly_cfgInput (ch pos neg capdac : Byte) :
    EndsProperly (opCfgInput ch pos neg capdac) :=
  .check <| .check <| .check <| .check <| .check (Unchecked.rmw _ _).endsProperly

theorem endsProperly_enRepeat (m : Byte) : EndsProperly (opEnRepeat m) :=
  .check <| Unchecked.endsProperly <| .then (.memRead _) fun _ =>
    .then (.memWrite _ _) fun _ => .memWrite _ _

theorem endsProperly_rdRaw (ch : Byte) : EndsProperly (opRdRaw ch) :=
  .check <| Unchecked.endsProperly <| .then (.memRead _) fun _ => .readValue _ _

/-- RD_MEAS checks its channel twice, both times before its first read. -/
theorem endsProperly_rdMeas (ch : Byte) : EndsProperly (opRdMeas ch) :=
  .check <| .then (endsProperly_rdRaw ch) fun _ => .readValue _ _

/-- `i` answers its request with the outcome of an operation that ends properly. -/
def RunsProperly (i : Instr) : Prop :=
  ∃ (α : Type) (f : α → Long × F64 × Bool) (op : RegOp α),
    (∀ s, exec i s = .next (runReq f op s)) ∧ EndsProperly op

theorem RunsProperly.of {α : Type} {i : Instr} {f : α → Long × F64 × Bool} {op : RegOp α}
    (h : EndsProperly op) (hexec : ∀ s, exec i s = .next (runReq f op s)) : RunsProperly i :=
  ⟨α, f, op, hexec, h⟩

theorem runsProperly_of_isReq {i : Instr} (hi : isReq i = true) : RunsProperly i := by
  cases i
  case fxpDecS raw a => exact .of (Unchecked.return _).endsProperly fun _ => rfl
  case fxpEncS val a => exact .of (Unchecked.return _).endsProperly fun _ => rfl
  case fxpDecU raw a => exact .of (Unchecked.return _).endsProperly fun _ => rfl
  case fxpEncU val a => exact .of (Unchecked.return _).endsProperly fun _ => rfl
  case rdOffset ch => exact .of (.check (Unchecked.readValue _ _).endsProperly) fun _ => rfl
  case wrOffset ch val =>
    exact .of (.check (.check (Unchecked.memWrite _ _).endsProperly)) fun _ => rfl
  case rdGain ch => exact .of (.check (Unchecked.readValue _ _).endsProperly) fun _ => rfl
  case wrGain ch val =>
    exact .of (.check (.check (Unchecked.memWrite _ _).endsProperly)) fun _ => rfl
  case cfgInput ch a b c => exact .of (endsProperly_cfgInput ch a b c) fun _ => rfl
  case startMeas ch => exact .of (.check (Unchecked.rmw _ _).endsProperly) fun _ => rfl
  case stopMeas ch => exact .of (.check (Unchecked.rmw _ _).endsProperly) fun _ => rfl
  case isDone ch => exact .of (.check (Unchecked.readValue _ _).endsProperly) fun _ => rfl
  case newData => exact .of (Unchecked.readValue _ _).endsProperly fun _ => rfl
  case setRate a => exact .of (.check (Unchecked.rmw _ _).endsProperly) fun _ => rfl
  case rdRate => exact .of (Unchecked.readValue _ _).endsProperly fun _ => rfl
  case enRepeat a => exact .of (endsProperly_enRepeat a) fun _ => rfl
  case disRepeat => exact .of (Unchecked.rmw _ _).endsProperly fun _ => rfl
  case rdRaw ch => exact .of (endsProperly_rdRaw ch) fun _ => rfl
  case rdMeas ch => exact .of (endsProperly_rdMeas ch) fun _ => rfl
  case reset => exact .of unchecked_reset.endsProperly fun _ => rfl
  case present => exact .of Unchecked.probe.endsProperly fun _ => rfl
  case rdId a => exact .of (.check (Unchecked.memRead _).endsProperly) fun _ => rfl
  case reservedLow lo => exact .of .raiseConfigError fun _ => rfl
  case reservedHigh lo => exact .of .raiseConfigError fun _ => rfl
  all_goals cases hi

/-! ### The two statements -/

theorem resultOf_status {α : Type} (f : α → Long × F64 × Bool) (r : Except Err α) :
    (resultOf f r).status = statusOf r := by
  cases r <;> rfl

theorem eq_error_of_statusOf_configError {α : Type} {r : Except Err α}
    (h : statusOf r = .configError) : r = .error .configError := by
  rcases r with (_ | _ | _) | v <;> first | rfl | cases h

/-- The record a REQ operation added carries the status of an operation that ends properly. -/
theorem exists_op_of_exec {i : Instr} {s t : State} {r : ReqResult} (hi : isReq i = true)
    (h : exec i s = .next t) (hr : t.results = s.results ++ [r]) :
    ∃ (α : Type) (op : RegOp α), EndsProperly op ∧ t = respond r (op s).2
      ∧ r.status = statusOf (op s).1 := by
  obtain ⟨α, f, op, hexec, hop⟩ := runsProperly_of_isReq hi
  have ht : t = runReq f op s := by rw [hexec] at h; cases h; rfl
  have hres := eq_resultOf_of_runReq ht hr
  exact ⟨α, op, hop, by rw [ht, hres]; exact runReq_eq rfl, by rw [hres, resultOf_status]⟩

/-- Settles O26: an operation that ends with ConfigError has run only its checks, and what is
left is the result record. -/
theorem configErrorTouchesNothing : Obligations.ConfigErrorTouchesNothing := by
  intro i s t r hi h hr hst
  obtain ⟨α, op, hop, rfl, hstatus⟩ := exists_op_of_exec hi h hr
  have herr : (op s).1 = .error .configError :=
    eq_error_of_statusOf_configError (hstatus.symm.trans hst)
  rw [hop.first s herr]
  rfl

/-- Settles O29: the operation's transactions end with its status as `EndsWith` says. -/
theorem failedTransactionEndsTheOperation : Obligations.FailedTransactionEndsTheOperation := by
  intro i s t r hi h hr
  obtain ⟨α, op, hop, rfl, hstatus⟩ := exists_op_of_exec hi h hr
  obtain ⟨evs, hreach, hends⟩ := hop.stops s
  rw [← hstatus] at hends
  refine ⟨evs, hreach.bus, fun pre e post hevs he => hends.last_of_failed hevs he, fun hc => ?_⟩
  rw [hc] at hends
  exact hends.exists_failed

end Sys2Proof.Machine
end

section
/-! PROOFS. What the register codec computes, in the words of the statements: bits and fields of the
two configuration registers (`30_encoding.md` R120 to R125), the raw measurement word, and the
domains of the calibration values. -/

namespace Sys2Proof.Machine

/-! ### Fields -/

theorem toNat_extractLsb'_eq_field (w : Word) (lo n : Nat) :
    (w.extractLsb' lo (n + 1)).toNat = field w (lo + n) lo := by
  rw [BitVec.extractLsb'_toNat, Nat.shiftRight_eq_div_pow, field, Nat.add_sub_cancel_left]

theorem toNat_doneMask (w : Word) : (doneMask w).toNat = field w 3 0 :=
  toNat_extractLsb'_eq_field w 0 3

theorem toNat_rateField (w : Word) : (rateField w).toNat = field w 11 10 :=
  toNat_extractLsb'_eq_field w 10 1

theorem toNat_confCapdac (w : Word) : (confCapdac w).toNat = field w 9 5 :=
  toNat_extractLsb'_eq_field w 5 4

/-! ### Single bits of FDC_CONF -/

theorem bitBecomes_or_twoPow (k : Nat) (w : Word) :
    bitBecomes k true w (w ||| BitVec.twoPow 16 k) := by
  intro j hj
  by_cases h : j = k
  · subst h; simp [hj]
  · simp [h, Ne.symm h]

theorem bitBecomes_and_not_twoPow (k : Nat) (w : Word) :
    bitBecomes k false w (w &&& ~~~(BitVec.twoPow 16 k)) := by
  intro j hj
  by_cases h : j = k
  · subst h; simp [hj]
  · simp [h, hj]

theorem initMask_eq_twoPow (ch : Byte) : initMask ch = BitVec.twoPow 16 (7 - ch.toNat) :=
  (BitVec.twoPow_eq 16 _).symm

theorem bitBecomes_setInit (ch : Byte) (w : Word) :
    bitBecomes (7 - ch.toNat) true w (setInit w ch) := by
  rw [setInit, initMask_eq_twoPow]
  exact bitBecomes_or_twoPow _ w

theorem bitBecomes_clrInit (ch : Byte) (w : Word) :
    bitBecomes (7 - ch.toNat) false w (clrInit w ch) := by
  rw [clrInit, initMask_eq_twoPow]
  exact bitBecomes_and_not_twoPow _ w

theorem bitBecomes_setRst (w : Word) : bitBecomes 15 true w (setRst w) := bitBecomes_or_twoPow 15 w

theorem bitBecomes_clrRepeat (w : Word) : bitBecomes 8 false w (clrRepeat w) :=
  bitBecomes_and_not_twoPow 8 w

/-! ### The rate field -/

/-- `setRateField` puts its rate between the other bits of the word. -/
theorem setRateField_eq_append (w : Word) (r : BitVec 2) :
    setRateField w r = w.extractLsb' 12 4 ++ r ++ w.extractLsb' 0 10 := by
  apply BitVec.eq_of_getLsbD_eq
  intro j hj
  simp only [setRateField, BitVec.getLsbD_append]
  interval_cases j <;> simp

theorem rateField_setRateField (w : Word) (r : BitVec 2) : rateField (setRateField w r) = r := by
  apply BitVec.eq_of_getLsbD_eq
  intro j hj
  rw [rateField, BitVec.getLsbD_extractLsb', setRateField_eq_append, BitVec.getLsbD_append,
    BitVec.getLsbD_append]
  simp [hj]

theorem setRateField_getLsbD_of_ne {w : Word} {r : BitVec 2} {j : Nat} (hj : j < 16) (h0 : j ≠ 10)
    (h1 : j ≠ 11) : (setRateField w r).getLsbD j = w.getLsbD j := by
  rw [setRateField_eq_append, BitVec.getLsbD_append, BitVec.getLsbD_append]
  interval_cases j <;> simp_all

theorem rateBecomes_setRateField (r : BitVec 2) (w : Word) :
    rateBecomes r.toNat w (setRateField w r) := by
  refine ⟨?_, fun j hj h0 h1 => setRateField_getLsbD_of_ne hj h0 h1⟩
  rw [← toNat_rateField, rateField_setRateField]

/-! ### CONF_MEAS -/

/-- `packConf` puts its fields side by side, a 0 at bit 4, and the four low bits as they were. -/
theorem packConf_eq_append (w : Word) (pos neg : BitVec 3) (capdac : BitVec 5) :
    packConf w pos neg capdac = pos ++ neg ++ capdac ++ 0#1 ++ w.extractLsb' 0 4 := by
  apply BitVec.eq_of_getLsbD_eq
  intro j hj
  simp only [packConf, BitVec.getLsbD_append]
  interval_cases j <;> simp 

theorem toNat_append_eq_add {m n : Nat} (x : BitVec m) (y : BitVec n) :
    (x ++ y).toNat = x.toNat * 2 ^ n + y.toNat := by
  rw [BitVec.toNat_append, ← Nat.shiftLeft_add_eq_or_of_lt y.isLt, Nat.shiftLeft_eq]

theorem toNat_packConf (w : Word) (pos neg : BitVec 3) (capdac : BitVec 5) :
    (packConf w pos neg capdac).toNat
      = pos.toNat * 2 ^ 13 + neg.toNat * 2 ^ 10 + capdac.toNat * 2 ^ 5 + w.toNat % 2 ^ 4 := by
  simp only [packConf_eq_append, toNat_append_eq_add, BitVec.extractLsb'_toNat, BitVec.toNat_ofNat,
    Nat.shiftRight_zero]
  ring

theorem packConf_getLsbD_four (w : Word) (pos neg : BitVec 3) (capdac : BitVec 5) :
    (packConf w pos neg capdac).getLsbD 4 = false := by
  rw [packConf_eq_append, BitVec.getLsbD_append, BitVec.getLsbD_append]
  simp

theorem confBecomes_packConf (pos neg : BitVec 3) (capdac : BitVec 5) (w : Word) :
    confBecomes pos.toNat neg.toNat capdac.toNat w (packConf w pos neg capdac) := by
  have hpos := pos.isLt
  have hneg := neg.isLt
  have hcap := capdac.isLt
  refine ⟨?_, ?_, ?_, packConf_getLsbD_four w pos neg capdac, ?_⟩ <;>
    simp only [field, toNat_packConf] <;> omega

/-! ### The repeat words -/

theorem initBits_getLsbD : ∀ j < 16, (0xFF0F : Word).getLsbD j = !decide (4 ≤ j ∧ j ≤ 7) := by
  decide

theorem clrAllInit_getLsbD {w : Word} {j : Nat} (hj : j < 16) :
    (clrAllInit w).getLsbD j = if 4 ≤ j ∧ j ≤ 7 then false else w.getLsbD j := by
  rw [clrAllInit, BitVec.getLsbD_and, initBits_getLsbD j hj]
  by_cases h : 4 ≤ j ∧ j ≤ 7 <;> simp [h]

theorem maskBit_getLsbD (m i : Byte) (j : Nat) :
    (maskBit m i).getLsbD j = (decide (j = 7 - i.toNat) && m.getLsbD i.toNat) := by
  unfold maskBit
  split
  · next h => simp [h, initMask_eq_twoPow, eq_comm]; omega
  · next h => simp [h]

/-- Mask bit `i` becomes bit `7 - i` (R125). -/
theorem maskToInit_getLsbD (m : Byte) (j : Nat) :
    (maskToInit m).getLsbD j = if 4 ≤ j ∧ j ≤ 7 then m.getLsbD (7 - j) else false := by
  simp only [maskToInit, BitVec.getLsbD_or, maskBit_getLsbD]
  split
  · next h =>
    obtain ⟨h4, h7⟩ := h
    interval_cases j <;> simp
  · next h => simp; omega

theorem setRepeat_getLsbD {w : Word} {j : Nat} (hj : j < 16) :
    (setRepeat w).getLsbD j = if j = 8 then true else w.getLsbD j :=
  bitBecomes_or_twoPow 8 w j hj

theorem repeatWord_getLsbD (w : Word) (m : Byte) {j : Nat} (hj : j < 16) :
    (setRepeat (clrAllInit w) ||| maskToInit m).getLsbD j =
      if 4 ≤ j ∧ j ≤ 7 then m.getLsbD (7 - j) else if j = 8 then true else w.getLsbD j := by
  rw [BitVec.getLsbD_or, setRepeat_getLsbD hj, clrAllInit_getLsbD hj, maskToInit_getLsbD]
  by_cases h : 4 ≤ j ∧ j ≤ 7
  · simp [h]; omega
  · simp [h]

/-! ### The measurement word -/

theorem toNat_rawMeasurement (hi lo : Word) :
    ((hi ++ lo) &&& (0xFFFFFF00 : Long)).toNat = hi.toNat * 2 ^ 16 + field lo 15 8 * 2 ^ 8 := by
  have hmask : (0xFFFFFF00 : Long) = BitVec.allOnes 32 <<< 8 := by decide
  rw [hmask, ← BitVec.shiftLeft_ushiftRight, BitVec.toNat_shiftLeft, BitVec.toNat_ushiftRight,
    toNat_append_eq_add, Nat.shiftLeft_eq, Nat.shiftRight_eq_div_pow, field]
  omega

theorem rawMeasurement_extractLsb' (hi lo : Word) :
    ((hi ++ lo) &&& (0xFFFFFF00 : Long)).extractLsb' 8 24
      = BitVec.ofNat 24 (hi.toNat * 2 ^ 8 + field lo 15 8) := by
  apply BitVec.eq_of_toNat_eq
  rw [BitVec.extractLsb'_toNat, toNat_rawMeasurement, BitVec.toNat_ofNat, Nat.shiftRight_eq_div_pow]
  omega

/-! ### The domains of the calibration values -/

/-- Between two finite values, as IEEE compares, are only finite values, and the order is that of
the exact values. -/
theorem f64_between_iff {lo hi x : F64} (hlo : f64IsFinite lo = true)
    (hhi : f64IsFinite hi = true) :
    (f64Le lo x && f64Lt x hi) = true
      ↔ f64IsFinite x = true ∧ f64Real lo ≤ f64Real x ∧ f64Real x < f64Real hi := by
  cases hx : f64IsFinite x with
  | true =>
    rw [Bool.and_eq_true, (f64_compare_finite hlo hx).1, (f64_compare_finite hx hhi).2]
    simp
  | false =>
    cases hn : f64IsNaN x with
    | true => simp [f64Le_eq_false_of_isNaN (.inr hn)]
    | false =>
      obtain ⟨-, -, -, hle⟩ := f64_compare_infinite hx hn hlo
      obtain ⟨hlt, -, -, -⟩ := f64_compare_infinite hx hn hhi
      simp [hle, hlt]

theorem f64Real_neg16 : f64Real f64Neg16 = -16 := by
  have hsig : f64Sig f64Neg16 = -2 ^ 52 := by decide
  have hscale : f64Scale f64Neg16 = -48 := by decide
  rw [f64Real, hsig, hscale]
  norm_num

theorem f64Real_pos16 : f64Real f64Pos16 = 16 := by
  have hsig : f64Sig f64Pos16 = 2 ^ 52 := by decide
  have hscale : f64Scale f64Pos16 = -48 := by decide
  rw [f64Real, hsig, hscale]
  norm_num

theorem f64Real_zero : f64Real f64Zero = 0 := by
  have hsig : f64Sig f64Zero = 0 := by decide
  rw [f64Real, hsig, Int.cast_zero, zero_mul]

theorem f64Real_pos4 : f64Real f64Pos4 = 4 := by
  have hsig : f64Sig f64Pos4 = 2 ^ 52 := by decide
  have hscale : f64Scale f64Pos4 = -50 := by decide
  rw [f64Real, hsig, hscale]
  norm_num

theorem offsetInDomain_iff (val : F64) : offsetInDomain val = true
    ↔ f64IsFinite val = true ∧ -16 ≤ f64Real val ∧ f64Real val < 16 := by
  rw [offsetInDomain, f64_between_iff (by decide) (by decide), f64Real_neg16, f64Real_pos16]

theorem gainInDomain_iff (val : F64) : gainInDomain val = true
    ↔ f64IsFinite val = true ∧ 0 ≤ f64Real val ∧ f64Real val < 4 := by
  rw [gainInDomain, f64_between_iff (by decide) (by decide), f64Real_zero, f64Real_pos4]

/-- Rounding toward zero does not leave an interval of integers that holds 0. -/
theorem truncQ_mem {q : ℚ} {lo hi : Int} (hlo : lo ≤ 0) (hhi : 0 < hi) (h1 : (lo : ℚ) ≤ q)
    (h2 : q < hi) : lo ≤ truncQ q ∧ truncQ q < hi := by
  unfold truncQ
  split
  · next h => exact ⟨hlo.trans (Int.floor_nonneg.2 h), Int.floor_lt.2 h2⟩
  · next h =>
    have hceil : ⌈q⌉ ≤ 0 := Int.ceil_le.2 (by push_cast; linarith)
    exact ⟨Int.cast_le.1 (h1.trans (Int.le_ceil q)), hceil.trans_lt hhi⟩

/-- A value of the offset's domain is written without wrapping. -/
theorem toInt_fxpEncS_of_inDomain {val : F64} (h : offsetInDomain val = true) :
    (fxpEncS val Config.fbOffset).toInt = truncQ (f64Real val * 2 ^ 11) := by
  obtain ⟨hfin, h1, h2⟩ := (offsetInDomain_iff val).1 h
  obtain ⟨hlo, hhi⟩ := truncQ_mem (q := f64Real val * 2 ^ 11) (lo := -2 ^ 15) (hi := 2 ^ 15)
    (by norm_num) (by norm_num) (by push_cast; linarith) (by push_cast; linarith)
  rw [fxpEncS_eq, if_pos hfin]
  exact BitVec.toInt_ofInt_eq_self (by decide) hlo hhi

/-- A value of the gain's domain is written without wrapping. -/
theorem toNat_fxpEncU_of_inDomain {val : F64} (h : gainInDomain val = true) :
    ((fxpEncU val Config.fbGain).toNat : Int) = truncQ (f64Real val * 2 ^ 14) := by
  obtain ⟨hfin, h1, h2⟩ := (gainInDomain_iff val).1 h
  obtain ⟨hlo, hhi⟩ := truncQ_mem (q := f64Real val * 2 ^ 14) (lo := 0) (hi := 2 ^ 16)
    le_rfl (by norm_num) (by push_cast; linarith) (by push_cast; linarith)
  rw [fxpEncU_eq_fxpEncS, fxpEncS_eq, if_pos hfin, BitVec.toNat_ofInt]
  change ((truncQ (f64Real val * 2 ^ 14) % 2 ^ 16).toNat : Int) = _
  omega

/-- Every offset word decodes to a value of the offset's domain (R152). -/
theorem offsetInDomain_fxpDecS (w : Word) : offsetInDomain (fxpDecS w Config.fbOffset) = true := by
  obtain ⟨hfin, hreal⟩ := fxpDecS_spec w Config.fbOffset
  have hlo : (-2 ^ 15 : ℚ) ≤ w.toInt := by exact_mod_cast w.le_toInt
  have hhi : (w.toInt : ℚ) < 2 ^ 15 := by exact_mod_cast w.toInt_lt
  have hfb : Config.fbOffset.toNat = 11 := rfl
  rw [hfb] at hreal
  rw [offsetInDomain_iff, hreal]
  exact ⟨hfin, by linarith, by linarith⟩

/-- Every gain word decodes to a value of the gain's domain (R154). -/
theorem gainInDomain_fxpDecU (w : Word) : gainInDomain (fxpDecU w Config.fbGain) = true := by
  obtain ⟨hfin, hreal, -⟩ := fxpDecU_spec w Config.fbGain
  have hlo : (0 : ℚ) ≤ w.toNat := by positivity
  have hhi : (w.toNat : ℚ) < 2 ^ 16 := by exact_mod_cast w.isLt
  have hfb : Config.fbGain.toNat = 14 := rfl
  rw [hfb] at hreal
  rw [gainInDomain_iff, hreal]
  exact ⟨hfin, by linarith, by linarith⟩

end Sys2Proof.Machine
end

section
/-! PROOFS. The statements of `41_register_codec.md` on the result of each operation (R152 to R169).
An operation's definition is its checks, then its transactions; once the checks are settled, the
rules below give its outcome for every answer of the device. -/

namespace Sys2Proof.Machine

/-! ### Reads, for every answer of the device -/

/-- The first read of a list: on success the rest are read, on failure none. -/
theorem afterReads_cons {r : Byte} {rs : List Byte} {s : State} {k : List Word → State → Prop}
    {f : State → Prop}
    (hok : ∀ w t, opMemRead r s = (.ok w, t) → AfterReads rs t (fun ws => k (w :: ws)) f)
    (herr : ∀ t, opMemRead r s = (.error .commError, t) → f t) : AfterReads (r :: rs) s k f := by
  rw [AfterReads]
  split
  · next hr => exact hok _ _ (opMemRead_some hr)
  · next hr => exact herr _ (opMemRead_none hr)

/-- The only read of a list. -/
theorem afterReads_one {r : Byte} {s : State} {k : List Word → State → Prop} {f : State → Prop}
    (hok : ∀ w t, opMemRead r s = (.ok w, t) → k [w] t)
    (herr : ∀ t, opMemRead r s = (.error .commError, t) → f t) : AfterReads [r] s k f :=
  afterReads_cons hok herr

/-- Reads that go on after reads. -/
theorem afterReads_append {rs qs : List Byte} {s : State} {k : List Word → State → Prop}
    {f : State → Prop} :
    AfterReads (rs ++ qs) s k f
      ↔ AfterReads rs s (fun ws t => AfterReads qs t (fun vs => k (ws ++ vs)) f) f := by
  induction rs generalizing s k with
  | nil => rfl
  | cons r rs ih =>
    rw [List.cons_append, AfterReads, AfterReads]
    split
    · exact ih
    · rfl

theorem AfterReads.mono {rs : List Byte} {s : State} {k k' : List Word → State → Prop}
    {f f' : State → Prop} (h : AfterReads rs s k f) (hk : ∀ ws t, k ws t → k' ws t)
    (hf : ∀ t, f t → f' t) : AfterReads rs s k' f' := by
  induction rs generalizing s k k' with
  | nil => exact hk _ _ h
  | cons r rs ih =>
    rw [AfterReads] at h ⊢
    split
    · next hr => rw [hr] at h; exact ih h fun ws t => hk _ t
    · next hr => rw [hr] at h; exact hf _ h

/-! ### Outcomes and their records -/

/-- The record of an operation that ended with an error. -/
theorem runReq_error {α : Type} {f : α → Long × F64 × Bool} {op : RegOp α} {s t : State} {e : Err}
    (h : op s = (.error e, t)) :
    runReq f op s = respond (plainResult (statusOf (.error e : Except Err α))) t :=
  runReq_eq h

theorem runReq_asReal {op : RegOp F64} {s t : State} {x : F64} (h : op s = (.ok x, t)) :
    runReq asReal op s = respond { status := .ok, rdata := 0, rval := x, rbool := false } t :=
  runReq_eq h

theorem runReq_asBool {op : RegOp Bool} {s t : State} {b : Bool} (h : op s = (.ok b, t)) :
    runReq asBool op s = respond { status := .ok, rdata := 0, rval := 0, rbool := b } t :=
  runReq_eq h

theorem runReq_asData {n d : Nat} {op : RegOp (BitVec n)} {s t : State} {v : BitVec n}
    (h : op s = (.ok v, t)) (hv : v.toNat = d) :
    runReq asData op s
      = respond { status := .ok, rdata := BitVec.ofNat 32 d, rval := 0, rbool := false } t := by
  rw [runReq_eq h, ← hv, BitVec.ofNat_toNat]
  rfl

/-- An operation without a value answers with its status alone. -/
theorem runReq_asNothing {op : RegOp Unit} {s t : State} {x : Except Err Unit} (h : op s = (x, t)) :
    runReq asNothing op s = respond (plainResult (statusOf x)) t := by
  rw [runReq_eq h, resultOf_nothing]

/-- What is done only after OK, and what after an error. -/
theorem ite_statusOf_ok {x : Except Err Unit} {P : Prop} {Q : Status → Prop}
    (hok : x = .ok () → P) (herr : ∀ e, x = .error e → Q (statusOf x)) :
    if statusOf x = .ok then P else Q (statusOf x) := by
  rcases x with e | ⟨⟩
  · rw [if_neg (by cases e <;> simp)]
    exact herr e rfl
  · exact hok rfl

/-- A request whose operation comes down to one RMW. -/
theorem afterRmw_request {i : Instr} {op : RegOp Unit} {r : Byte} {f : Word → Word → Prop}
    {g : Word → Word} {s : State} (hexec : exec i s = .next (runReq asNothing op s))
    (hop : op s = opRmw r g s) (hf : ∀ w, f w (g w)) :
    AfterRmw r f s (fun st t => exec i s = .next (respond (plainResult st) t)) :=
  afterRmw_intro hf fun x t hx => by rw [hexec, runReq_asNothing (hop.trans hx)]

/-- A request whose operation comes down to one Write, or has one left to do. -/
theorem afterWrite_request {i : Instr} {op : RegOp Unit} {r : Byte} {w : Word} {s s1 : State}
    (hexec : exec i s = .next (runReq asNothing op s)) (hop : op s = opMemWrite r w s1) :
    AfterWrite r w s1 (fun st t => exec i s = .next (respond (plainResult st) t)) :=
  afterWrite_intro fun x t hx => by rw [hexec, runReq_asNothing (hop.trans hx)]

/-! ### Checks -/

theorem opThen_require {β : Type} {c : Bool} (h : c = true) (f : Unit → RegOp β) (s : State) :
    opThen (opRequire c) f s = f () s := by
  rw [h, opThen_require_true]

theorem opThen_require_fails {β : Type} {c : Bool} (h : ¬ c = true) (f : Unit → RegOp β)
    (s : State) : opThen (opRequire c) f s = (.error .configError, s) := by
  rw [Bool.eq_false_iff.2 h, opThen_require_false]

/-- Two checks in a row are the one check that both hold. -/
theorem opThen_require_require {β : Type} (c d : Bool) (f : Unit → RegOp β) :
    opThen (opRequire c) (fun _ => opThen (opRequire d) f) = opThen (opRequire (c && d)) f := by
  cases c <;> rfl

theorem channelOk_iff (ch : Byte) : channelOk ch = true ↔ ch ≤ 3 := decide_eq_true_iff

theorem channelOk_and_iff (ch : Byte) (c : Bool) :
    (channelOk ch && c) = true ↔ ch ≤ 3 ∧ c = true := by
  rw [Bool.and_eq_true, channelOk_iff]

/-- A legal channel passes the check (R150). -/
theorem opThen_checkChannel {β : Type} {ch : Byte} (h : ch ≤ 3) (f : Unit → RegOp β) (s : State) :
    opThen (opCheckChannel ch) f s = f () s :=
  opThen_require ((channelOk_iff ch).2 h) f s

/-- A channel above 3 ends the operation at once (R150, R151). -/
theorem opThen_checkChannel_fails {β : Type} {ch : Byte} (h : 3 < ch) (f : Unit → RegOp β)
    (s : State) : opThen (opCheckChannel ch) f s = (.error .configError, s) :=
  opThen_require_fails (fun hok => BitVec.not_le.2 h ((channelOk_iff ch).1 hok)) f s

/-! ### Calibration reads -/

theorem opRdOffset_of_channel {ch : Byte} (h : ch ≤ 3) (s : State) : opRdOffset ch s
    = opThen (opMemRead (regOffsetCal ch)) (fun w => opReturn (fxpDecS w Config.fbOffset)) s :=
  opThen_checkChannel h _ s

theorem opRdGain_of_channel {ch : Byte} (h : ch ≤ 3) (s : State) : opRdGain ch s
    = opThen (opMemRead (regGainCal ch)) (fun w => opReturn (fxpDecU w Config.fbGain)) s :=
  opThen_checkChannel h _ s

/-- Settles O38: the check, the read, and the decoded value with its range. -/
theorem calibrationReadsResult : Obligations.CalibrationReadsResult := by
  refine ⟨reqOp_of_withOp fun _ => rfl, reqOp_of_withOp fun _ => rfl, fun ch s =>
    ⟨fun hch => ⟨afterReads_one (fun w t h => ?_) (fun t h => ?_),
      afterReads_one (fun w t h => ?_) (fun t h => ?_)⟩, fun hch => ⟨?_, ?_⟩⟩⟩
  · obtain ⟨hfin, hlo, hhi⟩ := (offsetInDomain_iff _).1 (offsetInDomain_fxpDecS w)
    exact ⟨w, _, rfl, hfin, (fxpDecS_spec w Config.fbOffset).2, hlo, hhi, congrArg _
      (runReq_asReal ((opRdOffset_of_channel hch s).trans (opThen_ok h)))⟩
  · exact congrArg _ (runReq_error ((opRdOffset_of_channel hch s).trans (opThen_error h)))
  · obtain ⟨hfin, hlo, hhi⟩ := (gainInDomain_iff _).1 (gainInDomain_fxpDecU w)
    obtain ⟨-, hreal, -⟩ := fxpDecU_spec w Config.fbGain
    exact ⟨w, _, rfl, hfin, hreal, hlo, hhi, congrArg _
      (runReq_asReal ((opRdGain_of_channel hch s).trans (opThen_ok h)))⟩
  · exact congrArg _ (runReq_error ((opRdGain_of_channel hch s).trans (opThen_error h)))
  · exact congrArg _ (runReq_error (opThen_checkChannel_fails hch _ s))
  · exact congrArg _ (runReq_error (opThen_checkChannel_fails hch _ s))

/-! ### Calibration writes -/

theorem opWrOffset_eq (ch : Byte) (val : F64) : opWrOffset ch val =
    opThen (opRequire (channelOk ch && offsetInDomain val)) fun _ =>
      opMemWrite (regOffsetCal ch) (fxpEncS val Config.fbOffset) :=
  opThen_require_require _ _ _

theorem opWrGain_eq (ch : Byte) (val : F64) : opWrGain ch val =
    opThen (opRequire (channelOk ch && gainInDomain val)) fun _ =>
      opMemWrite (regGainCal ch) (fxpEncU val Config.fbGain) :=
  opThen_require_require _ _ _

/-- WR_OFFSET on a legal channel and a value of its domain is one Write. -/
theorem opWrOffset_of_inDomain {ch : Byte} {val : F64} (hch : ch ≤ 3)
    (hval : offsetInDomain val = true) (s : State) :
    opWrOffset ch val s = opMemWrite (regOffsetCal ch) (fxpEncS val Config.fbOffset) s := by
  rw [opWrOffset_eq, opThen_require ((channelOk_and_iff _ _).2 ⟨hch, hval⟩)]

theorem opWrOffset_refused {ch : Byte} {val : F64}
    (h : ¬ (ch ≤ 3 ∧ offsetInDomain val = true)) (s : State) :
    opWrOffset ch val s = (.error .configError, s) := by
  rw [opWrOffset_eq, opThen_require_fails (mt (channelOk_and_iff _ _).1 h)]

/-- WR_GAIN on a legal channel and a value of its domain is one Write. -/
theorem opWrGain_of_inDomain {ch : Byte} {val : F64} (hch : ch ≤ 3)
    (hval : gainInDomain val = true) (s : State) :
    opWrGain ch val s = opMemWrite (regGainCal ch) (fxpEncU val Config.fbGain) s := by
  rw [opWrGain_eq, opThen_require ((channelOk_and_iff _ _).2 ⟨hch, hval⟩)]

theorem opWrGain_refused {ch : Byte} {val : F64} (h : ¬ (ch ≤ 3 ∧ gainInDomain val = true))
    (s : State) : opWrGain ch val s = (.error .configError, s) := by
  rw [opWrGain_eq, opThen_require_fails (mt (channelOk_and_iff _ _).1 h)]

/-- Settles O39: the domain check is the exact comparison, and in the domain nothing wraps. -/
theorem writeOffsetResult : Obligations.WriteOffsetResult := by
  refine ⟨reqOp_of_withOp fun _ => rfl, fun ch val s => ?_⟩
  rw [← offsetInDomain_iff]
  refine ⟨fun ⟨hch, hval⟩ => ⟨_, toInt_fxpEncS_of_inDomain hval, ?_⟩, fun h => ?_⟩
  · exact afterWrite_request rfl (opWrOffset_of_inDomain hch hval s)
  · exact congrArg _ (runReq_error (opWrOffset_refused h s))

/-- Settles O40: as for the offset, on the unsigned domain, which holds -0.0. -/
theorem writeGainResult : Obligations.WriteGainResult := by
  refine ⟨reqOp_of_withOp fun _ => rfl, fun ch val s => ?_⟩
  rw [← gainInDomain_iff]
  refine ⟨fun ⟨hch, hval⟩ => ⟨_, toNat_fxpEncU_of_inDomain hval, ?_⟩, fun h => ?_⟩
  · exact afterWrite_request rfl (opWrGain_of_inDomain hch hval s)
  · exact congrArg _ (runReq_error (opWrGain_refused h s))

/-! ### CFG_INPUT -/

theorem isPin_iff (x : Byte) : isPin x = true ↔ x.toNat ≤ 3 := by
  simp only [isPin, Bool.or_eq_true, beq_iff_eq]
  bv_omega

theorem isInput_iff (x : Byte) : isInput x = true ↔ x.toNat ≤ 4 ∨ x.toNat = 7 := by
  simp only [isInput, Bool.or_eq_true, beq_iff_eq]
  bv_omega

/-- CFG_INPUT's checks on its channel and codes (R156). -/
def cfgInputAccepts (ch pos neg capdac : Byte) : Bool :=
  channelOk ch && (isPin pos && (isInput neg && (!decide (neg ≤ pos)
    && !decide (capdac > Config.capdacMax))))

theorem cfgInputAccepts_iff (ch pos neg capdac : Byte) : cfgInputAccepts ch pos neg capdac = true
    ↔ ch ≤ 3 ∧ inputsLegal pos.toNat neg.toNat capdac.toNat := by
  have hmax : Config.capdacMax.toNat = 31 := rfl
  simp only [cfgInputAccepts, inputsLegal, Bool.and_eq_true, channelOk_iff, isPin_iff, isInput_iff,
    Bool.not_eq_true', decide_eq_false_iff_not, gt_iff_lt, BitVec.lt_def, BitVec.le_def, not_le,
    not_lt, hmax]

theorem opCfgInput_eq (ch pos neg capdac : Byte) : opCfgInput ch pos neg capdac =
    opThen (opRequire (cfgInputAccepts ch pos neg capdac)) fun _ =>
      opRmw (regConfMeas ch) fun w =>
        packConf w (pos.setWidth 3) (neg.setWidth 3) (capdac.setWidth 5) := by
  simp only [opCfgInput, opCheckChannel, opThen_require_require, cfgInputAccepts]

theorem opCfgInput_of_legal {ch pos neg capdac : Byte} (hch : ch ≤ 3)
    (h : inputsLegal pos.toNat neg.toNat capdac.toNat) (s : State) :
    opCfgInput ch pos neg capdac s = opRmw (regConfMeas ch)
      (fun w => packConf w (pos.setWidth 3) (neg.setWidth 3) (capdac.setWidth 5)) s := by
  rw [opCfgInput_eq, opThen_require ((cfgInputAccepts_iff _ _ _ _).2 ⟨hch, h⟩)]

theorem opCfgInput_refused {ch pos neg capdac : Byte}
    (h : ¬ (ch ≤ 3 ∧ inputsLegal pos.toNat neg.toNat capdac.toNat)) (s : State) :
    opCfgInput ch pos neg capdac s = (.error .configError, s) := by
  rw [opCfgInput_eq, opThen_require_fails (mt (cfgInputAccepts_iff _ _ _ _).1 h)]

/-- Legal codes lose nothing when they are cut to their fields. -/
theorem confBecomes_of_legal {pos neg capdac : Byte}
    (h : inputsLegal pos.toNat neg.toNat capdac.toNat) (w : Word) :
    confBecomes pos.toNat neg.toNat capdac.toNat w
      (packConf w (pos.setWidth 3) (neg.setWidth 3) (capdac.setWidth 5)) := by
  obtain ⟨hpos, hneg, -, hcap⟩ := h
  have h1 : (pos.setWidth 3).toNat = pos.toNat := by rw [BitVec.toNat_setWidth]; omega
  have h2 : (neg.setWidth 3).toNat = neg.toNat := by rw [BitVec.toNat_setWidth]; omega
  have h3 : (capdac.setWidth 5).toNat = capdac.toNat := by rw [BitVec.toNat_setWidth]; omega
  have hconf := confBecomes_packConf (pos.setWidth 3) (neg.setWidth 3) (capdac.setWidth 5) w
  rwa [h1, h2, h3] at hconf

/-- Settles O41: the checks are the legality of the codes, then one RMW packs the fields. -/
theorem configureInputResult : Obligations.ConfigureInputResult := by
  refine ⟨reqOp_of_withOp fun _ => rfl, fun ch a b c s => ⟨fun ⟨hch, h⟩ => ?_, fun h => ?_⟩⟩
  · exact afterRmw_request rfl (opCfgInput_of_legal hch h s) (confBecomes_of_legal h)
  · exact congrArg _ (runReq_error (opCfgInput_refused h s))

/-! ### FDC_CONF: start, stop, done bits, rate -/

/-- Settles O42: after the channel check, one RMW of the channel's bit. -/
theorem startAndStopResult : Obligations.StartAndStopResult := by
  refine ⟨reqOp_of_withOp fun _ => rfl, reqOp_of_withOp fun _ => rfl, fun ch s =>
    ⟨fun hch => ⟨?_, ?_⟩, fun hch => ⟨?_, ?_⟩⟩⟩
  · exact afterRmw_request rfl (opThen_checkChannel hch _ s) (bitBecomes_setInit ch)
  · exact afterRmw_request rfl (opThen_checkChannel hch _ s) (bitBecomes_clrInit ch)
  · exact congrArg _ (runReq_error (opThen_checkChannel_fails hch _ s))
  · exact congrArg _ (runReq_error (opThen_checkChannel_fails hch _ s))

theorem opIsDone_of_channel {ch : Byte} (h : ch ≤ 3) (s : State) :
    opIsDone ch s = opThen (opMemRead regFdcConf) (fun w => opReturn (done w ch)) s :=
  opThen_checkChannel h _ s

/-- Settles O43: each operation reads FDC_CONF once and answers with its part of the word. -/
theorem fdcConfReadsResult : Obligations.FdcConfReadsResult := by
  refine ⟨reqOp_of_withOp fun _ => rfl, reqOp_of_withOp fun _ => rfl, reqOp_of_withOp fun _ => rfl,
    fun ch s => ⟨fun hch => afterReads_one (fun w t h => ⟨w, rfl, ?_⟩) (fun t h => ?_),
      fun hch => ?_, afterReads_one (fun w t h => ⟨w, rfl, ?_, ?_⟩) (fun t h => ⟨?_, ?_⟩)⟩⟩
  · exact congrArg _ (runReq_asBool ((opIsDone_of_channel hch s).trans (opThen_ok h)))
  · exact congrArg _ (runReq_error ((opIsDone_of_channel hch s).trans (opThen_error h)))
  · exact congrArg _ (runReq_error (opThen_checkChannel_fails hch _ s))
  · have hop : opNewData s = (.ok (doneMask w), t) := opThen_ok h
    exact congrArg _ (runReq_asData hop (toNat_doneMask w))
  · have hop : opRdRate s = (.ok (rateField w), t) := opThen_ok h
    exact congrArg _ (runReq_asData hop (toNat_rateField w))
  · exact congrArg _ (runReq_error (opThen_error h))
  · exact congrArg _ (runReq_error (opThen_error h))

theorem isRate_iff (a : Byte) : isRate a = true ↔ 1 ≤ a ∧ a ≤ 3 := by
  simp only [isRate, Bool.or_eq_true, beq_iff_eq]
  bv_omega

/-- Settles O44: an accepted ordinal fits the field, so the field holds it. -/
theorem setRateResult : Obligations.SetRateResult := by
  refine ⟨reqOp_of_withOp fun _ => rfl, fun a s => ?_⟩
  rw [← isRate_iff]
  refine ⟨fun h => ?_, fun h => ?_⟩
  · have hfit : (a.setWidth 2).toNat = a.toNat := by
      obtain ⟨-, hle⟩ := (isRate_iff a).1 h
      bv_omega
    rw [← hfit]
    exact afterRmw_request rfl (opThen_require h _ s) (rateBecomes_setRateField _)
  · exact congrArg _ (runReq_error (opThen_require_fails h _ s))

/-! ### Repeat mode -/

theorem opEnRepeat_of_mask {m : Byte} (h : m ≤ 0x0F) (s : State) :
    opEnRepeat m s = opThen (opMemRead regFdcConf) (fun w =>
      opThen (opMemWrite regFdcConf (clrAllInit w)) fun _ =>
      opMemWrite regFdcConf (setRepeat (clrAllInit w) ||| maskToInit m)) s :=
  opThen_require (by simpa using BitVec.not_lt.2 h) _ s

theorem opEnRepeat_refused {m : Byte} (h : 0x0F < m) (s : State) :
    opEnRepeat m s = (.error .configError, s) :=
  opThen_require_fails (by simpa using h) _ s

/-- Settles O45: one read gives both words; the second is written only after the first. -/
theorem repeatModeResult : Obligations.RepeatModeResult := by
  refine ⟨reqOp_of_withOp fun _ => rfl, reqOp_of_withOp fun _ => rfl, fun m s =>
    ⟨fun hm => afterReads_one (fun w s1 h => ?_) (fun t h => ?_), fun hm => ?_, ?_⟩⟩
  · have hop := (opEnRepeat_of_mask hm s).trans (opThen_ok h)
    refine ⟨w, clrAllInit w, _, rfl, fun j hj => clrAllInit_getLsbD hj,
      fun j hj => repeatWord_getLsbD w m hj, afterWrite_intro fun x s2 h1 => ?_⟩
    refine ite_statusOf_ok
      (Q := fun st => exec (.enRepeat m) s = .next (respond (plainResult st) s2)) ?_ ?_
    · rintro rfl
      exact afterWrite_request rfl (hop.trans (opThen_ok h1))
    · rintro e rfl
      exact congrArg _ (runReq_asNothing (hop.trans (opThen_error h1)))
  · exact congrArg _ (runReq_error ((opEnRepeat_of_mask hm s).trans (opThen_error h)))
  · exact congrArg _ (runReq_error (opEnRepeat_refused hm s))
  · exact afterRmw_request rfl rfl bitBecomes_clrRepeat

/-! ### Measurements -/

/-- RD_RAW on a legal channel: two reads, the first failed one ending it. -/
theorem opRdRaw_afterReads {ch : Byte} (hch : ch ≤ 3) (s : State) :
    AfterReads [regMeasMsb ch, regMeasLsb ch] s
      (fun ws t => ∃ hi lo, ws = [hi, lo]
        ∧ opRdRaw ch s = (.ok ((hi ++ lo) &&& (0xFFFFFF00 : Long)), t))
      (fun t => opRdRaw ch s = (.error .commError, t)) := by
  rw [opRdRaw, opThen_checkChannel hch]
  exact afterReads_cons
    (fun hi s1 h1 => afterReads_one
      (fun lo s2 h2 => ⟨hi, lo, rfl, by rw [opThen_ok h1, opThen_ok h2, opReturn_run]⟩)
      (fun s2 h2 => by rw [opThen_ok h1, opThen_error h2]))
    (fun s1 h1 => by rw [opThen_error h1])

/-- Settles O46: the outcome of the two reads, as the record gives it. -/
theorem readRawResult : Obligations.ReadRawResult := by
  refine ⟨reqOp_of_withOp fun _ => rfl, fun ch s => ⟨fun hch => ?_, fun hch => ?_⟩⟩
  · refine (opRdRaw_afterReads hch s).mono ?_ fun t h => congrArg _ (runReq_error h)
    rintro _ t ⟨hi, lo, rfl, h⟩
    exact ⟨hi, lo, rfl, congrArg _ (runReq_asData h (toNat_rawMeasurement hi lo))⟩
  · exact congrArg _ (runReq_error (opThen_checkChannel_fails hch _ s))

theorem opRdMeas_of_channel {ch : Byte} (h : ch ≤ 3) (s : State) :
    opRdMeas ch s = opThen (opRdRaw ch) (fun m => opThen (opMemRead (regConfMeas ch)) fun w =>
      opReturn (cap m (confCapdac w))) s :=
  opThen_checkChannel h _ s

/-- The capacitance that RD_MEAS returns, from the three words it read (R166). -/
theorem cap_rawMeasurement (hi lo w : Word) :
    f64IsFinite (cap ((hi ++ lo) &&& (0xFFFFFF00 : Long)) (confCapdac w)) = true
      ∧ f64Real (cap ((hi ++ lo) &&& (0xFFFFFF00 : Long)) (confCapdac w))
        = ((BitVec.ofNat 24 (hi.toNat * 2 ^ 8 + field lo 15 8)).toInt : ℚ) / 2 ^ 19
          + field w 9 5 * (25 / 8) := by
  obtain ⟨hfin, hreal⟩ := cap_spec ((hi ++ lo) &&& (0xFFFFFF00 : Long)) (confCapdac w)
  refine ⟨hfin, ?_⟩
  rw [hreal, (dec24_spec _).2, meas24, rawMeasurement_extractLsb', toNat_confCapdac]

/-- Settles O47: RD_RAW's outcome, then the read of CONF_MEAS. -/
theorem readMeasurementResult : Obligations.ReadMeasurementResult := by
  refine ⟨reqOp_of_withOp fun _ => rfl, fun ch s => ⟨fun hch => ?_, fun hch => ?_⟩⟩
  · have hop := opRdMeas_of_channel hch s
    refine (afterReads_append (rs := [_, _]) (qs := [_])).2
      ((opRdRaw_afterReads hch s).mono ?_ fun t h => ?_)
    · rintro _ s1 ⟨hi, lo, rfl, hraw⟩
      refine afterReads_one (fun w t h => ?_) (fun t h => ?_)
      · obtain ⟨hfin, hreal⟩ := cap_rawMeasurement hi lo w
        exact ⟨hi, lo, w, _, rfl, hfin, hreal, congrArg _
          (runReq_asReal ((hop.trans (opThen_ok hraw)).trans (opThen_ok h)))⟩
      · exact congrArg _ (runReq_error ((hop.trans (opThen_ok hraw)).trans (opThen_error h)))
    · exact congrArg _ (runReq_error (hop.trans (opThen_error h)))
  · exact congrArg _ (runReq_error (opThen_checkChannel_fails hch _ s))

/-! ### RESET -/

theorem opRmw_params (reg : Byte) (g : Word → Word) (s : State) :
    (opRmw reg g s).2.params = s.params := by
  obtain ⟨evs, hr, -⟩ := opOnly_rmw (P := fun _ _ => True) (reg := reg) (g := g)
    (fun _ _ => trivial) (fun _ _ _ _ => trivial) s
  exact hr.frame.1

/-- RESET: the RMW of RST, then the poll; whoever runs it sees one status and one state. -/
theorem afterReset_intro {s : State} {k : Status → State → Prop}
    (h : ∀ x t, opReset s = (x, t) → k (statusOf x) t) : AfterReset s k := by
  refine afterRmw_intro bitBecomes_setRst fun x s1 hx => ?_
  rcases x with e | ⟨⟩
  · have herr := h _ _ (opThen_error hx)
    cases e <;> simpa using herr
  · have hp : s1.params = s.params := by
      have hrmw := opRmw_params regFdcConf setRst s
      rwa [show opRmw regFdcConf setRst s = (.ok (), s1) from hx] at hrmw
    have hpoll : opReset s = opPollReset s.params.resetPollLimit s1 := by
      rw [← hp]
      exact opThen_ok hx
    exact ⟨_, _, polls_opPollReset s.params.resetPollLimit s1, h _ _ hpoll⟩

theorem cmdByte_of_mem {c : Params → Byte} {i : Instr} (h : ∀ p, (c p, i) ∈ commandTable p) :
    CmdByte c i := by
  intro p hw
  simp only [decode, decodeRx, decodeCommand_of_mem hw (h p)]

/-- Settles O48: the REQ port gives the record of RESET's outcome, the command its notice. -/
theorem resetPollsUntilCleared : Obligations.ResetPollsUntilCleared := by
  refine ⟨reqOp_of_withOp fun _ => rfl, cmdByte_of_mem fun p => by simp [commandTable],
    fun s => ⟨?_, ?_⟩⟩
  · exact afterReset_intro fun x t h => congrArg _ (runReq_asNothing h)
  · exact afterReset_intro fun x t h => congrArg _ (runNotice_eq h)

/-! ### Presence and identity -/

theorem opRdId_of_sel {a : Byte} (h : a ≤ 1) (s : State) :
    opRdId a s = opMemRead (regId a) s :=
  opThen_require (by simpa using BitVec.not_lt.2 h) _ s

theorem opRdId_refused {a : Byte} (h : 1 < a) (s : State) :
    opRdId a s = (.error .configError, s) :=
  opThen_require_fails (by simpa using h) _ s

/-- Settles O49: a probe has no error, and the selector's check leaves two registers. -/
theorem presenceAndIdentityResult : Obligations.PresenceAndIdentityResult := by
  refine ⟨reqOp_of_withOp fun _ => rfl, reqOp_of_withOp fun _ => rfl, fun a s =>
    ⟨congrArg Host.Outcome.next (runReq_asBool (opProbe_run s)),
      fun ha => afterReads_one (fun w t h => ⟨w, rfl, ?_⟩) (fun t h => ?_), fun ha => ?_⟩⟩
  · exact congrArg _ (runReq_asData ((opRdId_of_sel ha s).trans h) rfl)
  · exact congrArg _ (runReq_error ((opRdId_of_sel ha s).trans h))
  · exact congrArg _ (runReq_error (opRdId_refused ha s))

end Sys2Proof.Machine
end

section
/-! PROOFS. The statement of `42_command_protocol.md` R211 on the channel-settings latch. The six
payload bytes hold a legal channel and words that decode into the domains, so only the input codes
can be refused, and the words received are the words written. -/

namespace Sys2Proof.Machine

/-! ### The payload fields as numbers (`30_encoding.md` R107, R108) -/

theorem toNat_payloadChannel (b : Byte) :
    ((payloadChannel b).setWidth 8).toNat = b.toNat / 64 := by
  rw [payloadChannel, BitVec.toNat_setWidth, BitVec.extractLsb'_toNat, Nat.shiftRight_eq_div_pow]
  omega

theorem toNat_payloadCapdac (b : Byte) : ((payloadCapdac b).setWidth 8).toNat = b.toNat % 32 := by
  rw [payloadCapdac, BitVec.toNat_setWidth, BitVec.extractLsb'_toNat, Nat.shiftRight_zero]
  omega

theorem toNat_payloadPos (b : Byte) : ((payloadPos b).setWidth 8).toNat = b.toNat / 16 := by
  rw [payloadPos, BitVec.toNat_setWidth, BitVec.extractLsb'_toNat, Nat.shiftRight_eq_div_pow]
  omega

theorem toNat_payloadNeg (b : Byte) : ((payloadNeg b).setWidth 8).toNat = b.toNat % 16 := by
  rw [payloadNeg, BitVec.toNat_setWidth, BitVec.extractLsb'_toNat, Nat.shiftRight_zero]
  omega

/-- Two bits always name a channel. -/
theorem payloadChannel_le (b : Byte) : (payloadChannel b).setWidth 8 ≤ (3 : Byte) := by
  rw [BitVec.le_def, toNat_payloadChannel]
  have := b.isLt
  change b.toNat / 64 ≤ 3
  omega

/-- The register at a fixed distance from the payload's channel. -/
theorem add_payloadChannel (base : Nat) (b : Byte) :
    BitVec.ofNat 8 base + (payloadChannel b).setWidth 8 = BitVec.ofNat 8 (base + b.toNat / 64) := by
  rw [← toNat_payloadChannel, BitVec.ofNat_add, BitVec.ofNat_toNat, BitVec.setWidth_eq]

/-! ### What the latch runs -/

/-- The input codes of the payload are legal (`41_register_codec.md` R156). -/
def payloadLegal (p : Vector Byte 6) : Prop :=
  inputsLegal (p[1].toNat / 16) (p[1].toNat % 16) (p[0].toNat % 32)

theorem payloadLegal_iff (p : Vector Byte 6) : payloadLegal p
    ↔ inputsLegal ((payloadPos p[1]).setWidth 8).toNat ((payloadNeg p[1]).setWidth 8).toNat
      ((payloadCapdac p[0]).setWidth 8).toNat := by
  rw [toNat_payloadPos, toNat_payloadNeg, toNat_payloadCapdac, payloadLegal]

/-- What the latch makes of the CONF_MEAS word. -/
def payloadConf (p : Vector Byte 6) (w : Word) : Word :=
  packConf w (((payloadPos p[1]).setWidth 8).setWidth 3) (((payloadNeg p[1]).setWidth 8).setWidth 3)
    (((payloadCapdac p[0]).setWidth 8).setWidth 5)

theorem confBecomes_payloadConf {p : Vector Byte 6} (h : payloadLegal p) (w : Word) :
    confBecomes (p[1].toNat / 16) (p[1].toNat % 16) (p[0].toNat % 32) w (payloadConf p w) := by
  have hconf := confBecomes_of_legal ((payloadLegal_iff p).1 h) w
  rwa [toNat_payloadPos, toNat_payloadNeg, toNat_payloadCapdac] at hconf

theorem opCfgInput_payload {p : Vector Byte 6} (h : payloadLegal p) :
    opCfgInput ((payloadChannel p[0]).setWidth 8) ((payloadPos p[1]).setWidth 8)
      ((payloadNeg p[1]).setWidth 8) ((payloadCapdac p[0]).setWidth 8)
      = opRmw (BitVec.ofNat 8 (0x08 + p[0].toNat / 64)) (payloadConf p) := by
  rw [← add_payloadChannel]
  exact funext (opCfgInput_of_legal (payloadChannel_le _) ((payloadLegal_iff p).1 h))

/-- A received offset word decodes into the domain and is written as it was received (R135). -/
theorem opWrOffset_payload (b : Byte) (w : Word) :
    opWrOffset ((payloadChannel b).setWidth 8) (fxpDecS w Config.fbOffset)
      = opMemWrite (BitVec.ofNat 8 (0x0D + b.toNat / 64)) w := by
  funext s
  rw [opWrOffset_of_inDomain (payloadChannel_le b) (offsetInDomain_fxpDecS w),
    (fixedPointRoundTrip w _).1, ← add_payloadChannel]
  rfl

/-- A received gain word decodes into the domain and is written as it was received (R135). -/
theorem opWrGain_payload (b : Byte) (w : Word) :
    opWrGain ((payloadChannel b).setWidth 8) (fxpDecU w Config.fbGain)
      = opMemWrite (BitVec.ofNat 8 (0x11 + b.toNat / 64)) w := by
  funext s
  rw [opWrGain_of_inDomain (payloadChannel_le b) (gainInDomain_fxpDecU w),
    (fixedPointRoundTrip w _).2, ← add_payloadChannel]
  rfl

/-- With legal codes the latch's operation is one RMW and two Writes. -/
theorem opChset_of_legal {p : Vector Byte 6} (h : payloadLegal p) : opChset p =
    opThen (opRmw (BitVec.ofNat 8 (0x08 + p[0].toNat / 64)) (payloadConf p)) fun _ =>
    opThen (opMemWrite (BitVec.ofNat 8 (0x0D + p[0].toNat / 64)) (wordOfBytes p[2] p[3])) fun _ =>
    opMemWrite (BitVec.ofNat 8 (0x11 + p[0].toNat / 64)) (wordOfBytes p[4] p[5]) := by
  rw [opChset, opCfgInput_payload h, opWrOffset_payload, opWrGain_payload]

theorem opChset_refused {p : Vector Byte 6} (h : ¬ payloadLegal p) (s : State) :
    opChset p s = (.error .configError, s) :=
  opThen_error (opCfgInput_refused (fun hok => h ((payloadLegal_iff p).2 hok.2)) s)

/-- Whatever follows each transaction of the latch, for every answer of the device. -/
theorem opChset_outcome {p : Vector Byte 6} (h : payloadLegal p) (s : State)
    {C : Status → State → Prop} (hC : ∀ x t, opChset p s = (x, t) → C (statusOf x) t) :
    AfterRmw (BitVec.ofNat 8 (0x08 + p[0].toNat / 64))
      (confBecomes (p[1].toNat / 16) (p[1].toNat % 16) (p[0].toNat % 32)) s fun st s1 =>
        if st = .ok then
          AfterWrite (BitVec.ofNat 8 (0x0D + p[0].toNat / 64)) (wordOfBytes p[2] p[3]) s1
            fun st s2 =>
              if st = .ok then
                AfterWrite (BitVec.ofNat 8 (0x11 + p[0].toNat / 64)) (wordOfBytes p[4] p[5]) s2 C
              else C st s2
        else C st s1 := by
  rw [opChset_of_legal h] at hC
  refine afterRmw_intro (confBecomes_payloadConf h) fun x s1 h1 =>
    ite_statusOf_ok (Q := fun st => C st s1) ?_ ?_
  · rintro rfl
    refine afterWrite_intro fun y s2 h2 => ite_statusOf_ok (Q := fun st => C st s2) ?_ ?_
    · rintro rfl
      exact afterWrite_intro fun z t h3 => hC z t (by rw [opThen_ok h1, opThen_ok h2, h3])
    · rintro e rfl
      exact hC _ _ (by rw [opThen_ok h1, opThen_error h2])
  · rintro e rfl
    exact hC _ _ (opThen_error h1)

/-! ### The latch byte -/

theorem latchStep_of_latch {b : Byte} {s : State} (h : b = s.params.latch) (op : RegOp Unit) :
    latchStep b op s = runNotice op (toIdle s) := if_pos h

theorem latchStep_of_ne {b : Byte} {s : State} (h : b ≠ s.params.latch) (op : RegOp Unit) :
    latchStep b op s = emit (.notice .tooFew) (toIdle s) := if_neg h

/-- At the latch byte, the notice is that of the operation's outcome. -/
theorem exec_seqChsetLatch {b : Byte} {s t : State} {x : Except Err Unit}
    (hb : b = s.params.latch) (h : opChset s.session.scratch (toIdle s) = (x, t)) :
    exec (.seqChsetLatch b) s = .next (emit (.notice (noticeOf (statusOf x))) t) :=
  congrArg Host.Outcome.next ((latchStep_of_latch hb _).trans (runNotice_eq h))

/-- Settles O59: a mismatch runs nothing; at the latch byte the operation's outcome, spelled
transaction by transaction, gives the notice. -/
theorem channelSettingsLatchResult : Obligations.ChannelSettingsLatchResult := by
  refine ⟨fun _ _ => rfl, ?_⟩
  rintro b s _ _ rfl rfl
  refine ⟨fun hb => ?_, fun hb hlegal => ?_, fun hb hlegal => ?_⟩
  · exact congrArg Host.Outcome.next (latchStep_of_ne hb _)
  · exact opChset_outcome hlegal (toIdle s) fun x t h => exec_seqChsetLatch hb h
  · exact exec_seqChsetLatch hb (opChset_refused hlegal (toIdle s))

end Sys2Proof.Machine
end

section
/-! PROOFS. The statements of `42_command_protocol.md` on an iteration: the timeout (R202, R204,
R235, R241), and the byte, the timeout check and the data check in their order (R203, R240). -/

namespace Sys2Proof.Machine

/-! ### The elapsed count -/

/-- A tick of at most 64 bits is not cut a second time by the 64 bits that hold it. -/
theorem toNat_wrapTick {p : Params} (h : p.tickW ≤ 64) (t : Tick) :
    (wrapTick p t).toNat = t.toNat % 2 ^ p.tickW := by
  have hlt : t.toNat % 2 ^ p.tickW < 2 ^ 64 :=
    (Nat.mod_lt _ (Nat.two_pow_pos _)).trans_le (Nat.pow_le_pow_right (by decide) h)
  rw [wrapTick, BitVec.toNat_ofNat, Nat.mod_eq_of_lt hlt]

/-- Subtraction modulo 2^64, then cut to P_TICK_W bits, is subtraction modulo 2^P_TICK_W. -/
theorem elapsed_eq_emod {p : Params} (h : p.tickW ≤ 64) (now deadline : Tick) :
    (elapsed p now deadline : Int)
      = ((now.toNat : Int) - (deadline.toNat : Int)) % (2 ^ p.tickW : Int) := by
  have hdvd : (2 ^ p.tickW : Int) ∣ 2 ^ 64 := pow_dvd_pow 2 h
  have hsub : ((now - deadline).toNat : Int)
      = ((now.toNat : Int) - (deadline.toNat : Int)) % 2 ^ 64 := by
    rw [BitVec.toNat_sub]
    omega
  calc (elapsed p now deadline : Int)
      = ((now - deadline).toNat : Int) % (2 ^ p.tickW : Int) := by
        rw [elapsed, toNat_wrapTick h, Int.natCast_mod, Nat.cast_pow, Nat.cast_ofNat]
    _ = ((now.toNat : Int) - (deadline.toNat : Int)) % (2 ^ p.tickW : Int) := by
        rw [hsub, Int.emod_emod_of_dvd _ hdvd]

theorem timedOut_iff (s : State) : timedOut s = true ↔ s.session.mode = .awaiting
    ∧ 1000 < elapsed s.params s.tick s.session.deadline := by
  rw [timedOut, Bool.and_eq_true, decide_eq_true_iff, decide_eq_true_iff, Config.timeoutTicks]

/-- Settles O11: the elapsed count is the difference of the ticks modulo 2^P_TICK_W. -/
theorem timedOutIsElapsedAboveWindow : Obligations.TimedOutIsElapsedAboveWindow := by
  intro s h
  rw [timedOut_iff, ← elapsed_eq_emod h]
  norm_cast

/-! ### The timeout notice -/

theorem timedOut_congr {s t : State} (hp : t.params = s.params) (hs : t.session = s.session)
    (ht : t.tick = s.tick) : timedOut t = timedOut s := by
  rw [timedOut, timedOut, hp, hs, ht]

/-- An entry byte's deadline is the iteration's own tick, so no time has elapsed. -/
theorem timedOut_enterAwaiting (k : Kind) (s : State) : timedOut (enterAwaiting k s) = false := by
  have helapsed : elapsed s.params s.tick s.tick = 0 := by
    rw [elapsed, BitVec.sub_self, wrapTick]
    simp
  rw [Bool.eq_false_iff, Ne, timedOut_iff]
  rintro ⟨-, hlt⟩
  rw [enterAwaiting_params, enterAwaiting_tick, enterAwaiting_session, helapsed] at hlt
  omega

/-- From `s` to `t` OUT gained events of which `n` are timeout notices. -/
def GainsTimeouts (n : Nat) (s t : State) : Prop :=
  ∃ evs, t.out = s.out ++ evs ∧ evs.count (.notice .timeout) = n

theorem GainsTimeouts.of_same {s t : State} (h : t.out = s.out) : GainsTimeouts 0 s t :=
  ⟨[], by rw [h, List.append_nil], rfl⟩

theorem GainsTimeouts.trans {m n : Nat} {s t u : State} (h : GainsTimeouts m s t)
    (g : GainsTimeouts n t u) : GainsTimeouts (m + n) s u := by
  obtain ⟨es, ho, hm⟩ := h
  obtain ⟨fs, go, hn⟩ := g
  exact ⟨es ++ fs, by rw [go, ho, List.append_assoc], by rw [List.count_append, hm, hn]⟩

/-- Transactions, then one event that is no timeout notice. -/
theorem Reach.gains_emit {s t : State} {evs : List BusEvent} {e : OutEvent} (h : Reach s evs t)
    (he : e ≠ .notice .timeout) : GainsTimeouts 0 s (emit e t) := by
  obtain ⟨-, -, hout, -, -, -⟩ := h.frame
  exact ⟨[e], by rw [emit_out, hout], List.count_singleton.trans (if_neg (by simpa using he))⟩

/-- Transactions leave the session and the tick as they are. -/
theorem Reach.timedOut_eq {s t : State} {evs : List BusEvent} (h : Reach s evs t) :
    timedOut t = timedOut s := by
  obtain ⟨hparams, hsession, -, -, -, htick⟩ := h.frame
  exact timedOut_congr hparams hsession htick

theorem timedOut_timeoutCheck (s : State) : timedOut (timeoutCheck s) = false := by
  unfold timeoutCheck
  split
  · exact timedOut_of_idle rfl
  · next h => exact Bool.eq_false_iff.2 h

theorem timeoutCheck_of_timedOut {s : State} (h : timedOut s = true) :
    timeoutCheck s = timeoutAbort s := if_pos h

theorem timeoutAbort_gains (s : State) : GainsTimeouts 1 s (timeoutAbort s) :=
  ⟨[.notice .timeout], rfl, rfl⟩

/-- The timeout check emits the notice of the timeout it finds. -/
theorem timeoutCheck_gains (s : State) :
    GainsTimeouts (if timedOut s then 1 else 0) s (timeoutCheck s) := by
  cases h : timedOut s with
  | true => rw [timeoutCheck_of_timedOut h]; exact timeoutAbort_gains s
  | false => rw [timeoutCheck_of_not_timedOut h]; exact .of_same rfl

/-- A byte that only moves the session opens a fresh window or leaves the deadline as it was. -/
theorem SessionShape.timedOut_eq_false {i : Instr} {s t : State} (h : SessionShape i s t)
    (hs : timedOut s = false) : timedOut t = false := by
  rcases h with ⟨k, -, rfl⟩ | ⟨b, -, rfl⟩ | ⟨b, -, -, -, rfl⟩
  · exact timedOut_enterAwaiting k s
  · exact hs
  · exact hs

/-- An instruction emits no timeout notice and lets no window run out. -/
theorem exec_no_timeout {i : Instr} {s t : State} (hs : timedOut s = false)
    (h : exec i s = .next t) : GainsTimeouts 0 s t ∧ timedOut t = false := by
  rcases exec_cases h with
    ⟨-, evs, u, r, hr, -, rfl⟩ | ⟨-, x, evs, u, e, hx, hr, -, -, he, rfl⟩ | hm
  · obtain ⟨-, -, hout, -, -, -⟩ := hr.frame
    exact ⟨.of_same hout, hr.timedOut_eq.trans hs⟩
  · refine ⟨hr.gains_emit he, hr.timedOut_eq.trans ?_⟩
    rcases hx with rfl | rfl
    · exact hs
    · exact timedOut_of_idle rfl
  · obtain ⟨-, x, hx⟩ := hm.session_only
    exact ⟨.of_same (by rw [hx]), hm.timedOut_eq_false hs⟩

/-- The byte and the timeout check after it: one of them finds the timeout, if there is one. -/
theorem ByteEffect.timeoutCheck_gains {rx : Option Byte} {s t : State} (h : ByteEffect rx s t) :
    GainsTimeouts (if timedOut s then 1 else 0) s (timeoutCheck t) := by
  rcases h with rfl | ⟨hs, rfl⟩ | ⟨b, i, -, hs, -, he⟩
  · exact Machine.timeoutCheck_gains t
  · rw [timeoutCheck_of_not_timedOut (timedOut_of_idle rfl), hs]
    exact timeoutAbort_gains s
  · obtain ⟨hgains, ht⟩ := exec_no_timeout hs he
    rw [timeoutCheck_of_not_timedOut ht, hs]
    exact hgains

/-- The data check emits a packet or nothing, and leaves the session and the tick as they are. -/
theorem dataCheck_no_timeout (s : State) :
    GainsTimeouts 0 s (dataCheck s) ∧ timedOut (dataCheck s) = timedOut s := by
  obtain ⟨evs, u, hr, -, hd | ⟨pl, -, hd⟩⟩ := dataCheck_reach s <;> rw [hd]
  · obtain ⟨-, -, hout, -, -, -⟩ := hr.frame
    exact ⟨.of_same hout, hr.timedOut_eq⟩
  · exact ⟨hr.gains_emit nofun, hr.timedOut_eq⟩

/-- Settles O21: of the three parts of an iteration only the byte and the timeout check can find the
timeout, and whichever does leaves the session in Idle. -/
theorem oneTimeoutNoticePerTimeout : Obligations.OneTimeoutNoticePerTimeout := by
  rintro s t _ rx now rest hp rfl h
  obtain ⟨-, ⟨hp', -⟩ | ⟨r, rest', hp', -⟩ | ⟨rx', now', rest', u, hp', hu, rfl⟩⟩ := step_cases h
  · rw [hp'] at hp; cases hp
  · rw [hp'] at hp; cases hp
  · rw [hp'] at hp; cases hp
    obtain ⟨hgains, htimedOut⟩ := dataCheck_no_timeout (timeoutCheck u)
    exact ⟨hu.timeoutCheck_gains.trans hgains, htimedOut.trans (timedOut_timeoutCheck u)⟩

/-! ### The order of an iteration -/

/-- A step that takes an iteration with a byte. -/
theorem step_eq_afterByte {s : State} {b : Byte} {now : Tick} {rest : List StepInput}
    (hw : s.params.wf = true) (hp : s.pending = .iterate (some b) now :: rest) :
    step s = afterByte (parseByte b (sampleTick now { s with pending := rest })) := by
  rw [step_eq_runInput hw hp]
  rfl

theorem parseByte_of_timedOut {s : State} (h : timedOut s = true) (b : Byte) :
    parseByte b s = .next (timeoutAbort s) := if_pos h

theorem parseByte_of_decode {s : State} {b : Byte} {i : Instr} (h : timedOut s = false)
    (hd : decode s.params s.pos (.rx b) = .ok i) : parseByte b s = exec i s := by
  simp only [parseByte, h, runByte, hd, Bool.false_eq_true, if_false]

/-- An instruction that may stand at the session position completes; only a payload byte has
positions without effect. -/
theorem exec_completes {i : Instr} {s : State} (h : i.fits s.pos = true) :
    ∃ t, exec i s = .next t := by
  cases i
  case seqChsetPayload b =>
    obtain ⟨k, hpos, h1, h6⟩ := fits_seqChsetPayload h
    obtain ⟨-, rfl⟩ := pos_eq_chset hpos
    exact ⟨_, exec_seqChsetPayload_stored b h1 h6⟩
  all_goals exact ⟨_, rfl⟩

/-- Settles O7: what the decoder reads may stand at the position, so it completes. -/
theorem stepRunsTheReceivedByte : Obligations.StepRunsTheReceivedByte := by
  intro s s0 b now rest i hw hp hs0 hlate hd
  have hd0 : decode s0.params s0.pos (.rx b) = .ok i := by rw [← hd, hs0]; rfl
  obtain ⟨t, ht⟩ := exec_completes (fits_of_decode_rx hd0)
  refine ⟨t, ht, ?_⟩
  calc step s
      = afterByte (parseByte b s0) := by rw [step_eq_afterByte hw hp, hs0]
    _ = .next (dataCheck (timeoutCheck t)) := by rw [parseByte_of_decode hlate hd0, ht]; rfl

/-- Settles O8: the abort is all the byte does, and the session it leaves in Idle passes the timeout
check. -/
theorem lateByteIsDiscarded : Obligations.LateByteIsDiscarded := by
  intro s s0 b now rest hw hp hs0 hlate
  calc step s
      = afterByte (parseByte b s0) := by rw [step_eq_afterByte hw hp, hs0]
    _ = .next (dataCheck (timeoutCheck (timeoutAbort s0))) := by
        rw [parseByte_of_timedOut hlate]; rfl
    _ = .next (dataCheck (timeoutAbort s0)) := by
        rw [timeoutCheck_of_not_timedOut (timedOut_of_idle rfl)]

/-- Settles O9: the sampled state goes to the timeout check, whose two cases these are. -/
theorem iterationWithoutByte : Obligations.IterationWithoutByte := by
  intro s s0 now rest hw hp hs0
  have hstep : step s = .next (dataCheck (timeoutCheck s0)) := by
    rw [step_eq_runInput hw hp, hs0]
    rfl
  refine ⟨fun h => ?_, fun h => ?_⟩
  · rw [hstep, timeoutCheck_of_not_timedOut h]
  · rw [hstep, timeoutCheck_of_timedOut h]
    rfl

end Sys2Proof.Machine
end

section
/-! PROOFS. The statements of `42_command_protocol.md` on single bytes: where a byte goes while
Awaiting, the entry bytes, the rate digit and the two latches, the replies of the immediate commands
(R206 to R209, R213 to R224). -/

namespace Sys2Proof.Machine

/-! ### Codes and the decoder -/

/-- Settles O51: each code is a row of its table. -/
theorem statusAndNoticeCodes : Obligations.StatusAndNoticeCodes :=
  ⟨rfl, rfl, rfl, rfl, rfl, rfl, rfl, rfl, rfl, rfl⟩

theorem decode_rate (p : Params) (k : BitVec 3) (b : Byte) : decode p (.rate k) (.rx b) =
    if k = 1 then .ok (.seqRateDigit b)
    else if k = 2 then .ok (.seqRateLatch b)
    else .error (.noSuchPosition (.rate k)) := rfl

theorem decode_chset (p : Params) (k : BitVec 3) (b : Byte) : decode p (.chset k) (.rx b) =
    if k = 7 then .ok (.seqChsetLatch b)
    else if k = 0 then .error (.noSuchPosition (.chset k))
    else .ok (.seqChsetPayload b) := rfl

/-- Settles O4: of RATE two positions have a handler, of CHSET all but 0, and the latch has the
last. -/
theorem awaitingByteGoesToItsHandler : Obligations.AwaitingByteGoesToItsHandler := by
  intro p b k
  refine ⟨?_, ?_⟩
  · by_cases h1 : k = 1
    · subst h1; rfl
    by_cases h2 : k = 2
    · subst h2; rfl
    rw [decode_rate, if_neg h1, if_neg h2, if_neg (by bv_omega), if_neg (by bv_omega)]
  · by_cases h7 : k = 7
    · subst h7; rfl
    by_cases h0 : k = 0
    · subst h0; rfl
    rw [decode_chset, if_neg h7, if_neg h0, if_pos ⟨by bv_omega, by bv_omega⟩]

/-! ### Entry bytes and the rate digit -/

/-- Settles O52: both entry bytes are in the command table, and each meaning sets four of the five
session registers. -/
theorem entryBytesOpenTheirCommand : Obligations.EntryBytesOpenTheirCommand :=
  ⟨cmdByte_of_mem fun p => by simp [commandTable], cmdByte_of_mem fun p => by simp [commandTable],
    fun _ => ⟨rfl, rfl⟩⟩

theorem toNat_digit (b : Byte) :
    (digit b).toNat = if 0x30 ≤ b.toNat ∧ b.toNat ≤ 0x39 then b.toNat - 0x30 else 0 := by
  unfold digit
  split <;> split <;> bv_omega

/-- Settles O56: the ordinal goes to the first scratch byte, the other five stay. -/
theorem rateDigitStoresOrdinal : Obligations.RateDigitStoresOrdinal := by
  refine ⟨fun _ _ => rfl, fun b s =>
    ⟨s.session.scratch.setIfInBounds 0 (digit b), ?_, fun k hk => ?_, rfl⟩⟩
  · rw [Vector.getElem_setIfInBounds_self, toNat_digit]
  · exact Vector.getElem_setIfInBounds_ne k.isLt (fun h => hk (Fin.ext h.symm))

/-! ### The latches -/

/-- A latch byte: back to Idle, then the transactions of its operation, then one notice. -/
theorem latchStep_reach {P : Params → BusEvent → Prop} {op : RegOp Unit} (h : OpOnly P op)
    (b : Byte) (s : State) :
    ∃ evs u n, Reach (toIdle s) evs u ∧ latchStep b op s = emit (.notice n) u := by
  unfold latchStep
  split
  · obtain ⟨evs, u, hr, -, he⟩ := runNotice_reach h (toIdle s)
    exact ⟨evs, u, _, hr, he⟩
  · exact ⟨[], _, _, .refl _, rfl⟩

/-- Both latch bytes are a `latchStep` of an operation that only makes transactions. -/
theorem exec_latch_reach {b : Byte} {i : Instr} {s t : State}
    (hi : i = .seqRateLatch b ∨ i = .seqChsetLatch b) (h : exec i s = .next t) :
    ∃ evs u n, Reach (toIdle s) evs u ∧ t = emit (.notice n) u := by
  rcases hi with rfl | rfl <;> cases h
  · exact latchStep_reach (opOnly_setRate _) b s
  · exact latchStep_reach (opOnly_chset _) b s

/-- Settles O24: transactions keep the block's own registers, so what is left of the session is that
of `toIdle`. -/
theorem latchFrame : Obligations.LatchFrame := by
  intro b i s t hi h
  obtain ⟨evs, u, n, hr, rfl⟩ := exec_latch_reach hi h
  obtain ⟨hparams, hsession, hout, hresults, hpending, htick⟩ := hr.frame
  exact ⟨hsession, hparams, hresults, hpending, htick, ⟨n, by rw [emit_out, hout, toIdle_out]⟩, evs,
    hr.bus⟩

/-- A command whose operation comes down to one RMW. -/
theorem afterRmw_notice {i : Instr} {op : RegOp Unit} {r : Byte} {f : Word → Word → Prop}
    {g : Word → Word} {s s0 : State} (hexec : exec i s = .next (runNotice op s0))
    (hop : op s0 = opRmw r g s0) (hf : ∀ w, f w (g w)) :
    AfterRmw r f s0 (fun st t => exec i s = .next (emit (.notice (noticeOf st)) t)) :=
  afterRmw_intro hf fun x t hx => by rw [hexec, runNotice_eq (hop.trans hx)]

/-- SET_RATE with an ordinal it accepts is one RMW. -/
theorem opSetRate_of_isRate {r : Byte} (h : isRate r = true) (s : State) :
    opSetRate r s = opRmw regFdcConf (fun w => setRateField w (r.setWidth 2)) s :=
  opThen_require h _ s

theorem opSetRate_refused {r : Byte} (h : ¬ isRate r = true) (s : State) :
    opSetRate r s = (.error .configError, s) := opThen_require_fails h _ s

/-- An ordinal SET_RATE accepts fits the field, so the field holds it. -/
theorem rateBecomes_of_isRate {r : Byte} (h : isRate r = true) (w : Word) :
    rateBecomes r.toNat w (setRateField w (r.setWidth 2)) := by
  have hfit : (r.setWidth 2).toNat = r.toNat := by
    obtain ⟨-, hle⟩ := (isRate_iff r).1 h
    bv_omega
  rw [← hfit]
  exact rateBecomes_setRateField _ w

/-- At the latch byte, SET_RATE with the stored ordinal runs in Idle. -/
theorem exec_seqRateLatch {b : Byte} {s : State} (hb : b = s.params.latch) :
    exec (.seqRateLatch b) s = .next (runNotice (opSetRate s.session.scratch[0]) (toIdle s)) :=
  congrArg Host.Outcome.next (latchStep_of_latch hb _)

/-- Settles O57: a mismatch runs nothing; at the latch byte SET_RATE's check on the stored ordinal
parts the two other cases. -/
theorem rateLatchResult : Obligations.RateLatchResult := by
  refine ⟨fun _ _ => rfl, ?_⟩
  rintro b s _ rfl
  refine ⟨fun hb => ?_, fun hb h1 h3 => ?_, fun hb hrate => ?_⟩
  · exact congrArg Host.Outcome.next (latchStep_of_ne hb _)
  · have hrate := (isRate_iff s.session.scratch[0]).2 ⟨h1, h3⟩
    exact afterRmw_notice (exec_seqRateLatch hb) (opSetRate_of_isRate hrate _)
      (rateBecomes_of_isRate hrate)
  · have hrefused := opSetRate_refused (mt (isRate_iff s.session.scratch[0]).1 hrate) (toIdle s)
    exact (exec_seqRateLatch hb).trans (congrArg Host.Outcome.next (runNotice_eq hrefused))

/-! ### The start commands -/

/-- The start command of a legal channel is one RMW of the channel's bit. -/
theorem start_reply {i : Instr} {ch : Byte} (hch : ch ≤ 3) {s : State}
    (hexec : exec i s = .next (runNotice (opStartMeas ch) s)) :
    AfterRmw 0x0C (bitBecomes (7 - ch.toNat) true) s
      (fun st t => exec i s = .next (emit (.notice (noticeOf st)) t)) :=
  afterRmw_notice hexec (opThen_checkChannel hch _ s) (bitBecomes_setInit ch)

/-- Settles O55: each start command is START_MEAS of its own channel. -/
theorem startCommandReply : Obligations.StartCommandReply := by
  refine ⟨?_, ?_, ?_, ?_, fun s => ?_⟩
  iterate 4 exact cmdByte_of_mem fun p => by simp [commandTable]
  simp only [List.forall_mem_cons, List.not_mem_nil, false_imp_iff, implies_true, and_true]
  exact ⟨start_reply (ch := 0) (by decide) rfl, start_reply (ch := 1) (by decide) rfl,
    start_reply (ch := 2) (by decide) rfl, start_reply (ch := 3) (by decide) rfl⟩

/-! ### The replies of the read commands -/

theorem hiByte_eq_field (w : Word) : hiByte w = BitVec.ofNat 8 (field w 15 8) := by
  rw [← toNat_extractLsb'_eq_field w 8 7, BitVec.ofNat_toNat, BitVec.setWidth_eq, hiByte]

theorem loByte_eq_field (w : Word) : loByte w = BitVec.ofNat 8 (field w 7 0) := by
  rw [← toNat_extractLsb'_eq_field w 0 7, BitVec.ofNat_toNat, BitVec.setWidth_eq, loByte]

theorem wordBytes_eq (w : Word) :
    wordBytes w = [BitVec.ofNat 8 (field w 15 8), BitVec.ofNat 8 (field w 7 0)] := by
  rw [wordBytes, hiByte_eq_field, loByte_eq_field]

theorem rateField_setWidth (w : Word) :
    (rateField w).setWidth 8 = BitVec.ofNat 8 (field w 11 10) := by
  rw [← toNat_rateField, BitVec.ofNat_toNat]

/-- The reply of an id command: the two bytes of the word read, or the sentinel (R213, R214). -/
theorem id_reply {i : Instr} {id sel : Byte} (hsel : sel ≤ 1) {s : State}
    (hexec : exec i s = .next (runReply id 2 wordBytes (opRdId sel) s)) :
    AfterReads [regId sel] s
      (fun ws t => ∃ w, ws = [w] ∧ exec i s = .next (emit (.packet
        [0xA0, id, BitVec.ofNat 8 (field w 15 8), BitVec.ofNat 8 (field w 7 0), 0xC0]) t))
      (fun t => exec i s = .next (emit (.packet [0xA0, id, 0xFF, 0xFF, 0xC0]) t)) := by
  rw [hexec]
  have hop := opRdId_of_sel hsel s
  refine afterReads_one (fun w t h => ⟨w, rfl, ?_⟩) (fun t h => ?_)
  · rw [runReply_ok (hop.trans h), wordBytes_eq]
    rfl
  · rw [runReply_error (hop.trans h)]
    rfl

/-- Settles O53: the two id commands differ in their register; the rate is one field of FDC_CONF; a
probe has no failure, so presence has no sentinel. -/
theorem readCommandReplies : Obligations.ReadCommandReplies := by
  refine ⟨?_, ?_, ?_, ?_, fun s =>
    ⟨id_reply (sel := 0) (by decide) rfl, id_reply (sel := 1) (by decide) rfl,
      afterReads_one (fun w t h => ⟨w, rfl, ?_⟩) (fun t h => ?_), ?_⟩⟩
  iterate 4 exact cmdByte_of_mem fun p => by simp [commandTable]
  · have hop : opRdRate s = (.ok (rateField w), t) := opThen_ok h
    rw [← rateField_setWidth]
    exact congrArg Host.Outcome.next (runReply_ok hop)
  · exact congrArg Host.Outcome.next (runReply_error (opThen_error h))
  · exact congrArg Host.Outcome.next (runReply_ok (opProbe_run s))

/-! ### The channel settings -/

theorem packChannelCapdac_eq (ch : BitVec 2) (w : Word) : packChannelCapdac ch (confCapdac w)
    = BitVec.ofNat 8 (ch.toNat * 64 + field w 9 5) := by
  apply BitVec.eq_of_toNat_eq
  have hch := ch.isLt
  have hcap := (confCapdac w).isLt
  rw [packChannelCapdac, toNat_append_eq_add, toNat_append_eq_add, ← toNat_confCapdac,
    BitVec.toNat_ofNat, BitVec.toNat_ofNat]
  omega

theorem toNat_confPos (w : Word) : (confPos w).toNat = field w 15 13 :=
  toNat_extractLsb'_eq_field w 13 2

theorem toNat_confNeg (w : Word) : (confNeg w).toNat = field w 12 10 :=
  toNat_extractLsb'_eq_field w 10 2

theorem packInputs_eq (w : Word) : packInputs (confPos w) (confNeg w)
    = BitVec.ofNat 8 (field w 15 13 * 16 + field w 12 10) := by
  apply BitVec.eq_of_toNat_eq
  have hpos := (confPos w).isLt
  have hneg := (confNeg w).isLt
  rw [packInputs, toNat_append_eq_add, ← toNat_confPos, ← toNat_confNeg, BitVec.toNat_setWidth,
    BitVec.toNat_setWidth, BitVec.toNat_ofNat]
  omega

/-- The payload of the channel settings, field by field (R225). -/
theorem chsetBytes_eq (ch : BitVec 2) (w off g : Word) : chsetBytes ch (w, off, g) =
    [BitVec.ofNat 8 (ch.toNat * 64 + field w 9 5),
      BitVec.ofNat 8 (field w 15 13 * 16 + field w 12 10),
      BitVec.ofNat 8 (field off 15 8), BitVec.ofNat 8 (field off 7 0),
      BitVec.ofNat 8 (field g 15 8), BitVec.ofNat 8 (field g 7 0)] := by
  simp only [chsetBytes, wordBytes_eq, packChannelCapdac_eq, packInputs_eq, List.cons_append,
    List.nil_append]

/-- The three reads of the channel settings, the first failed one ending them (R225). -/
theorem opChsetFields_afterReads (ch : Byte) (s : State) :
    AfterReads [regConfMeas ch, regOffsetCal ch, regGainCal ch] s
      (fun ws t => ∃ w off g, ws = [w, off, g] ∧ opChsetFields ch s = (.ok (w, off, g), t))
      (fun t => opChsetFields ch s = (.error .commError, t)) :=
  afterReads_cons
    (fun w s1 h1 => afterReads_cons
      (fun off s2 h2 => afterReads_one
        (fun g t h3 => ⟨w, off, g, rfl, by
          rw [opChsetFields, opThen_ok h1, opThen_ok h2, opThen_ok h3, opReturn_run]⟩)
        (fun t h3 => by rw [opChsetFields, opThen_ok h1, opThen_ok h2, opThen_error h3]))
      (fun t h2 => by rw [opChsetFields, opThen_ok h1, opThen_error h2]))
    (fun t h1 => by rw [opChsetFields, opThen_error h1])

/-- The reply of read-channel-settings: the payload of the words read, or the sentinel. -/
theorem channelSettings_reply {i : Instr} {ch : BitVec 2} {s : State}
    (hexec : exec i s = .next (readChannelSettings ch s)) :
    AfterReads [regConfMeas (ch.setWidth 8), regOffsetCal (ch.setWidth 8),
        regGainCal (ch.setWidth 8)] s
      (fun ws t => ∃ w off g, ws = [w, off, g] ∧ exec i s = .next (emit (.packet
        [0xA0, s.params.pktChset, BitVec.ofNat 8 (ch.toNat * 64 + field w 9 5),
          BitVec.ofNat 8 (field w 15 13 * 16 + field w 12 10),
          BitVec.ofNat 8 (field off 15 8), BitVec.ofNat 8 (field off 7 0),
          BitVec.ofNat 8 (field g 15 8), BitVec.ofNat 8 (field g 7 0), 0xC0]) t))
      (fun t => exec i s = .next (emit (.packet
        [0xA0, s.params.pktChset, 0xFF, 0xFF, 0xFF, 0xFF, 0xFF, 0xFF, 0xC0]) t)) := by
  rw [hexec, readChannelSettings]
  refine (opChsetFields_afterReads (ch.setWidth 8) s).mono ?_ fun t h => ?_
  · rintro _ t ⟨w, off, g, rfl, h⟩
    refine ⟨w, off, g, rfl, ?_⟩
    rw [runReply_ok h, chsetBytes_eq]
    rfl
  · rw [runReply_error h]
    rfl

/-- Settles O54: each command is read-channel-settings of its own channel. -/
theorem channelSettingsReply : Obligations.ChannelSettingsReply := by
  refine ⟨?_, ?_, ?_, ?_, fun s => ?_⟩
  iterate 4 exact cmdByte_of_mem fun p => by simp [commandTable]
  simp only [List.forall_mem_cons, List.not_mem_nil, false_imp_iff, implies_true, and_true]
  exact ⟨channelSettings_reply (ch := 0) rfl, channelSettings_reply (ch := 1) rfl,
    channelSettings_reply (ch := 2) rfl, channelSettings_reply (ch := 3) rfl⟩

end Sys2Proof.Machine
end

section
/-! PROOFS. The statement of `42_command_protocol.md` R230 and R231 on the data check: what one
channel gives to the payload, for every answer of the device, then the four in order. -/

namespace Sys2Proof.Machine

/-! ### One channel -/

/-- A byte of the raw measurement word, as a number. -/
theorem rawMeasurement_byte (hi lo : Word) (n : Nat) :
    ((hi ++ lo) &&& (0xFFFFFF00 : Long)).extractLsb' n 8
      = BitVec.ofNat 8 ((hi.toNat * 2 ^ 16 + field lo 15 8 * 2 ^ 8) / 2 ^ n) := by
  rw [← toNat_rawMeasurement, ← Nat.shiftRight_eq_div_pow]
  rfl

/-- The three bytes of the measurement are both of MEAS_MSB and the high one of MEAS_LSB (R231). -/
theorem rawMeasurement_bytes (hi lo : Word) :
    ((hi ++ lo) &&& (0xFFFFFF00 : Long)).extractLsb' 24 8 = BitVec.ofNat 8 (field hi 15 8)
      ∧ ((hi ++ lo) &&& (0xFFFFFF00 : Long)).extractLsb' 16 8 = BitVec.ofNat 8 (field hi 7 0)
      ∧ ((hi ++ lo) &&& (0xFFFFFF00 : Long)).extractLsb' 8 8 = BitVec.ofNat 8 (field lo 15 8) := by
  have hlo : field lo 15 8 < 2 ^ 8 := Nat.mod_lt _ (by decide)
  refine ⟨?_, ?_, ?_⟩
  all_goals
    rw [rawMeasurement_byte]
    apply BitVec.eq_of_toNat_eq
    simp only [BitVec.toNat_ofNat, field] at hlo ⊢
    omega

/-- The three reads of one channel's data: RD_RAW's, then CONF_MEAS. -/
theorem opDataFields_afterReads {ch : Byte} (hch : ch ≤ 3) (s : State) :
    AfterReads [regMeasMsb ch, regMeasLsb ch, regConfMeas ch] s
      (fun ws t => ∃ hi lo w, ws = [hi, lo, w]
        ∧ opDataFields ch s = (.ok ((hi ++ lo) &&& (0xFFFFFF00 : Long), w), t))
      (fun t => opDataFields ch s = (.error .commError, t)) := by
  refine (afterReads_append (rs := [_, _]) (qs := [_])).2
    ((opRdRaw_afterReads hch s).mono ?_ fun t h => opThen_error h)
  rintro _ s1 ⟨hi, lo, rfl, hraw⟩
  exact afterReads_one
    (fun w t h => ⟨hi, lo, w, rfl, by rw [opDataFields, opThen_ok hraw, opThen_ok h, opReturn_run]⟩)
    (fun t h => by rw [opDataFields, opThen_ok hraw, opThen_error h])

theorem dataChannel_ok {ch : Byte} {s t : State} {m : Long} {w : Word}
    (h : opDataFields ch s = (.ok (m, w), t)) : dataChannel ch s =
      ([m.extractLsb' 24 8, m.extractLsb' 16 8, m.extractLsb' 8 8, (confCapdac w).setWidth 8],
        t) := by
  simp only [dataChannel, h]

theorem dataChannel_error {ch : Byte} {s t : State} {e : Err}
    (h : opDataFields ch s = (.error e, t)) :
    dataChannel ch s = ([0xFF, 0xFF, 0xFF, 0xFF], t) := by
  simp only [dataChannel, h]

/-- What a legal channel gives to the payload, and the state it leaves. -/
theorem channelData_of_dataChannel {ch : Byte} (hch : ch ≤ 3) {s t : State} {pl : List Byte}
    (hpl : dataChannel ch s = (pl, t)) : ChannelData ch s pl t := by
  refine (opDataFields_afterReads hch s).mono ?_ fun u h => ?_
  · rintro _ u ⟨hi, lo, w, rfl, h⟩
    obtain ⟨h24, h16, h8⟩ := rawMeasurement_bytes hi lo
    rw [dataChannel_ok h, h24, h16, h8] at hpl
    cases hpl
    exact ⟨hi, lo, w, rfl, rfl, by rw [← toNat_confCapdac, BitVec.ofNat_toNat]⟩
  · rw [dataChannel_error h] at hpl
    cases hpl
    exact ⟨rfl, rfl⟩

/-! ### The data check -/

/-- The first channel of a payload gives its bytes and leaves its state to the later ones. -/
theorem dataPayload_cons {ch : Byte} {chs pl : List Byte} {s t : State}
    (h : dataPayload (ch :: chs) s = (pl, t)) :
    ∃ pl0 s0 rest, dataChannel ch s = (pl0, s0) ∧ dataPayload chs s0 = (rest, t)
      ∧ pl = pl0 ++ rest := by
  cases h
  exact ⟨_, _, _, rfl, rfl, rfl⟩

/-- The four channels are read one after another, whatever each gives. -/
theorem dataPayload_four {s t : State} {pl : List Byte}
    (h : dataPayload [0, 1, 2, 3] s = (pl, t)) :
    ∃ (pl0 pl1 pl2 pl3 : List Byte) (s1 s2 s3 : State),
      ChannelData 0 s pl0 s1 ∧ ChannelData 1 s1 pl1 s2 ∧ ChannelData 2 s2 pl2 s3
        ∧ ChannelData 3 s3 pl3 t ∧ pl = pl0 ++ pl1 ++ pl2 ++ pl3 := by
  obtain ⟨pl0, s1, _, h0, h123, rfl⟩ := dataPayload_cons h
  obtain ⟨pl1, s2, _, h1, h23, rfl⟩ := dataPayload_cons h123
  obtain ⟨pl2, s3, _, h2, h3, rfl⟩ := dataPayload_cons h23
  obtain ⟨pl3, s4, _, h3, hnil, rfl⟩ := dataPayload_cons h3
  cases hnil
  exact ⟨pl0, pl1, pl2, pl3, s1, s2, s3, channelData_of_dataChannel (by decide) h0,
    channelData_of_dataChannel (by decide) h1, channelData_of_dataChannel (by decide) h2,
    channelData_of_dataChannel (by decide) h3, by simp⟩

theorem dataCheck_of_error {s t : State} {e : Err} (h : opNewData s = (.error e, t)) :
    dataCheck s = t := by
  simp only [dataCheck, h]

theorem dataCheck_of_ne {s t : State} {m : BitVec 4} (h : opNewData s = (.ok m, t))
    (hm : m ≠ 0b1111) : dataCheck s = t := by
  simp only [dataCheck, h, if_neg hm]

theorem dataCheck_of_all_done {s t u : State} {pl : List Byte}
    (h : opNewData s = (.ok 0b1111, t)) (hpl : dataPayload [0, 1, 2, 3] t = (pl, u)) :
    dataCheck s = emit (.packet (frame Config.hdrData s.params.pktData pl)) u := by
  simp only [dataCheck, h, if_true, hpl]

theorem doneMask_eq_all_iff (w : Word) : doneMask w = 0b1111 ↔ field w 3 0 = 15 := by
  rw [← toNat_doneMask, ← BitVec.toNat_inj]
  rfl

/-- Settles O60: the read of FDC_CONF decides, and the packet frames what the four channels give. -/
theorem dataCheckEmitsTheDataPacket : Obligations.DataCheckEmitsTheDataPacket := by
  refine fun s => afterReads_one (fun w t h => ⟨w, rfl, fun hw => ?_, fun hw => ?_⟩) fun t h =>
    dataCheck_of_error (opThen_error h)
  · exact dataCheck_of_ne (opThen_ok h) (mt (doneMask_eq_all_iff w).1 hw)
  · have hdone : opNewData s = (.ok 0b1111, t) := by
      rw [← (doneMask_eq_all_iff w).2 hw]
      exact opThen_ok h
    rcases hpl : dataPayload [0, 1, 2, 3] t with ⟨pl, u⟩
    obtain ⟨pl0, pl1, pl2, pl3, s1, s2, s3, h0, h1, h2, h3, rfl⟩ := dataPayload_four hpl
    refine ⟨pl0, pl1, pl2, pl3, s1, s2, s3, u, h0, h1, h2, h3, ?_⟩
    rw [dataCheck_of_all_done hdone hpl]
    simp only [frame, Config.hdrData, Config.tail, List.append_assoc]

end Sys2Proof.Machine
end

section
/-! PROOFS. The statements of `70_reset_and_hazards.md`: what block reset and RESET touch (R290, R291),
and that a step from a state of the invariant completes (R303). -/

namespace Sys2Proof.Machine

/-! ### Block reset -/

theorem reset_scratch : ∀ k : Fin 6, Session.reset.scratch[k] = 0 := by decide

/-- Settles O12: block reset writes the reset session and empties OUT, as the state after reset has
them. -/
theorem blockResetGivesTheResetSession : Obligations.BlockResetGivesTheResetSession := fun s =>
  ⟨rfl, rfl, rfl, rfl, reset_scratch, blockReset_out s, blockReset_bus s, (blockReset_session s).symm,
    rfl, rfl⟩

/-! ### RESET -/

/-- A Read or a Write of FDC_CONF. -/
def AtFdcConf (p : Params) (e : BusEvent) : Prop :=
  (∃ r, e = .read p.devAddr 0x0C 2 r) ∨ ∃ b0 b1 ok, e = .write p.devAddr 0x0C b0 b1 ok

theorem opOnly_reset_atFdcConf : OpOnly AtFdcConf opReset :=
  opOnly_reset (fun _ r => .inl ⟨r, rfl⟩) fun _ b0 b1 ok => .inr ⟨b0, b1, ok, rfl⟩

/-- RESET makes its transactions; its answer, a result record or a notice, reaches neither the session
nor the BUS log. -/
theorem exec_reset_reach {i : Instr} {s t : State} (hi : i = .reset ∨ i = .cmdReset)
    (h : exec i s = .next t) :
    ∃ evs u, Reach s evs u ∧ (∀ e ∈ evs, AtFdcConf s.params e)
      ∧ t.session = u.session ∧ t.bus = u.bus := by
  rcases hi with rfl | rfl
  · obtain ⟨evs, u, hr, hat, hrun⟩ := runReq_reach (f := asNothing) opOnly_reset_atFdcConf s
    cases h
    exact ⟨evs, u, hr, hat, by rw [hrun, respond_session], by rw [hrun, respond_bus]⟩
  · obtain ⟨evs, u, hr, hat, hrun⟩ := runNotice_reach opOnly_reset_atFdcConf s
    cases h
    exact ⟨evs, u, hr, hat, by rw [hrun, emit_session], by rw [hrun, emit_bus]⟩

/-- Settles O13: block reset writes the session and OUT alone; RESET's transactions are all at
FDC_CONF, and no transaction reaches the session. -/
theorem blockResetAndDeviceResetAreApart : Obligations.BlockResetAndDeviceResetAreApart := by
  refine ⟨fun s => ⟨blockReset_regs s, blockReset_turns s, blockReset_freeTurns s,
    blockReset_params s⟩, fun i s t hi h => ?_⟩
  obtain ⟨evs, u, hr, hat, hsession, hbus⟩ := exec_reset_reach hi h
  obtain ⟨-, hframe, -, -, -, -⟩ := hr.frame
  exact ⟨hsession.trans hframe, evs, hbus.trans hr.bus, hat⟩

/-! ### The step completes -/

/-- The session positions of `10_state.md` R52. -/
theorem pos_cases_of_sessionWf {s : State} (h : sessionWf s.session = true) :
    s.pos = .idle ∨ s.pos = .rate 1 ∨ s.pos = .rate 2 ∨ ∃ k, k ≠ 0 ∧ s.pos = .chset k := by
  cases hm : s.session.mode with
  | idle => exact .inl (pos_of_idle hm)
  | awaiting =>
    cases hk : s.session.kind with
    | rate =>
      have hprogress : s.session.progress = 1 ∨ s.session.progress = 2 := by
        simpa [sessionWf, hm, hk] using h
      rcases hprogress with h1 | h2
      · exact .inr (.inl (by simp only [State.pos, hm, hk, h1]))
      · exact .inr (.inr (.inl (by simp only [State.pos, hm, hk, h2])))
    | chset =>
      have hprogress : s.session.progress ≠ 0 := by simpa [sessionWf, hm, hk] using h
      exact .inr (.inr (.inr ⟨_, hprogress, by simp only [State.pos, hm, hk]⟩))

/-- At such a position every byte is an instruction, or in Idle no command (`30_encoding.md` R103,
R116). -/
theorem decode_rx_cases {s : State} (h : sessionWf s.session = true) (b : Byte) :
    (∃ i, decode s.params s.pos (.rx b) = .ok i)
      ∨ decode s.params s.pos (.rx b) = .error (.unknownCommand b) := by
  rcases pos_cases_of_sessionWf h with hpos | hpos | hpos | ⟨k, hk, hpos⟩ <;> rw [hpos]
  · simp only [decode, decodeRx]
    split
    · exact .inl ⟨_, rfl⟩
    · exact .inr rfl
  · exact .inl ⟨.seqRateDigit b, rfl⟩
  · exact .inl ⟨.seqRateLatch b, rfl⟩
  · rw [decode_chset, if_neg hk]
    split <;> exact .inl ⟨_, rfl⟩

theorem runByte_completes {s : State} (h : sessionWf s.session = true) (b : Byte) :
    ∃ t, runByte b s = .next t := by
  unfold runByte
  rcases decode_rx_cases h b with ⟨i, hd⟩ | hd <;> rw [hd]
  · exact exec_completes (fits_of_decode_rx hd)
  · exact ⟨s, rfl⟩

theorem parseByte_completes {s : State} (h : sessionWf s.session = true) (b : Byte) :
    ∃ t, parseByte b s = .next t := by
  unfold parseByte
  split
  · exact ⟨_, rfl⟩
  · exact runByte_completes h b

theorem afterByte_completes {o : Host.Outcome State Fault Refusal} (h : ∃ t, o = .next t) :
    ∃ t, afterByte o = .next t := by
  obtain ⟨t, rfl⟩ := h
  exact ⟨_, rfl⟩

theorem runInput_completes {s : State} (h : sessionWf s.session = true) (i : StepInput) :
    ∃ t, runInput i s = .next t := by
  cases i with
  | request r => exact exec_completes (fits_decodeReq r s.pos)
  | iterate rx now =>
    cases rx with
    | none => exact afterByte_completes ⟨_, rfl⟩
    | some b => exact afterByte_completes (parseByte_completes (s := sampleTick now s) h b)

theorem step_waits {s : State} (hw : s.params.wf = true) (hp : s.pending = []) :
    step s = .next s := by
  simp only [step, stepOnce, hp, hw, if_true]

/-- Settles O16: the parameters are not refused, and the session stands where every byte has an
effect. -/
theorem stepCompletesUnderTheInvariant : Obligations.StepCompletesUnderTheInvariant := by
  rintro s ⟨hw, hses, -, -, -, -⟩
  refine ⟨?_, step_waits hw⟩
  cases hp : s.pending with
  | nil => exact ⟨s, step_waits hw hp⟩
  | cons i rest =>
    rw [step_eq_runInput hw hp]
    exact runInput_completes (s := { s with pending := rest }) hses i

end Sys2Proof.Machine
end

section
/-! PROOFS. The words of `30_encoding.md`'s opcode table, and the payload bytes of
`42_command_protocol.md` R210. -/

namespace Sys2Proof.Machine

/-! ### Table words -/

/-- A word of eight bits below 0x20 is read as a REQ record. -/
theorem decodeTableWord_req {w : Nat} (h : w < 32) :
    decodeTableWord 8 w = some (decodeReq (.ofBits w)) := by
  have hport : tableWordPort 8 w = some (.idle, .req (.ofBits w)) := by
    have hv : w % 2 ^ 8 = w := Nat.mod_eq_of_lt (by omega)
    rw [tableWordPort, hv, if_neg (by decide), if_pos (by omega)]
  rw [decodeTableWord, hport]
  rfl

/-- Settles O3: five words are REQ records with only an op, three are read as bytes, and at the CHSET
latch the position decides. -/
theorem tableWordsDecodeToTheirRows : Obligations.TableWordsDecodeToTheirRows :=
  ⟨decodeTableWord_req (by decide), decodeTableWord_req (by decide),
    decodeTableWord_req (by decide), decodeTableWord_req (by decide),
    decodeTableWord_req (by decide), rfl, rfl, rfl, rfl⟩

/-! ### Payload bytes -/

theorem seqByte_chsetPayload {k : BitVec 3} (h1 : 1 ≤ k.toNat) (h6 : k.toNat ≤ 6) :
    SeqByte (.chset k) .seqChsetPayload := by
  intro p b
  rw [decode_chset, if_neg (by bv_omega), if_neg (by bv_omega)]

/-- A stored byte stands at its place, every other scratch byte is as it was. -/
theorem stored_scratch_getElem (b : Byte) (x : Session) (k : Fin 6) :
    (x.stored b).scratch[k]
      = if k.val = x.progress.toNat - 1 then b else x.scratch[k] := by
  simp only [Session.stored, Fin.getElem_fin, Vector.getElem_setIfInBounds, eq_comm]

theorem stored_progress (b : Byte) (x : Session) :
    (x.stored b).progress = BitVec.ofNat 3 (x.progress.toNat + 1) := by
  rw [BitVec.ofNat_add, BitVec.ofNat_toNat, BitVec.setWidth_eq]
  rfl

theorem exec_seqChsetPayload_stops {s : State} (b : Byte)
    (h : ¬ (1 ≤ s.session.progress.toNat ∧ s.session.progress.toNat ≤ 6)) :
    exec (.seqChsetPayload b) s = .fault .sessionPosition :=
  if_neg h

/-- Settles O58: the handler's own check on the progress parts the two cases. -/
theorem payloadByteIsStored : Obligations.PayloadByteIsStored := by
  refine ⟨fun k => seqByte_chsetPayload, fun b s => ⟨fun h1 h6 => ?_, fun hout => ?_⟩⟩
  · refine ⟨(s.session.stored b).scratch, stored_scratch_getElem b s.session, ?_⟩
    rw [exec_seqChsetPayload_stored b h1 h6, ← stored_progress b]
    rfl
  · exact exec_seqChsetPayload_stops b (by omega)

end Sys2Proof.Machine
end

section
/-! PROOFS. The frame of the immediate commands (`42_command_protocol.md` R242): each makes its
transactions, then gives one event. -/

namespace Sys2Proof.Machine

/-- From `s` to `t` there were transactions, then the event `e` was emitted. -/
def Replied (e : OutEvent) (s t : State) : Prop := ∃ evs u, Reach s evs u ∧ t = emit e u

theorem Replied.out {e : OutEvent} {s t : State} (h : Replied e s t) : t.out = s.out ++ [e] := by
  obtain ⟨evs, u, hr, rfl⟩ := h
  obtain ⟨-, -, hout, -, -, -⟩ := hr.frame
  rw [emit_out, hout]

theorem Replied.frame {e : OutEvent} {s t : State} (h : Replied e s t) :
    t.session = s.session ∧ t.params = s.params ∧ t.results = s.results ∧ t.pending = s.pending
      ∧ t.tick = s.tick ∧ ∃ evs, t.bus = s.bus ++ evs := by
  obtain ⟨evs, u, hr, rfl⟩ := h
  obtain ⟨hparams, hsession, -, hresults, hpending, htick⟩ := hr.frame
  exact ⟨hsession, hparams, hresults, hpending, htick, evs, hr.bus⟩

theorem runNotice_replied {α : Type} {P : Params → BusEvent → Prop} {op : RegOp α}
    (h : OpOnly P op) (s : State) : ∃ n, Replied (.notice n) s (runNotice op s) := by
  obtain ⟨evs, u, hr, -, he⟩ := runNotice_reach h s
  exact ⟨_, evs, u, hr, he⟩

theorem runReply_replied {α : Type} {P : Params → BusEvent → Prop} {op : RegOp α}
    (h : OpOnly P op) (id : Byte) (n : Nat) (pl : α → List Byte) (s : State) :
    ∃ bytes, Replied (.packet bytes) s (runReply id n pl op s) := by
  obtain ⟨evs, u, hr, -, ⟨v, he⟩ | he⟩ := runReply_reach (id := id) (n := n) (pl := pl) h s
  · exact ⟨_, evs, u, hr, he⟩
  · exact ⟨_, evs, u, hr, he⟩

/-- Each read command is a `runReply` of an operation that only makes transactions. -/
theorem replied_of_readCommand {i : Instr} {s t : State} (hi : isReadCommand i = true)
    (h : exec i s = .next t) : ∃ bytes, Replied (.packet bytes) s t := by
  cases i
  case cmdMfrId => cases h; exact runReply_replied (opOnly_rdId 0) _ _ _ s
  case cmdDevId => cases h; exact runReply_replied (opOnly_rdId 1) _ _ _ s
  case cmdRdRate => cases h; exact runReply_replied opOnly_rdRate _ _ _ s
  case cmdSensor => cases h; exact runReply_replied opOnly_present _ _ _ s
  case cmdRdCh0 => cases h; exact runReply_replied (opOnly_chsetFields (by decide)) _ _ _ s
  case cmdRdCh1 => cases h; exact runReply_replied (opOnly_chsetFields (by decide)) _ _ _ s
  case cmdRdCh2 => cases h; exact runReply_replied (opOnly_chsetFields (by decide)) _ _ _ s
  case cmdRdCh3 => cases h; exact runReply_replied (opOnly_chsetFields (by decide)) _ _ _ s
  all_goals cases hi

/-- Each change command is a `runNotice` of an operation that only makes transactions. -/
theorem replied_of_changeCommand {i : Instr} {s t : State} (hi : isChangeCommand i = true)
    (h : exec i s = .next t) : ∃ n, Replied (.notice n) s t := by
  cases i
  case cmdReset => cases h; exact runNotice_replied opOnly_resetOp s
  case cmdStart0 => cases h; exact runNotice_replied (opOnly_startMeas 0) s
  case cmdStart1 => cases h; exact runNotice_replied (opOnly_startMeas 1) s
  case cmdStart2 => cases h; exact runNotice_replied (opOnly_startMeas 2) s
  case cmdStart3 => cases h; exact runNotice_replied (opOnly_startMeas 3) s
  all_goals cases hi

theorem replied_of_immediate {i : Instr} {s t : State}
    (hi : isReadCommand i = true ∨ isChangeCommand i = true) (h : exec i s = .next t) :
    ∃ e, Replied e s t := by
  rcases hi with hi | hi
  · obtain ⟨bytes, hb⟩ := replied_of_readCommand hi h
    exact ⟨_, hb⟩
  · obtain ⟨n, hn⟩ := replied_of_changeCommand hi h
    exact ⟨_, hn⟩

/-- Settles O23: the frame is that of the transactions, and the one event is of the command's kind. -/
theorem immediateCommandFrame : Obligations.ImmediateCommandFrame := by
  intro i s t hi h
  obtain ⟨e, he⟩ := replied_of_immediate hi h
  obtain ⟨hsession, hparams, hresults, hpending, htick, hbus⟩ := he.frame
  refine ⟨hsession, hparams, hresults, hpending, htick, hbus, fun hread => ?_, fun hchange => ?_⟩
  · obtain ⟨bytes, hb⟩ := replied_of_readCommand hread h
    exact ⟨bytes, hb.out⟩
  · obtain ⟨n, hn⟩ := replied_of_changeCommand hchange h
    exact ⟨n, hn.out⟩

end Sys2Proof.Machine
end

section
/-! PROOFS. The transactions of an operation of the REG unit that succeeds (`41_register_codec.md`
R171): their kinds are those of its parts, which `opThen` puts one after another. -/

namespace Sys2Proof.Machine

/-! ### The kinds of an operation's transactions -/

/-- Whenever `op` succeeds, it has made transactions of the kinds `ks`, in this order. -/
def Makes {α : Type} (ks : List TxKind) (op : RegOp α) : Prop :=
  ∀ s v t, op s = (.ok v, t) → ∃ evs, Reach s evs t ∧ evs.map txKind = ks

/-- What follows a part that succeeds has succeeded from the state that the part left. -/
theorem opThen_eq_ok {α β : Type} {x : RegOp α} {f : α → RegOp β} {s t : State} {v : β}
    (h : opThen x f s = (.ok v, t)) : ∃ a s1, x s = (.ok a, s1) ∧ f a s1 = (.ok v, t) := by
  rcases hx : x s with ⟨e | a, s1⟩
  · rw [opThen_error hx] at h
    cases h
  · rw [opThen_ok hx] at h
    exact ⟨a, s1, rfl, h⟩

theorem Makes.return {α : Type} (v : α) : Makes [] (opReturn v) := by
  rintro s _ _ ⟨⟩
  exact ⟨[], .refl s, rfl⟩

theorem Makes.require (c : Bool) : Makes [] (opRequire c) := by
  cases c
  · rintro s _ _ ⟨⟩
  · exact .return ()

theorem Makes.memRead (reg : Byte) : Makes [.read] (opMemRead reg) := by
  intro s v t h
  obtain rfl : (busRead reg s).2 = t := by rw [← opMemRead_snd, h]
  exact ⟨_, .read reg (.refl _), rfl⟩

theorem Makes.memWrite (reg : Byte) (w : Word) : Makes [.write] (opMemWrite reg w) := by
  intro s v t h
  obtain rfl : (busWrite reg (hiByte w) (loByte w) s).2 = t := by rw [← opMemWrite_snd, h]
  exact ⟨_, .write reg _ _ (.refl _), rfl⟩

theorem Makes.probe : Makes [.probe] opProbe := by
  rintro s _ _ ⟨⟩
  exact ⟨_, .probe (.refl _), rfl⟩

theorem Makes.then {α β : Type} {ks ls : List TxKind} {x : RegOp α} {f : α → RegOp β}
    (hx : Makes ks x) (hf : ∀ a, Makes ls (f a)) : Makes (ks ++ ls) (opThen x f) := by
  intro s v t h
  obtain ⟨a, s1, hxs, hfs⟩ := opThen_eq_ok h
  obtain ⟨es, hr, hks⟩ := hx s a s1 hxs
  obtain ⟨fs, hr', hls⟩ := hf a s1 v t hfs
  exact ⟨es ++ fs, hr.trans hr', by rw [List.map_append, hks, hls]⟩

/-- A check adds no transaction. -/
theorem Makes.check {β : Type} {c : Bool} {ks : List TxKind} {f : Unit → RegOp β}
    (hf : Makes ks (f ())) : Makes ks (opThen (opRequire c) f) :=
  (Makes.require c).then fun _ => hf

theorem Makes.rmw (reg : Byte) (g : Word → Word) : Makes [.read, .write] (opRmw reg g) :=
  (Makes.memRead reg).then fun w => .memWrite reg (g w)

/-- One read, and a value computed from the word. -/
theorem Makes.readValue {α : Type} (reg : Byte) (g : Word → α) :
    Makes [.read] (opThen (opMemRead reg) fun w => opReturn (g w)) :=
  (Makes.memRead reg).then fun w => .return (g w)

theorem makes_enRepeat (m : Byte) : Makes [.read, .write, .write] (opEnRepeat m) :=
  .check <| (Makes.memRead _).then fun _ => (Makes.memWrite _ _).then fun _ => .memWrite _ _

theorem makes_rdRaw (ch : Byte) : Makes [.read, .read] (opRdRaw ch) :=
  .check <| (Makes.memRead _).then fun _ => .readValue _ _

theorem makes_rdMeas (ch : Byte) : Makes [.read, .read, .read] (opRdMeas ch) :=
  .check <| (makes_rdRaw ch).then fun _ => .readValue _ _

/-! ### RESET's polls -/

/-- A poll that succeeds has read FDC_CONF once or more, within its bound (R167). -/
theorem pollReset_reads {n : Nat} {s t : State} {v : Unit} (h : opPollReset n s = (.ok v, t)) :
    ∃ evs polls, Reach s evs t ∧ evs.map txKind = List.replicate polls .read
      ∧ 1 ≤ polls ∧ polls ≤ n := by
  induction n generalizing s with
  | zero => cases h
  | succ n ih =>
    obtain ⟨w, s1, hread, hrest⟩ := opThen_eq_ok h
    obtain ⟨es, hr, hks⟩ := Makes.memRead regFdcConf s w s1 hread
    split at hrest
    · obtain ⟨fs, polls, hr', hreads, -, hle⟩ := ih hrest
      refine ⟨es ++ fs, polls + 1, hr.trans hr', ?_, by omega, by omega⟩
      rw [List.map_append, hks, hreads]
      rfl
    · cases hrest
      exact ⟨es, 1, hr, hks, by omega, by omega⟩

/-- RESET that succeeds: the RMW, then the polls. -/
theorem reset_reads {s t : State} {v : Unit} (h : opReset s = (.ok v, t)) :
    ∃ evs polls, Reach s evs t
      ∧ evs.map txKind = [.read, .write] ++ List.replicate polls .read
      ∧ 1 ≤ polls ∧ polls ≤ s.params.resetPollLimit := by
  obtain ⟨a, s1, hrmw, hpoll⟩ := opThen_eq_ok h
  obtain ⟨es, hr, hks⟩ := Makes.rmw regFdcConf setRst s a s1 hrmw
  obtain ⟨fs, polls, hr', hreads, h1, hle⟩ := pollReset_reads hpoll
  obtain ⟨hparams, -⟩ := hr.frame
  exact ⟨es ++ fs, polls, hr.trans hr', by rw [List.map_append, hks, hreads], h1, hparams ▸ hle⟩

/-! ### Each operation -/

/-- The kinds are those of R171's list for `i`, with a number of polls that the parameters allow. -/
def Listed (i : Instr) (p : Params) (ks : List TxKind) : Prop :=
  ∃ polls, okTraffic polls i = some ks ∧ 1 ≤ polls ∧ polls ≤ max 1 p.resetPollLimit

/-- `i` answers its request with the outcome of an operation whose transactions, when it succeeds,
are as R171 lists them. -/
def MakesListed (i : Instr) : Prop :=
  ∃ (α : Type) (f : α → Long × F64 × Bool) (op : RegOp α),
    (∀ s, exec i s = .next (runReq f op s))
      ∧ ∀ s v t, op s = (.ok v, t) → ∃ evs, Reach s evs t ∧ Listed i s.params (evs.map txKind)

theorem MakesListed.of {α : Type} {i : Instr} {f : α → Long × F64 × Bool} {op : RegOp α}
    {ks : List TxKind} (h : Makes ks op) (hexec : ∀ s, exec i s = .next (runReq f op s))
    (hks : okTraffic 1 i = some ks) : MakesListed i := by
  refine ⟨α, f, op, hexec, fun s v t hop => ?_⟩
  obtain ⟨evs, hr, hevs⟩ := h s v t hop
  exact ⟨evs, hr, 1, hevs ▸ hks, le_rfl, le_max_left _ _⟩

theorem makesListed_reset : MakesListed .reset := by
  refine ⟨Unit, asNothing, opReset, fun _ => rfl, fun s v t hop => ?_⟩
  obtain ⟨evs, polls, hr, hreads, h1, hle⟩ := reset_reads hop
  exact ⟨evs, hr, polls, congrArg some hreads.symm, h1, hle.trans (le_max_right _ _)⟩

/-- Every operation of R171's list. -/
theorem makesListed_of_isSome {i : Instr} (hi : (okTraffic 0 i).isSome = true) : MakesListed i := by
  cases i
  case rdOffset ch => exact .of (.check (.readValue _ _)) (fun _ => rfl) rfl
  case wrOffset ch val => exact .of (.check (.check (.memWrite _ _))) (fun _ => rfl) rfl
  case rdGain ch => exact .of (.check (.readValue _ _)) (fun _ => rfl) rfl
  case wrGain ch val => exact .of (.check (.check (.memWrite _ _))) (fun _ => rfl) rfl
  case cfgInput ch a b c =>
    exact .of (.check (.check (.check (.check (.check (.rmw _ _)))))) (fun _ => rfl) rfl
  case startMeas ch => exact .of (.check (.rmw _ _)) (fun _ => rfl) rfl
  case stopMeas ch => exact .of (.check (.rmw _ _)) (fun _ => rfl) rfl
  case isDone ch => exact .of (.check (.readValue _ _)) (fun _ => rfl) rfl
  case newData => exact .of (.readValue _ _) (fun _ => rfl) rfl
  case setRate a => exact .of (.check (.rmw _ _)) (fun _ => rfl) rfl
  case rdRate => exact .of (.readValue _ _) (fun _ => rfl) rfl
  case enRepeat a => exact .of (makes_enRepeat a) (fun _ => rfl) rfl
  case disRepeat => exact .of (.rmw _ _) (fun _ => rfl) rfl
  case rdRaw ch => exact .of (makes_rdRaw ch) (fun _ => rfl) rfl
  case rdMeas ch => exact .of (makes_rdMeas ch) (fun _ => rfl) rfl
  case reset => exact makesListed_reset
  case present => exact .of .probe (fun _ => rfl) rfl
  case rdId a => exact .of (.check (.memRead _)) (fun _ => rfl) rfl
  all_goals cases hi

/-! ### The statement -/

/-- Only a REQ operation adds a record. -/
theorem isReq_of_results {i : Instr} {s t : State} {r : ReqResult} (h : exec i s = .next t)
    (hr : t.results = s.results ++ [r]) : isReq i = true := by
  rcases exec_cases h with ⟨hi, -⟩ | ⟨-, x, evs, u, e, -, hreach, -, -, -, rfl⟩ | hs
  · exact hi
  · obtain ⟨-, -, -, hresults, -, -⟩ := hreach.frame
    simp [hresults] at hr
  · obtain ⟨-, x, rfl⟩ := hs.session_only
    simp at hr

/-- The transactions of an operation that answered OK. -/
theorem listed_of_ok {i : Instr} {s t : State} {r : ReqResult} (hi : MakesListed i)
    (h : exec i s = .next t) (hr : t.results = s.results ++ [r]) (hok : r.status = .ok) :
    ∃ evs, t.bus = s.bus ++ evs ∧ Listed i s.params (evs.map txKind) := by
  obtain ⟨α, f, op, hexec, hop⟩ := hi
  have ht : t = runReq f op s := by rw [hexec] at h; cases h; rfl
  rw [eq_resultOf_of_runReq ht hr, resultOf_status] at hok
  rcases hx : op s with ⟨e | v, u⟩
  · rw [hx] at hok
    cases e <;> cases hok
  · obtain ⟨evs, hreach, hlisted⟩ := hop s v u hx
    exact ⟨evs, by rw [ht, runReq_eq hx, respond_bus, hreach.bus], hlisted⟩

/-- Settles O28: on OK the operation's parts give the list; on ConfigError nothing changed but the
results; on any other status there is nothing to say of the transactions. -/
theorem transactionsPerOperation : Obligations.TransactionsPerOperation := by
  intro i s t r h hr
  have hi := isReq_of_results h hr
  obtain ⟨-, -, -, -, -, -, evs, hbus⟩ := requestFrame i s t hi h
  refine ⟨evs, hbus, fun hok hsome => ?_, fun hc => ?_⟩
  · obtain ⟨evs', hbus', hlisted⟩ := listed_of_ok (makesListed_of_isSome hsome) h hr hok
    rwa [List.append_cancel_left (hbus.symm.trans hbus')]
  · rw [configErrorTouchesNothing i s t r hi h hr hc] at hbus
    exact List.self_eq_append_right.1 hbus

end Sys2Proof.Machine
end
